-- ==== Sys2Proof/Word.lean ====
section
/-! DEFINITION. The widths of the machine's data: 16-bit words, 8-bit memory bytes, 64-bit slots. -/

namespace Sys2Proof

/-- A word: every register and every stored data word (R5 `XLEN`, R6). -/
abbrev Word := BitVec 16

/-- One byte of a memory unit (R40). -/
abbrev Byte := BitVec 8

/-- One instruction slot of the slot level (R74). -/
abbrev Slot := BitVec 64

end Sys2Proof
end

