-- ==== Sys2Proof/Syntax.lean ====
section
/-! DEFINITION. The instruction set at the record level (R70 to R73): operands, records and the
instructions, one constructor of `Instr` for each row of spec/opcode_table.json. -/

namespace Sys2Proof

/-- The 23 instruction kinds and the default no-op (R71). The order carries no meaning (R72). -/
inductive Kind
  | mov | push | pop
  | add | sub | umul | smul | udiv | sdiv
  | and | or | xor | shl | shr | not | cmp
  | jmp | jeq | jne | jlt | jle | jgt | jge
  | nop
deriving DecidableEq, Repr

/-- The Registers of the machine's data model (R10, R12, R13, R16). An instruction may name `r0..r7`
and `sp` only (R18): see `RegName.nameable`; the host reaches all of them (R32). -/
inductive RegName
  | gpr (i : Fin 8)
  | sp
  | pc
  | flags
deriving DecidableEq, Repr

/-- The binary operators of a relative location, `RELOPS` (R5, R49). -/
inductive RelOp
  | add
  | sub
deriving DecidableEq, Repr

mutual

/-- A Parameter as an instruction can hold it (R46). ResolvedMemory and UnresolvedMemory exist only
inside one instruction (R46) and are `Machine.Accessor`. -/
inductive Param
  /-- Constant: a fixed word. -/
  | const (c : Word)
  /-- Register. -/
  | reg (r : RegName)
  /-- RegisterReference: an unresolved symbolic name, before linking. -/
  | regRef (name : String)
  /-- ConstantMemoryLocation: a fixed address. -/
  | memC (a : Int)
  /-- AbsoluteMemoryLocation: the address is the value of a wrapped Parameter. -/
  | memAbs (q : Param)
  /-- RelativeMemoryLocation: a first term and the (operator, term) pairs folded onto it from left
  to right, so that the number of terms is the number of operators plus one by construction (R49). -/
  | memRel (t0 : Param) (rest : RelTail)
deriving DecidableEq, Repr

/-- The operators `o1, o2, …` of a relative location, each with the term to its right (R49). -/
inductive RelTail
  | nil
  | cons (op : RelOp) (t : Param) (rest : RelTail)
deriving DecidableEq, Repr

end

/-- The instruction record `(kind, parameter-1, parameter-2)`; `none` is an absent parameter (R70). -/
structure Record where
  kind : Kind
  p1 : Option Param
  p2 : Option Param
deriving DecidableEq, Repr

/-- The instructions, with the operands R73 gives each kind. Operand one is the destination of every
writing kind. -/
inductive Instr
  | mov (p1 p2 : Param)
  | push (p1 : Param)
  | pop (p1 : Option Param)
  | add (p1 p2 : Param)
  | sub (p1 p2 : Param)
  | umul (p1 p2 : Param)
  | smul (p1 p2 : Param)
  | udiv (p1 p2 : Param)
  | sdiv (p1 p2 : Param)
  | and (p1 p2 : Param)
  | or (p1 p2 : Param)
  | xor (p1 p2 : Param)
  | shl (p1 p2 : Param)
  | shr (p1 p2 : Param)
  | not (p1 : Param) (p2 : Option Param)
  | cmp (p1 p2 : Param)
  | jmp (p1 : Param)
  | jeq (p1 : Param)
  | jne (p1 : Param)
  | jlt (p1 : Param)
  | jle (p1 : Param)
  | jgt (p1 : Param)
  | jge (p1 : Param)
  | nop
deriving DecidableEq, Repr

/-- The kind of an instruction (R70). -/
def Instr.kind : Instr → Kind
  | .mov _ _ => .mov
  | .push _ => .push
  | .pop _ => .pop
  | .add _ _ => .add
  | .sub _ _ => .sub
  | .umul _ _ => .umul
  | .smul _ _ => .smul
  | .udiv _ _ => .udiv
  | .sdiv _ _ => .sdiv
  | .and _ _ => .and
  | .or _ _ => .or
  | .xor _ _ => .xor
  | .shl _ _ => .shl
  | .shr _ _ => .shr
  | .not _ _ => .not
  | .cmp _ _ => .cmp
  | .jmp _ => .jmp
  | .jeq _ => .jeq
  | .jne _ => .jne
  | .jlt _ => .jlt
  | .jle _ => .jle
  | .jgt _ => .jgt
  | .jge _ => .jge
  | .nop => .nop

/-- Parameter-1, where the instruction has one (R70). -/
def Instr.p1? : Instr → Option Param
  | .mov p1 _ | .add p1 _ | .sub p1 _ | .umul p1 _ | .smul p1 _ | .udiv p1 _ | .sdiv p1 _
  | .and p1 _ | .or p1 _ | .xor p1 _ | .shl p1 _ | .shr p1 _ | .cmp p1 _ => some p1
  | .not p1 _ => some p1
  | .push p1 | .jmp p1 | .jeq p1 | .jne p1 | .jlt p1 | .jle p1 | .jgt p1 | .jge p1 => some p1
  | .pop p1 => p1
  | .nop => none

/-- Parameter-2, where the instruction has one (R70). -/
def Instr.p2? : Instr → Option Param
  | .mov _ p2 | .add _ p2 | .sub _ p2 | .umul _ p2 | .smul _ p2 | .udiv _ p2 | .sdiv _ p2
  | .and _ p2 | .or _ p2 | .xor _ p2 | .shl _ p2 | .shr _ p2 | .cmp _ p2 => some p2
  | .not _ p2 => p2
  | .push _ | .pop _ | .jmp _ | .jeq _ | .jne _ | .jlt _ | .jle _ | .jgt _ | .jge _ => none
  | .nop => none

/-- The record of an instruction (R70). -/
def Instr.toRecord (i : Instr) : Record := ⟨i.kind, i.p1?, i.p2?⟩

/-- One cell of the instruction store: a 64-bit slot at the slot level, or a whole record at the
record level (R4, R21). Log 8. -/
inductive ProgCell
  | slot (S : Slot)
  | record (r : Record)
deriving DecidableEq, Repr

end Sys2Proof
end

