-- ==== Sys2Proof/WellFormed.lean ====
section
/-! DEFINITION. Which instructions are well-formed (R18, R73, R181), and the two further checks a
program is judged by: that it is linked (R34) and that no writing instruction has a Constant as its
destination (R203, R205). -/

namespace Sys2Proof

/-- Why a record is ill-formed (R73): a model refuses it. -/
inductive ShapeError
  /-- a parameter that the kind requires is absent (R73) -/
  | missingOperand
  /-- a parameter that the kind does not take is present (R73) -/
  | extraOperand
  /-- a Register Parameter denotes `pc` or `FLAGS` (R18) -/
  | inadmissibleRegister
  /-- the target of a branch is a MemoryLocation (R181) -/
  | memoryBranchTarget
deriving DecidableEq, Repr

/-- The registers that an instruction can name: `r0..r7` and `sp` (R18). -/
def RegName.nameable : RegName → Bool
  | .gpr _ => true
  | .sp => true
  | .pc => false
  | .flags => false

/-- A Parameter that "evaluates to an address value rather than a data value" (R47). -/
def Param.isMem : Param → Bool
  | .memC _ => true
  | .memAbs _ => true
  | .memRel _ _ => true
  | .const _ => false
  | .reg _ => false
  | .regRef _ => false

/-- A Constant: the one Parameter of an instruction that is not writable (R46, R205). -/
def Param.isConst : Param → Bool
  | .const _ => true
  | .reg _ => false
  | .regRef _ => false
  | .memC _ => false
  | .memAbs _ => false
  | .memRel _ _ => false

/-- The register that an operand names, as a list. -/
def Param.asReg : Param → List RegName
  | .reg r => [r]
  | .const _ => []
  | .regRef _ => []
  | .memC _ => []
  | .memAbs _ => []
  | .memRel _ _ => []

mutual

/-- Every Register inside the Parameter is one that an instruction can name (R18). -/
def Param.admissible : Param → Bool
  | .const _ => true
  | .reg r => r.nameable
  | .regRef _ => true
  | .memC _ => true
  | .memAbs q => q.admissible
  | .memRel t0 rest => t0.admissible && rest.admissible

/-- `Param.admissible` for the terms after the first of a relative location. -/
def RelTail.admissible : RelTail → Bool
  | .nil => true
  | .cons _ t rest => t.admissible && rest.admissible

end

mutual

/-- No RegisterReference is left inside the Parameter (R34, R46). -/
def Param.linked : Param → Bool
  | .const _ => true
  | .reg _ => true
  | .regRef _ => false
  | .memC _ => true
  | .memAbs q => q.linked
  | .memRel t0 rest => t0.linked && rest.linked

/-- `Param.linked` for the terms after the first of a relative location. -/
def RelTail.linked : RelTail → Bool
  | .nil => true
  | .cons _ t rest => t.linked && rest.linked

end

/-- The operands that an instruction holds. -/
def Instr.operands (i : Instr) : List Param := i.p1?.toList ++ i.p2?.toList

/-- The seven branch kinds (R71): a closed set (R72). -/
def Kind.isBranch : Kind → Bool
  | .jmp | .jeq | .jne | .jlt | .jle | .jgt | .jge => true
  | .mov | .push | .pop => false
  | .add | .sub | .umul | .smul | .udiv | .sdiv => false
  | .and | .or | .xor | .shl | .shr | .not | .cmp => false
  | .nop => false

/-- The kinds that write their first operand (R73, R205): `mov`, `pop` and the ALU's twelve. -/
def Kind.writesP1 : Kind → Bool
  | .mov | .pop => true
  | .add | .sub | .umul | .smul | .udiv | .sdiv => true
  | .and | .or | .xor | .shl | .shr | .not => true
  | .push | .cmp => false
  | .jmp | .jeq | .jne | .jlt | .jle | .jgt | .jge => false
  | .nop => false

/-- What makes an instruction ill-formed, if anything does (R18, R73, R181). A missing or an extra
operand cannot be written in `Instr`: `Record.toInstr` refuses those. -/
def Instr.shapeError? (i : Instr) : Option ShapeError :=
  if i.operands.any (fun p => !p.admissible) then some .inadmissibleRegister
  else if i.kind.isBranch && i.operands.any Param.isMem then some .memoryBranchTarget
  else none

/-- The instruction is well-formed (R73). -/
abbrev Instr.WellFormed (i : Instr) : Prop := i.shapeError? = none

/-- No operand holds a RegisterReference (R34). -/
def Instr.linked (i : Instr) : Bool := i.operands.all Param.linked

/-- The capability check of R205 passes: the instruction does not write its first operand, or that
operand is no Constant. -/
def Instr.writable (i : Instr) : Bool := !(i.kind.writesP1 && i.p1?.any Param.isConst)

end Sys2Proof
end

