-- ==== Sys2Proof/Decode.lean ====
section
/-! DEFINITION. The record level's shape table (R73), the decoder of the 64-bit slot (R74 to R79, R81)
and, after it, the encoder (R76, R83). Decoding is total: a slot is an instruction, ill-formed, or
undecodable by name. -/

namespace Sys2Proof

/-- Why a slot is undecodable (R79 steps 1 and 2, R81). -/
inductive SlotError
  /-- kind code 24 to 31 -/
  | reservedKind
  /-- `S[58:56]` is not 0 -/
  | nonzeroSlotZero
  /-- operand mode 6 or 7 -/
  | reservedMode
  /-- register selector 9 to 15 in a used selector field -/
  | reservedSelector
  /-- a must-be-zero field of an operand descriptor is not 0 -/
  | nonzeroUnused
deriving DecidableEq, Repr

/-! ## Records -/

/-- The instruction with the kind and operands of a record, before the check of the operands
themselves: the number of operands is the kind's (R73). -/
def Record.toInstrShape : Record → Except ShapeError Instr
  | ⟨.mov, some a, some b⟩ => .ok (.mov a b)
  | ⟨.add, some a, some b⟩ => .ok (.add a b)
  | ⟨.sub, some a, some b⟩ => .ok (.sub a b)
  | ⟨.umul, some a, some b⟩ => .ok (.umul a b)
  | ⟨.smul, some a, some b⟩ => .ok (.smul a b)
  | ⟨.udiv, some a, some b⟩ => .ok (.udiv a b)
  | ⟨.sdiv, some a, some b⟩ => .ok (.sdiv a b)
  | ⟨.and, some a, some b⟩ => .ok (.and a b)
  | ⟨.or, some a, some b⟩ => .ok (.or a b)
  | ⟨.xor, some a, some b⟩ => .ok (.xor a b)
  | ⟨.shl, some a, some b⟩ => .ok (.shl a b)
  | ⟨.shr, some a, some b⟩ => .ok (.shr a b)
  | ⟨.cmp, some a, some b⟩ => .ok (.cmp a b)
  | ⟨.not, some a, b⟩ => .ok (.not a b)
  | ⟨.pop, a, none⟩ => .ok (.pop a)
  | ⟨.push, some a, none⟩ => .ok (.push a)
  | ⟨.jmp, some a, none⟩ => .ok (.jmp a)
  | ⟨.jeq, some a, none⟩ => .ok (.jeq a)
  | ⟨.jne, some a, none⟩ => .ok (.jne a)
  | ⟨.jlt, some a, none⟩ => .ok (.jlt a)
  | ⟨.jle, some a, none⟩ => .ok (.jle a)
  | ⟨.jgt, some a, none⟩ => .ok (.jgt a)
  | ⟨.jge, some a, none⟩ => .ok (.jge a)
  | ⟨.nop, none, none⟩ => .ok .nop
  | ⟨.nop, _, _⟩ => .error .extraOperand
  | ⟨.pop, _, some _⟩ => .error .extraOperand
  | ⟨.push, some _, some _⟩ => .error .extraOperand
  | ⟨.jmp, some _, some _⟩ => .error .extraOperand
  | ⟨.jeq, some _, some _⟩ => .error .extraOperand
  | ⟨.jne, some _, some _⟩ => .error .extraOperand
  | ⟨.jlt, some _, some _⟩ => .error .extraOperand
  | ⟨.jle, some _, some _⟩ => .error .extraOperand
  | ⟨.jgt, some _, some _⟩ => .error .extraOperand
  | ⟨.jge, some _, some _⟩ => .error .extraOperand
  | ⟨_, _, _⟩ => .error .missingOperand

/-- The instruction of a record, or why the record is ill-formed (R73). -/
def Record.toInstr (r : Record) : Except ShapeError Instr :=
  match r.toInstrShape with
  | .error e => .error e
  | .ok i =>
    match i.shapeError? with
    | some e => .error e
    | none => .ok i

/-! ## The decoder -/

/-- The kind with a kind code (R75); codes 24 to 31 are reserved (R81). -/
def kindOfCode : Nat → Option Kind
  | 0 => some .mov
  | 1 => some .push
  | 2 => some .pop
  | 3 => some .add
  | 4 => some .sub
  | 5 => some .umul
  | 6 => some .smul
  | 7 => some .udiv
  | 8 => some .sdiv
  | 9 => some .and
  | 10 => some .or
  | 11 => some .xor
  | 12 => some .shl
  | 13 => some .shr
  | 14 => some .not
  | 15 => some .cmp
  | 16 => some .jmp
  | 17 => some .jeq
  | 18 => some .jne
  | 19 => some .jlt
  | 20 => some .jle
  | 21 => some .jgt
  | 22 => some .jge
  | 23 => some .nop
  | _ => none

/-- The register with a selector (R78); selectors 9 to 15 are reserved. -/
def regOfSelector (sel : Nat) : Option RegName :=
  if h : sel < 8 then some (.gpr ⟨sel, h⟩)
  else if sel = 8 then some .sp
  else none

/-- A register selector of a used selector field. -/
def decodeSelector (sel : Nat) : Except SlotError RegName :=
  match regOfSelector sel with
  | some r => .ok r
  | none => .error .reservedSelector

/-- The Parameter of a 28-bit operand descriptor (R76, R77). -/
def decodeOperand (D : BitVec 28) : Except SlotError (Option Param) :=
  let mode := (D.extractLsb' 25 3).toNat
  let reg := (D.extractLsb' 21 4).toNat
  let relop := (D.extractLsb' 20 1).toNat
  let t1reg := (D.extractLsb' 19 1).toNat
  let mbz := (D.extractLsb' 16 3).toNat
  let imm := D.extractLsb' 0 16
  if mbz ≠ 0 then .error .nonzeroUnused
  else
    match mode with
    | 0 =>
      if reg = 0 ∧ relop = 0 ∧ t1reg = 0 ∧ imm = 0 then .ok none else .error .nonzeroUnused
    | 1 =>
      if reg = 0 ∧ relop = 0 ∧ t1reg = 0 then .ok (some (.const imm)) else .error .nonzeroUnused
    | 2 =>
      if relop = 0 ∧ t1reg = 0 ∧ imm = 0 then
        match decodeSelector reg with
        | .error e => .error e
        | .ok r => .ok (some (.reg r))
      else .error .nonzeroUnused
    | 3 =>
      if reg = 0 ∧ relop = 0 ∧ t1reg = 0 then .ok (some (.memC imm.toNat))
      else .error .nonzeroUnused
    | 4 =>
      if relop = 0 ∧ t1reg = 0 ∧ imm = 0 then
        match decodeSelector reg with
        | .error e => .error e
        | .ok r => .ok (some (.memAbs (.reg r)))
      else .error .nonzeroUnused
    | 5 =>
      let op := if relop = 0 then RelOp.add else RelOp.sub
      match decodeSelector reg with
      | .error e => .error e
      | .ok r =>
        if t1reg = 0 then .ok (some (.memRel (.reg r) (.cons op (.const imm) .nil)))
        else if 16 ≤ imm.toNat then .error .nonzeroUnused
        else
          match decodeSelector imm.toNat with
          | .error e => .error e
          | .ok r' => .ok (some (.memRel (.reg r) (.cons op (.reg r') .nil)))
    | _ => .error .reservedMode

/-- The three outcomes of decoding a slot (R79). -/
inductive Decoded
  | instr (i : Instr)
  | illFormed (e : ShapeError)
  | undecodable (e : SlotError)
deriving DecidableEq, Repr

/-- `decode(S)` (R79): the well-formed record of a slot, as an instruction; total. -/
def decode (S : Slot) : Decoded :=
  match kindOfCode (S.extractLsb' 59 5).toNat with
  | none => .undecodable .reservedKind
  | some k =>
    if S.extractLsb' 56 3 ≠ 0 then .undecodable .nonzeroSlotZero
    else
      match decodeOperand (S.extractLsb' 28 28) with
      | .error e => .undecodable e
      | .ok p1 =>
        match decodeOperand (S.extractLsb' 0 28) with
        | .error e => .undecodable e
        | .ok p2 =>
          match (Record.mk k p1 p2).toInstr with
          | .error e => .illFormed e
          | .ok i => .instr i

/-- The instruction the decoder reads from the bits `w` of a slot, of which the table gives `nbits`;
the bits above them are 0. -/
def decodeTableWord (nbits w : Nat) : Option Instr :=
  match decode (BitVec.ofNat 64 (w % 2 ^ nbits)) with
  | .instr i => some i
  | .illFormed _ => none
  | .undecodable _ => none

/-! ## The encoder -/

/-- The kind code of a kind (R75). -/
def Kind.code : Kind → Nat
  | .mov => 0
  | .push => 1
  | .pop => 2
  | .add => 3
  | .sub => 4
  | .umul => 5
  | .smul => 6
  | .udiv => 7
  | .sdiv => 8
  | .and => 9
  | .or => 10
  | .xor => 11
  | .shl => 12
  | .shr => 13
  | .not => 14
  | .cmp => 15
  | .jmp => 16
  | .jeq => 17
  | .jne => 18
  | .jlt => 19
  | .jle => 20
  | .jgt => 21
  | .jge => 22
  | .nop => 23

/-- The selector of a register that has one (R78). -/
def RegName.selector? : RegName → Option Nat
  | .gpr i => some i.val
  | .sp => some 8
  | .pc => none
  | .flags => none

/-- The bit of a relative operator (R76 `relop`). -/
def RelOp.bit : RelOp → Nat
  | .add => 0
  | .sub => 1

/-- A 28-bit operand descriptor put together from its fields, `mode`, `reg`, `relop`, `t1reg`, the
must-be-zero bits and `imm` (R76). -/
def descriptor (mode reg relop t1reg : Nat) (imm : Word) : BitVec 28 :=
  BitVec.ofNat 3 mode ++ BitVec.ofNat 4 reg ++ BitVec.ofNat 1 relop ++ BitVec.ofNat 1 t1reg ++
    (0 : BitVec 3) ++ imm

/-- The descriptor of a parameter that has a slot form (R76, R77, R83). -/
def encodeOperand : Option Param → Option (BitVec 28)
  | none => some (descriptor 0 0 0 0 0)
  | some (.const c) => some (descriptor 1 0 0 0 c)
  | some (.reg r) => r.selector?.map fun sel => descriptor 2 sel 0 0 0
  | some (.memC a) =>
    if 0 ≤ a ∧ a < 65536 then some (descriptor 3 0 0 0 (BitVec.ofInt 16 a)) else none
  | some (.memAbs (.reg r)) => r.selector?.map fun sel => descriptor 4 sel 0 0 0
  | some (.memRel (.reg r) (.cons op (.const c) .nil)) =>
    r.selector?.map fun sel => descriptor 5 sel op.bit 0 c
  | some (.memRel (.reg r) (.cons op (.reg r') .nil)) =>
    r.selector?.bind fun sel =>
      r'.selector?.map fun sel' => descriptor 5 sel op.bit 1 (BitVec.ofNat 16 sel')
  | some _ => none

/-- A slot put together from its fields: kind code, three must-be-zero bits, the two descriptors
(R74). -/
def slotOf (code : Nat) (op1 op2 : BitVec 28) : Slot :=
  BitVec.ofNat 5 code ++ (0 : BitVec 3) ++ op1 ++ op2

/-- The slot of an instruction that has a slot form (R74, R79, R83). -/
def encode (i : Instr) : Option Slot :=
  match encodeOperand i.p1?, encodeOperand i.p2? with
  | some d1, some d2 => some (slotOf i.kind.code d1 d2)
  | _, _ => none

/-- The parameters that the slot level can express (R83). -/
def Param.hasSlotForm : Param → Bool
  | .const _ => true
  | .reg r => r.nameable
  | .regRef _ => false
  | .memC a => decide (0 ≤ a ∧ a < 65536)
  | .memAbs (.reg r) => r.nameable
  | .memAbs _ => false
  | .memRel (.reg r) (.cons _ (.const _) .nil) => r.nameable
  | .memRel (.reg r) (.cons _ (.reg r') .nil) => r.nameable && r'.nameable
  | .memRel _ _ => false

/-- The instructions that the slot level can express (R83). -/
def Instr.hasSlotForm (i : Instr) : Bool := i.operands.all Param.hasSlotForm

/-- How the slot level expresses a wrapped location (R83): an AbsoluteMemoryLocation of a Constant is
the ConstantMemoryLocation with that address, and one of a MemoryLocation is that location itself. -/
def Param.flattened : Param → Param
  | .memAbs (.const c) => .memC c.toNat
  | .memAbs (.memC a) => .memC a
  | .memAbs (.memAbs q) => (Param.memAbs q).flattened
  | .memAbs (.memRel t0 rest) => .memRel t0 rest
  | .memAbs (.reg r) => .memAbs (.reg r)
  | .memAbs (.regRef n) => .memAbs (.regRef n)
  | .const c => .const c
  | .reg r => .reg r
  | .regRef n => .regRef n
  | .memC a => .memC a
  | .memRel t0 rest => .memRel t0 rest

end Sys2Proof
end

