-- ==== Sys2Proof/Config.lean ====
section
/-! DEFINITION. What the spec leaves to the implementation or to the platform, as uninterpreted
constants: nothing in Lean can evaluate them, so a claim holds for every choice of them. -/

namespace Sys2Proof

/-- `UNRESOLVED_READ_VALUE` (R5, R57, D12): the word the `n`-th failed read hands to the reading unit,
an arbitrary word chosen anew at each failed read. Log 3. -/
opaque Config.unresolvedReadValue : Nat → Word

/-- A registrant's validator that is not in range form (R50): an arbitrary predicate over the raw
address, one for each number. Log 4. -/
opaque Config.customValidator : Nat → Int → Bool

/-- An instruction filter that is not given by kinds (R105): an arbitrary predicate over the instruction,
one for each number. Log 29. -/
opaque Config.customFilter : Nat → Instr → Bool

/-- What the platform's peripheral `device`, being in the given state, answers to a word read at a
unit-local address, and its state afterwards (R23, R59, U20). Log 6. -/
opaque Config.peripheralRead : (device : Nat) → (state : Nat) → (addr : Nat) → Word × Nat

/-- The state of the platform's peripheral `device` after a word write at a unit-local address
(R23, R59, U20). Log 6. -/
opaque Config.peripheralWrite : (device : Nat) → (state : Nat) → (addr : Nat) → Word → Nat

end Sys2Proof
end

