-- ==== Sys2Proof/Machine/Units.lean ====
section
/-! DEFINITION. The executing units with their closed families, and the dispatcher's registry of (unit,
filter) pairs (R26, R72, R105, R106). -/

namespace Sys2Proof.Machine

/-- The executing units (R106). -/
inductive ExecUnit
  | mmu
  | alu
  | ipu
deriving DecidableEq, Repr

/-- The closed set of kinds of a unit's family (R71, R72): its default filter (R106). -/
def ExecUnit.family : ExecUnit → List Kind
  | .mmu => [.mov, .push, .pop]
  | .alu => [.add, .sub, .umul, .smul, .udiv, .sdiv, .and, .or, .xor, .shl, .shr, .not, .cmp]
  | .ipu => [.jmp, .jeq, .jne, .jlt, .jle, .jgt, .jge]

/-- An instruction filter of the registry (R26, R105): a set of kinds, or any other predicate over the
instruction, held as its number (`Config.customFilter`). Log 29. -/
inductive Filter
  | kinds (accepted : List Kind)
  | custom (id : Nat)
deriving DecidableEq, Repr

/-- Whether a filter accepts an instruction (R105). -/
def Filter.accepts (f : Filter) (i : Instr) : Bool :=
  match f with
  | .kinds accepted => decide (i.kind ∈ accepted)
  | .custom id => Config.customFilter id i

/-- A registry: the registered units, each with its filter, in the order of their registration (R26,
R105; log 30). -/
abbrev Registry := List (ExecUnit × Filter)

/-- The units whose filter accepts an instruction: fan-out, not first-match (R105); in registry order,
which the spec leaves open (DESIGN CHOICE, log 30). -/
def Registry.units (reg : Registry) (i : Instr) : List ExecUnit :=
  (reg.filter fun entry => entry.2.accepts i).map Prod.fst

/-- `WIRING` (R5, R106): each unit with its own family; `nop` is in none. -/
def wiring : Registry :=
  [(.mmu, .kinds ExecUnit.mmu.family), (.alu, .kinds ExecUnit.alu.family),
   (.ipu, .kinds ExecUnit.ipu.family)]

/-- The spec's value of `OVF_REG` (R5, R20). -/
def defaultOvfReg : Fin 8 := 7

end Sys2Proof.Machine
end

