-- ==== Sys2Proof/Machine/State.lean ====
section
/-! DEFINITION. The machine's state as plain data (10_state.md), the locator tree (R50), the hardware
units (R23, R40), the reasons a tick can stop (R202, R73, R81), and the state after power-on reset
(R230). -/

namespace Sys2Proof.Machine

/-- The structural errors (R202): the tick, or the host's call, stops with no next state (R203). Each
is the spec's own stop, so it is safe: no claim about a next state follows from one. -/
inductive Fault
  /-- A writing instruction (or the host) writes through a Constant (R202, R205). Raised by
  `mov`, `pop`, `add`, `sub`, `umul`, `smul`, `udiv`, `sdiv`, `and`, `or`, `xor`, `shl`, `shr`, `not`
  with a Constant as parameter-1, before anything is touched. Safe. -/
  | notWritable
  /-- A RegisterReference is read, written or evaluated (R47, R57, R58): linking was skipped. Safe. -/
  | unresolvedReference
  /-- A unit is handed a kind outside its family (R107). Raised by `executeAt`; unreachable with the
  wiring of R106. Safe. -/
  | unsupportedInstruction
  /-- The host writes a value outside `0..0xFFFF` to a register (R11, R32); no instruction raises it.
  Safe. -/
  | valueOutOfRange
  /-- A RelativeMemoryLocation is built with a wrong number of operators (R49). Raised by
  `mkRelative`, before a program is loaded. Safe. -/
  | malformedExpression
  /-- Linking meets a name the map does not hold (R34): the symbol and its source line. Raised by
  `resolveReferences`. Safe. -/
  | undefinedReference (symbol : String) (line : Nat)
deriving DecidableEq, Repr

/-- What the model refuses to give a meaning to, because the spec tells a model to refuse it (R73,
R81) or because an instruction has no meaning yet. Refusing is safe: nothing follows from it. -/
inductive Refusal
  /-- An instruction without a meaning, by its mnemonic; raised in `exec` only. Safe. -/
  | notModelled (mnemonic : String)
  /-- The slot at `pc` spells no instruction (R81, U11): raised by the fetch and by the loader. Safe. -/
  | undecodableSlot (why : SlotError)
  /-- The record is ill-formed (R73, D30): raised by the fetch, by the loader and by an instruction
  handed operands that R73 does not give it. Safe. -/
  | illFormedRecord (why : ShapeError)
  /-- A program of more than 65536 instructions (R5, R21): raised by the loader. Safe. -/
  | programTooLong
deriving DecidableEq, Repr

/-- What a part of the machine answers: a value, or a stop. -/
abbrev Res (α : Type) := Host.Outcome α Fault Refusal

/-! ## The address map -/

/-- The capability of a registrant (R50, R54). -/
inductive Capability
  | readWrite
  | readOnly
  | writeOnly
deriving DecidableEq, Repr

/-- A registrant's validator (R50): the range form of R51, or any other predicate over the address,
held as its number (`Config.customValidator`). Log 4. -/
inductive Validator
  | range (size : Nat)
  | custom (id : Nat)
deriving DecidableEq, Repr

/-- A locator node: its registrants, each with an offset, a validator, a capability and a target that
is a hardware unit (by its number in `State.units`) or a child node (R50). The tree is finite (R67).
The order of the registrants has no effect. -/
inductive Node
  | empty
  | unitReg (offset : Word) (validator : Validator) (cap : Capability) (unit : Nat) (others : Node)
  | childReg (offset : Word) (validator : Validator) (cap : Capability) (child : Node)
      (others : Node)
deriving DecidableEq, Repr

/-! ## The hardware units -/

/-- The bytes of a RAM that differ from what an unlisted address reads as (0x00, log 1): addresses
strictly rising, no listed byte 0x00. -/
abbrev Memory := List Host.Cell

/-- The canonical form, for a memory whose addresses are at least `lo`. -/
def Memory.wfFrom (lo : Nat) : Memory → Bool
  | [] => true
  | (a, b) :: rest => decide (lo ≤ a) && decide (b ≠ 0) && Memory.wfFrom (a + 1) rest

/-- The canonical form: addresses strictly rising, no entry equal to what an unlisted address reads
as. Equal memories are then equal lists. -/
def Memory.wf (m : Memory) : Bool := Memory.wfFrom 0 m

/-- A hardware unit (R23, R40): a RAM of `size` bytes, or a peripheral of `size` addresses whose own
state and behaviour are the platform's (U20, log 6). -/
inductive HwUnit
  | ram (size : Nat) (mem : Memory)
  | peripheral (size : Nat) (device : Nat) (state : Nat)
deriving DecidableEq, Repr

/-! ## The state -/

/-- The machine's state. `map`, `prog`, `registry` and `ovfReg` are the configuration that the step is a
function of (R26) and no step changes; `draws` is the model's own (log 3); the rest is architectural
state. -/
structure State where
  /-- `x[0..7]`, the general registers `r0..r7` (R10). -/
  x : Vector Word 8
  /-- the stack pointer (R12) -/
  sp : Word
  /-- the program counter, an instruction index (R16) -/
  pc : Word
  /-- FLAGS (R13) -/
  flags : Word
  /-- the hardware units and what they store (R23) -/
  units : List HwUnit
  /-- MAP, the locator tree: the registrants of ROOT (R26, R50) -/
  map : Node
  /-- PROG, the instruction store (R21, R26) -/
  prog : List ProgCell
  /-- the dispatcher's registry of units and filters (R26, R105) -/
  registry : Registry
  /-- `OVF_REG`, the number of the general register that receives the overflow word (R5, R20, R26) -/
  ovfReg : Fin 8
  /-- how many values failed reads have drawn (the model's own, log 3) -/
  draws : Nat
deriving DecidableEq, Repr

/-- `MEM_SIZE`, the size of the default RAM in bytes (R5, R60). -/
def memSize : Nat := 65536

/-- `DEFAULT_MAP` (R60): ROOT with one read-write RAM in range form at offset 0. -/
def defaultMap : Node := .unitReg 0 (.range memSize) .readWrite 0 .empty

/-- The hardware units of the default platform: one RAM, no byte listed (R60; log 1). -/
def defaultUnits : List HwUnit := [.ram memSize []]

/-- The state after power-on reset (R27, R230): every register 0x0000, the default platform with the
wiring of the block (R106) and its overflow register (R20), and no program loaded yet (log 2). -/
def State.reset : State where
  x := Vector.replicate 8 0
  sp := 0
  pc := 0
  flags := 0
  units := defaultUnits
  map := defaultMap
  prog := []
  registry := wiring
  ovfReg := defaultOvfReg
  draws := 0

end Sys2Proof.Machine
end

