-- ==== Sys2Proof/Machine/Flags.lean ====
section
/-! DEFINITION. The flag register: the masks of the eight named flags (R13), its operations (R14), and
every flag computation the instructions make (R142, R162, R168). -/

namespace Sys2Proof.Machine

/-! ## The masks (R13, R201) -/

/-- OVERFLOW, bit 0: an overflow word was nonzero. -/
def fOverflow : Word := 0x0001
/-- ZERO, bit 1. -/
def fZero : Word := 0x0002
/-- DIV_ZERO, bit 2: a divisor read as 0. -/
def fDivZero : Word := 0x0004
/-- EQUAL, bit 3. -/
def fEqual : Word := 0x0008
/-- LESS, bit 4. -/
def fLess : Word := 0x0010
/-- SEG, bit 5: an access went nowhere. -/
def fSeg : Word := 0x0020
/-- MULTISTATE, bit 6: two or more registrants accept an address. -/
def fMultistate : Word := 0x0040
/-- ILLEGAL, bit 7: the default no-op was fetched. -/
def fIllegal : Word := 0x0080

/-- `CMP_CLEAR_MASK` (R5, R168): the flags that `cmp` clears first, EQUAL and LESS. -/
def cmpClearMask : Word := fEqual ||| fLess

/-! ## The operations (R14) -/

/-- `set(m)`: ORs bits in. -/
def State.setFlags (s : State) (m : Word) : State := { s with flags := s.flags ||| m }

/-- `unset(m)`: ANDs the complement. -/
def State.unsetFlags (s : State) (m : Word) : State := { s with flags := s.flags &&& ~~~m }

/-- `isSet(m)`: tests non-zero intersection. -/
def State.isSet (s : State) (m : Word) : Bool := s.flags &&& m != 0

/-- `clear()`: zeroes all bits. -/
def State.clearFlags (s : State) : State := { s with flags := 0 }

/-! ## The flags of a result -/

/-- The flags that an overflow-tracked result sets (R142): OVERFLOW when the overflow word is nonzero,
ZERO when result and overflow word are both zero. -/
def trackedFlags (lo hi : Word) : Word :=
  (if hi ≠ 0 then fOverflow else 0) ||| (if lo = 0 ∧ hi = 0 then fZero else 0)

/-- The flags that a non-overflow result sets (R162): ZERO when the result is zero. -/
def plainFlags (v : Word) : Word := if v = 0 then fZero else 0

/-- `sext_16(w)`: a word read as a signed two's-complement integer (R6). -/
def sext16 (w : Word) : Int :=
  if w.toNat < 0x8000 then (w.toNat : Int) else (w.toNat : Int) - 0x10000

/-- The flag that a compare sets after clearing EQUAL and LESS (R168): EQUAL, else LESS when the first
word is less than the second as signed words, else none. -/
def compareFlags (a b : Word) : Word :=
  if a = b then fEqual
  else if sext16 a < sext16 b then fLess
  else 0

end Sys2Proof.Machine
end

