-- ==== Sys2Proof/Machine/Ops.lean ====
section
/-! DEFINITION. The named operations over registers, memory units and the program counter that the
instructions are written in, how a stop is carried along, and a structural error (R203). This machine
has no traps: no exception entry and no return from one exist (R208, R209). -/

namespace Sys2Proof.Machine

/-! ## Carrying a stop along -/

/-- Go on with the value of `r`, or stop as `r` stops. -/
def andThen {α β : Type} (r : Res α) (k : α → Res β) : Res β :=
  match r with
  | .next a => k a
  | .fault f => .fault f
  | .refused e => .refused e

/-- `raise StructuralError(name)` (R7, R203): the tick stops here; it yields no next state and sets no
flag (R204). -/
def raiseStructuralError {α : Type} (f : Fault) : Res α := .fault f

/-! ## Registers -/

/-- The word in a register (R7, R10, R12, R13, R16). -/
def State.readReg (s : State) : RegName → Word
  | .gpr i => s.x[i]
  | .sp => s.sp
  | .pc => s.pc
  | .flags => s.flags

/-- Write a word to a register (R7, R10, R12, R13, R16). No register is hardwired (R10). -/
def State.writeReg (s : State) (r : RegName) (v : Word) : State :=
  match r with
  | .gpr i => { s with x := s.x.set i v }
  | .sp => { s with sp := v }
  | .pc => { s with pc := v }
  | .flags => { s with flags := v }

/-- `x[OVF_REG] <- v` (R20, R142). -/
def State.writeOvf (s : State) (v : Word) : State := s.writeReg (.gpr s.ovfReg) v

/-- `u16(z)`: an integer reduced modulo 2^16 (R6). -/
def u16 (z : Int) : Word := BitVec.ofInt 16 z

/-- `pc <- target`, reduced modulo 2^16 (R7, R16). -/
def State.setPc (s : State) (target : Int) : State := { s with pc := u16 target }

/-! ## Bytes of a RAM -/

/-- The byte of a RAM at a unit-local address; one that is not listed reads as 0x00 (log 1). -/
def Memory.read (m : Memory) (a : Nat) : Byte :=
  match m with
  | [] => 0
  | (a', b) :: rest => if a = a' then b else Memory.read rest a

/-- Put a byte in front of a memory, unless it is what an unlisted address reads as. -/
def Memory.put (a : Nat) (b : Byte) (m : Memory) : Memory := if b = 0 then m else (a, b) :: m

/-- Write a byte of a RAM, keeping the canonical form. -/
def Memory.write (m : Memory) (a : Nat) (b : Byte) : Memory :=
  match m with
  | [] => Memory.put a b []
  | (a', b') :: rest =>
    if a < a' then Memory.put a b ((a', b') :: rest)
    else if a = a' then Memory.put a b rest
    else (a', b') :: Memory.write rest a b

/-- The word at a unit-local address: the byte at the lower address is the less significant (R41). -/
def Memory.readWord (m : Memory) (a : Nat) : Word := m.read (a + 1) ++ m.read a

/-- Write both bytes of a word, the less significant at the lower address (R42). -/
def Memory.writeWord (m : Memory) (a : Nat) (v : Word) : Memory :=
  (m.write a (v.extractLsb' 0 8)).write (a + 1) (v.extractLsb' 8 8)

/-! ## Hardware units -/

/-- The number of byte addresses of a unit (R40). -/
def HwUnit.size : HwUnit → Nat
  | .ram size _ => size
  | .peripheral size _ _ => size

/-- The bounds check of a word access at a unit-local address (R43). -/
def HwUnit.inBounds (u : HwUnit) (addr : Int) : Bool :=
  decide (0 ≤ addr ∧ addr + 1 < (u.size : Int))

/-- Replace the unit with a number. -/
def State.setUnit (s : State) (u : Nat) (unit : HwUnit) : State :=
  { s with units := s.units.set u unit }

/-- What a failed read does (R43, R57): it sets SEG and hands over `UNRESOLVED_READ_VALUE`, a fresh
free value (log 3). -/
def State.failRead (s : State) : Word × State :=
  (Config.unresolvedReadValue s.draws, { s.setFlags fSeg with draws := s.draws + 1 })

/-- What a failed write does (R43, R58): it sets SEG and writes nothing. -/
def State.failWrite (s : State) : State := s.setFlags fSeg

/-- `MemRead(u, addr, 2)` (R41, R43). A unit number that names no unit fails the bounds check (log 5);
what a peripheral answers is the platform's (log 6). -/
def State.memRead (s : State) (u : Nat) (addr : Int) : Word × State :=
  match s.units[u]? with
  | none => s.failRead
  | some unit =>
    if unit.inBounds addr then
      match unit with
      | .ram _ mem => (mem.readWord addr.toNat, s)
      | .peripheral size device st =>
        let answer := Config.peripheralRead device st addr.toNat
        (answer.1, s.setUnit u (.peripheral size device answer.2))
    else s.failRead

/-- `MemWrite(u, addr, 2, v)` (R42, R43). -/
def State.memWrite (s : State) (u : Nat) (addr : Int) (v : Word) : State :=
  match s.units[u]? with
  | none => s.failWrite
  | some unit =>
    if unit.inBounds addr then
      match unit with
      | .ram size mem => s.setUnit u (.ram size (mem.writeWord addr.toNat v))
      | .peripheral size device st =>
        s.setUnit u (.peripheral size device (Config.peripheralWrite device st addr.toNat v))
    else s.failWrite

/-- The byte of RAM unit `u` at a unit-local address; `none` where there is no RAM byte. -/
def State.byteAt (s : State) (u a : Nat) : Option Byte :=
  match s.units[u]? with
  | some (.ram size mem) => if a < size then some (mem.read a) else none
  | some (.peripheral _ _ _) => none
  | none => none

end Sys2Proof.Machine
end

