-- ==== Sys2Proof/Machine/Operands.lean ====
section
/-! DEFINITION. Operands: the value and the address of a Parameter (R47 to R49), the Memory Locator
(R50 to R56), and the accesses `rd` and `wr` (R57, R58) with the checks every instruction makes first
(R73, R205). -/

namespace Sys2Proof.Machine

/-! ## Value and address (R47 to R49) -/

/-- One operator of a relative location, on mathematical integers without wrap-around (R49). -/
def RelOp.apply : RelOp → Int → Int → Int
  | .add, acc, v => acc + v
  | .sub, acc, v => acc - v

mutual

/-- `value(P)` (R47): the value of a Parameter without dereference; for a MemoryLocation it is the
location's address, so no memory is touched. -/
def value (s : State) : Param → Res Int
  | .const c => .next c.toNat
  | .reg r => .next (s.readReg r).toNat
  | .regRef _ => raiseStructuralError .unresolvedReference
  | .memC a => .next a
  | .memAbs q => value s q
  | .memRel t0 rest => andThen (value s t0) fun acc => foldTerms s acc rest

/-- The left-to-right fold of a relative location over its remaining terms (R49). -/
def foldTerms (s : State) (acc : Int) : RelTail → Res Int
  | .nil => .next acc
  | .cons op t rest => andThen (value s t) fun v => foldTerms s (RelOp.apply op acc v) rest

end

/-- `address(M)` of a MemoryLocation (R48), a mathematical integer: it is the location's value (R47). -/
def address (s : State) (p : Param) : Res Int := value s p

/-! ## The locator (R50 to R56) -/

/-- Whether a registrant with this offset and validator accepts a raw address (R50, R51). -/
def Validator.accepts (v : Validator) (offset : Word) (a : Int) : Bool :=
  match v with
  | .range size => decide ((offset.toNat : Int) ≤ a ∧ a + 1 < (offset.toNat : Int) + size)
  | .custom id => Config.customValidator id a

/-- The two kinds of data access (R40). -/
inductive Access
  | read
  | write
deriving DecidableEq, Repr

/-- Capability enforcement (R54). -/
def Capability.permits : Capability → Access → Bool
  | .readWrite, _ => true
  | .readOnly, .read => true
  | .readOnly, .write => false
  | .writeOnly, .read => false
  | .writeOnly, .write => true

/-- What a registrant leads to (R50). -/
inductive Target
  | unit (u : Nat)
  | child (n : Node)
deriving DecidableEq, Repr

/-- One registrant of a node (R50). -/
structure Registrant where
  offset : Word
  validator : Validator
  cap : Capability
  target : Target
deriving DecidableEq, Repr

/-- The registrants of a node. -/
def Node.registrants : Node → List Registrant
  | .empty => []
  | .unitReg o v c u rest => ⟨o, v, c, .unit u⟩ :: rest.registrants
  | .childReg o v c ch rest => ⟨o, v, c, .child ch⟩ :: rest.registrants

/-- Whether a registrant accepts a raw address (R50). -/
def Registrant.accepts (g : Registrant) (a : Int) : Bool := g.validator.accepts g.offset a

/-- The registrants of a node that accept an address: the `M` of R52 step 2. -/
def Node.acceptors (n : Node) (a : Int) : List Registrant :=
  n.registrants.filter fun g => g.accepts a

/-- What `locate` returns (R52): a Constant, a Register, a RegisterReference passed through, a
ResolvedMemory with its registrant and the translated address, or an UnresolvedMemory. -/
inductive Accessor
  | const (c : Word)
  | reg (r : RegName)
  | regRef (name : String)
  | resolved (g : Registrant) (a : Int)
  | unresolved
deriving DecidableEq, Repr

/-- `locate` of an address at a node (R52 steps 2 to 5): ambiguity sets MULTISTATE at once, absence
sets no flag yet (R55). -/
def locateAt (n : Node) (a : Int) (s : State) : Accessor × State :=
  match n.acceptors a with
  | [] => (.unresolved, s)
  | [g] => (.resolved g (a - (g.offset.toNat : Int)), s)
  | _ :: _ :: _ => (.unresolved, s.setFlags fMultistate)

/-- `locate(N, P)` (R52). -/
def locate (n : Node) (p : Param) (s : State) : Res (Accessor × State) :=
  match p with
  | .const c => .next (.const c, s)
  | .reg r => .next (.reg r, s)
  | .regRef name => .next (.regRef name, s)
  | .memC a => andThen (address s (.memC a)) fun a => .next (locateAt n a s)
  | .memAbs q => andThen (address s (.memAbs q)) fun a => .next (locateAt n a s)
  | .memRel t0 rest => andThen (address s (.memRel t0 rest)) fun a => .next (locateAt n a s)

/-- `locate(P)`: every operand is located at ROOT (R56). -/
def locateRoot (p : Param) (s : State) : Res (Accessor × State) := locate s.map p s

/-! ## Accesses (R53, R54, R57, R58) -/

/-- Where an access ends: at a unit-local address of a hardware unit, or nowhere; then `multistate`
says whether it met an ambiguity on the way down (R53). -/
inductive Route
  | hit (unit : Nat) (addr : Int)
  | miss (multistate : Bool)
deriving DecidableEq, Repr

/-- The number of registrants of a node that accept an address. -/
def Node.count (n : Node) (a : Int) : Nat :=
  match n with
  | .empty => 0
  | .unitReg o v _ _ rest => (if v.accepts o a then 1 else 0) + rest.count a
  | .childReg o v _ _ rest => (if v.accepts o a then 1 else 0) + rest.count a

/-- Where an access leads through the first registrant that accepts the address: its capability is
checked, then its unit is reached, or its child node resolves the translated address in the same way
(R53, R54). Used where exactly one registrant accepts. -/
def Node.descend (k : Access) (n : Node) (a : Int) : Route :=
  match n with
  | .empty => .miss false
  | .unitReg o v c u rest =>
    if v.accepts o a then
      if c.permits k then .hit u (a - (o.toNat : Int)) else .miss false
    else rest.descend k a
  | .childReg o v c ch rest =>
    if v.accepts o a then
      if c.permits k then
        match ch.count (a - (o.toNat : Int)) with
        | 0 => .miss false
        | 1 => ch.descend k (a - (o.toNat : Int))
        | _ + 2 => .miss true
      else .miss false
    else rest.descend k a

/-- Where an access to an address ends when it is located at a node and then made (R52 to R54). -/
def Node.route (k : Access) (n : Node) (a : Int) : Route :=
  match n.count a with
  | 0 => .miss false
  | 1 => n.descend k a
  | _ + 2 => .miss true

/-- Where an access through a ResolvedMemory ends (R53, R54, R57, R58). -/
def Registrant.route (g : Registrant) (k : Access) (a : Int) : Route :=
  if g.cap.permits k then
    match g.target with
    | .unit u => .hit u a
    | .child ch => ch.route k a
  else .miss false

/-- MULTISTATE, where an ambiguity was met on the way down (R53). -/
def State.noteAmbiguity (s : State) (multistate : Bool) : State :=
  if multistate then s.setFlags fMultistate else s

/-- A read that ends where `r` says (R57). -/
def readRoute (r : Route) (s : State) : Word × State :=
  match r with
  | .hit u addr => s.memRead u addr
  | .miss m => (s.noteAmbiguity m).failRead

/-- A write that ends where `r` says (R58). -/
def writeRoute (r : Route) (v : Word) (s : State) : State :=
  match r with
  | .hit u addr => s.memWrite u addr v
  | .miss m => (s.noteAmbiguity m).failWrite

/-- `rd(A)` (R57): a failed read sets SEG and the instruction goes on with a free value. -/
def rd (A : Accessor) (s : State) : Res (Word × State) :=
  match A with
  | .const c => .next (c, s)
  | .reg r => .next (s.readReg r, s)
  | .regRef _ => raiseStructuralError .unresolvedReference
  | .resolved g a => .next (readRoute (g.route .read a) s)
  | .unresolved => .next s.failRead

/-- `wr(A, v)` (R58): a failed write sets SEG and stores nothing. -/
def wr (A : Accessor) (v : Word) (s : State) : Res State :=
  match A with
  | .const _ => raiseStructuralError .notWritable
  | .reg r => .next (s.writeReg r v)
  | .regRef _ => raiseStructuralError .unresolvedReference
  | .resolved g a => .next (writeRoute (g.route .write a) v s)
  | .unresolved => .next s.failWrite

/-! ## The checks that come first (R73, R110 step 1, R205) -/

/-- The shape check: an instruction whose operands R73 does not give it is refused. -/
def checkShape (i : Instr) (k : Res State) : Res State :=
  match i.shapeError? with
  | some e => .refused (.illFormedRecord e)
  | none => k

/-- The capability check of a destination: a Constant stops with NotWritable, before any state is
touched (R205). -/
def checkWritable (p1 : Param) (k : Res State) : Res State :=
  if p1.isConst then raiseStructuralError .notWritable else k

end Sys2Proof.Machine
end

