-- ==== Sys2Proof/Machine/Branch.lean ====
section
/-! DEFINITION. The branch family of the fetch/branch unit and the default no-op (R180 to R190). -/

namespace Sys2Proof.Machine

/-- What a branch does whose condition is `taken` (R181): taken, `pc <- u16(target - 1)`, with the
target evaluated only then; not taken, nothing. -/
def branch (taken : Bool) (p1 : Param) (s : State) : Res State :=
  if taken then andThen (value s p1) fun target => .next (s.setPc (target - 1))
  else .next s

/-- `jmp p1` (R182). -/
def execJmp (p1 : Param) (s : State) : Res State :=
  checkShape (.jmp p1) <| branch true p1 s

/-- `jeq p1` (R183). -/
def execJeq (p1 : Param) (s : State) : Res State :=
  checkShape (.jeq p1) <| branch (s.isSet fEqual) p1 s

/-- `jne p1` (R184). -/
def execJne (p1 : Param) (s : State) : Res State :=
  checkShape (.jne p1) <| branch (!s.isSet fEqual) p1 s

/-- `jlt p1` (R185). -/
def execJlt (p1 : Param) (s : State) : Res State :=
  checkShape (.jlt p1) <| branch (s.isSet fLess && !s.isSet fEqual) p1 s

/-- `jle p1` (R186). -/
def execJle (p1 : Param) (s : State) : Res State :=
  checkShape (.jle p1) <| branch (s.isSet fLess || s.isSet fEqual) p1 s

/-- `jgt p1` (R187). -/
def execJgt (p1 : Param) (s : State) : Res State :=
  checkShape (.jgt p1) <| branch (!s.isSet fLess && !s.isSet fEqual) p1 s

/-- `jge p1` (R188). -/
def execJge (p1 : Param) (s : State) : Res State :=
  checkShape (.jge p1) <| branch (!s.isSet fLess || s.isSet fEqual) p1 s

/-- `nop` (R189): no unit accepts it, so it does nothing; the tick that fetched it has set ILLEGAL
before (R101). -/
def execNop (s : State) : Res State := .next s

end Sys2Proof.Machine
end

