-- ==== Sys2Proof/Machine/Alu.lean ====
section
/-! DEFINITION. The ALU: what its kinds share (R110, R140), the overflow-tracked shape and its six
instructions (R142 to R151), the non-overflow shape and its six instructions (R160 to R167, R169), and
the compare (R168). -/

namespace Sys2Proof.Machine

/-! ## The wide result (R6, R142) -/

/-- `wide32(z)`: an integer reduced to its 32-bit two's-complement pattern (R6). -/
def wide32 (z : Int) : BitVec 32 := BitVec.ofInt 32 z

/-- `lo16(z)`: the low half of the wide pattern (R6). -/
def lo16 (z : Int) : Word := (wide32 z).extractLsb' 0 16

/-- `hi16(z)`: the high half of the wide pattern, the overflow word (R6, R142). -/
def hi16 (z : Int) : Word := (wide32 z).extractLsb' 16 16

/-- A remainder packed above a quotient by masked composition, not by addition (R148, R149). -/
def packWide (r q : Int) : Int := ((u16 r ++ u16 q : BitVec 32).toNat : Int)

/-- `W` of `add`: operands read as unsigned (R144). -/
def wideAdd (a b : Word) : Int := (a.toNat : Int) + (b.toNat : Int)

/-- `W` of `sub`: operands read as unsigned (R145). -/
def wideSub (a b : Word) : Int := (a.toNat : Int) - (b.toNat : Int)

/-- `W` of `umul` (R146). -/
def wideUmul (a b : Word) : Int := (a.toNat : Int) * (b.toNat : Int)

/-- `W` of `smul`: operands reinterpreted as signed (R147). -/
def wideSmul (a b : Word) : Int := sext16 a * sext16 b

/-- `W` of `udiv` for a nonzero divisor: quotient below remainder (R148). -/
def wideUdiv (a b : Word) : Int :=
  let q : Int := ((a.toNat / b.toNat : Nat) : Int)
  packWide ((a.toNat : Int) - q * (b.toNat : Int)) q

/-- `W` of `sdiv` for a nonzero divisor: the quotient truncates toward zero and the remainder has the
sign of the dividend (R6, R149; log 18 for a negative divisor). -/
def wideSdiv (a b : Word) : Int :=
  let q : Int := (sext16 a).tdiv (sext16 b)
  packWide (sext16 a - q * sext16 b) q

/-! ## What every ALU kind does first (R110, R140) -/

/-- The two accessors and words of an ALU instruction, and the state after reading them. -/
structure Operands where
  A : Accessor
  a : Word
  b : Word
  s : State

/-- Locate parameter-1, then parameter-2; read parameter-1, then parameter-2 (R110 steps 2 and 3,
R140). -/
def readOperands (p1 p2 : Param) (s : State) : Res Operands :=
  andThen (locateRoot p1 s) fun A =>
  andThen (locateRoot p2 A.2) fun B =>
  andThen (rd A.1 B.2) fun a =>
  andThen (rd B.1 a.2) fun b =>
  .next ⟨A.1, a.1, b.1, b.2⟩

/-! ## Overflow-tracked instructions (R142 to R151) -/

/-- The overflow-tracked shape (R142): the low half to the destination, then the high half to
`x[OVF_REG]`, then the flags, whether or not the write of the destination landed (R206). -/
def overflowTracked (A : Accessor) (W : Int) (s : State) : Res State :=
  andThen (wr A (lo16 W) s) fun s' =>
  .next ((s'.writeOvf (hi16 W)).setFlags (trackedFlags (lo16 W) (hi16 W)))

/-- An overflow-tracked instruction whose wide result is `W a b` (R140, R142). -/
def trackedOp (W : Word → Word → Int) (p1 p2 : Param) (s : State) : Res State :=
  checkWritable p1 <|
  andThen (readOperands p1 p2 s) fun o =>
  overflowTracked o.A (W o.a o.b) o.s

/-- A division whose wide result is `W a b`: a zero divisor, tested after the reads, sets DIV_ZERO and
ends the instruction (R143). -/
def divideOp (W : Word → Word → Int) (p1 p2 : Param) (s : State) : Res State :=
  checkWritable p1 <|
  andThen (readOperands p1 p2 s) fun o =>
  if o.b = 0 then .next (o.s.setFlags fDivZero)
  else overflowTracked o.A (W o.a o.b) o.s

/-- `add p1, p2` (R144). -/
def execAdd (p1 p2 : Param) (s : State) : Res State :=
  checkShape (.add p1 p2) <| trackedOp wideAdd p1 p2 s

/-- `sub p1, p2` (R145). -/
def execSub (p1 p2 : Param) (s : State) : Res State :=
  checkShape (.sub p1 p2) <| trackedOp wideSub p1 p2 s

/-- `umul p1, p2` (R146). -/
def execUmul (p1 p2 : Param) (s : State) : Res State :=
  checkShape (.umul p1 p2) <| trackedOp wideUmul p1 p2 s

/-- `smul p1, p2` (R147). -/
def execSmul (p1 p2 : Param) (s : State) : Res State :=
  checkShape (.smul p1 p2) <| trackedOp wideSmul p1 p2 s

/-- `udiv p1, p2` (R143, R148). -/
def execUdiv (p1 p2 : Param) (s : State) : Res State :=
  checkShape (.udiv p1 p2) <| divideOp wideUdiv p1 p2 s

/-- `sdiv p1, p2` (R143, R149). -/
def execSdiv (p1 p2 : Param) (s : State) : Res State :=
  checkShape (.sdiv p1 p2) <| divideOp wideSdiv p1 p2 s

/-! ## Non-overflow instructions (R160 to R167, R169) -/

/-- The non-overflow shape (R162): the word to the destination, then ZERO if the word is zero. -/
def nonOverflow (A : Accessor) (v : Word) (s : State) : Res State :=
  andThen (wr A v s) fun s' => .next (s'.setFlags (plainFlags v))

/-- A non-overflow instruction whose result is `f a b` (R140, R162). -/
def plainOp (f : Word → Word → Word) (p1 p2 : Param) (s : State) : Res State :=
  checkWritable p1 <|
  andThen (readOperands p1 p2 s) fun o =>
  nonOverflow o.A (f o.a o.b) o.s

/-- `SHIFT_GE16`: the result of a shift by 16 or more (R5, R166, R169; log 15). -/
def shiftGe16 : Word := 0x0000

/-- The result of `shl` (R166): the whole count is used; shifted-out bits are lost. -/
def shiftLeft (a b : Word) : Word := if b.toNat < 16 then a <<< b.toNat else shiftGe16

/-- The result of `shr` (R169): zeros enter at bit 15 (log 15). -/
def shiftRight (a b : Word) : Word := if b.toNat < 16 then a >>> b.toNat else shiftGe16

/-- `and p1, p2` (R163). -/
def execAnd (p1 p2 : Param) (s : State) : Res State :=
  checkShape (.and p1 p2) <| plainOp (fun a b => a &&& b) p1 p2 s

/-- `or p1, p2` (R164). -/
def execOr (p1 p2 : Param) (s : State) : Res State :=
  checkShape (.or p1 p2) <| plainOp (fun a b => a ||| b) p1 p2 s

/-- `xor p1, p2` (R165). -/
def execXor (p1 p2 : Param) (s : State) : Res State :=
  checkShape (.xor p1 p2) <| plainOp (fun a b => a ^^^ b) p1 p2 s

/-- `shl p1, p2` (R166). -/
def execShl (p1 p2 : Param) (s : State) : Res State :=
  checkShape (.shl p1 p2) <| plainOp shiftLeft p1 p2 s

/-- `shr p1, p2` (R169). -/
def execShr (p1 p2 : Param) (s : State) : Res State :=
  checkShape (.shr p1 p2) <| plainOp shiftRight p1 p2 s

/-- The ignored second parameter of `not`: located where it is present, never read (R167). -/
def locateIgnored (p2 : Option Param) (s : State) : Res State :=
  match p2 with
  | none => .next s
  | some p => andThen (locateRoot p s) fun B => .next B.2

/-- `not p1` or `not p1, p2` (R167). -/
def execNot (p1 : Param) (p2 : Option Param) (s : State) : Res State :=
  checkShape (.not p1 p2) <|
  checkWritable p1 <|
  andThen (locateRoot p1 s) fun A =>
  andThen (locateIgnored p2 A.2) fun s =>
  andThen (rd A.1 s) fun a =>
  nonOverflow A.1 (a.1 ^^^ 0xFFFF) a.2

/-! ## Compare (R168) -/

/-- `cmp p1, p2` (R168): EQUAL and LESS are cleared, then at most one of them is set. -/
def execCmp (p1 p2 : Param) (s : State) : Res State :=
  checkShape (.cmp p1 p2) <|
  andThen (readOperands p1 p2 s) fun o =>
  .next ((o.s.unsetFlags cmpClearMask).setFlags (compareFlags o.a o.b))

end Sys2Proof.Machine
end

