-- ==== Sys2Proof/Machine/Routing.lean ====
section
/-! DEFINITION. How the dispatcher forwards an instruction to the units of the registry (R105, R107), and
how the MMU issues an instruction through it (R108). -/

namespace Sys2Proof.Machine

/-- Forward to each of the units, in order (log 30); a unit that stops ends it (R105, R203). -/
def forwardTo (execute : ExecUnit → State → Res State) (units : List ExecUnit) (s : State) :
    Res State :=
  match units with
  | [] => .next s
  | u :: rest => andThen (execute u s) fun s' => forwardTo execute rest s'

/-- A unit's `execute`, `run` being what the instruction does: a kind outside the unit's family is a
structural error (R107). -/
def executeAt (u : ExecUnit) (i : Instr) (run : State → Res State) (s : State) : Res State :=
  if i.kind ∈ u.family then run s else raiseStructuralError .unsupportedInstruction

/-- `dispatch(I)`, `run` being what the instruction does (R105): it is forwarded to every unit whose
filter accepts it, and dropped without any effect if there is none. -/
def dispatchRun (i : Instr) (run : State → Res State) (s : State) : Res State :=
  forwardTo (fun u => executeAt u i run) (s.registry.units i) s

end Sys2Proof.Machine
end

