-- ==== Sys2Proof/Machine/MemoryMove.lean ====
section
/-! DEFINITION. The memory-move family of the MMU: `mov`, `push` and `pop` (R120 to R128). -/

namespace Sys2Proof.Machine

/-- `[sp]`: the location addressed by the stack pointer (R124, R126). -/
def stackHead : Param := .memAbs (.reg .sp)

/-- The `add sp, 2` that `push` issues: re-dispatched through the registry, with all the effects of an
`add` (R108, R124). -/
def issueAdd (s : State) : Res State :=
  dispatchRun (.add (.reg .sp) (.const 2)) (execAdd (.reg .sp) (.const 2)) s

/-- The `sub sp, 2` that `pop` issues (R108, R126). -/
def issueSub (s : State) : Res State :=
  dispatchRun (.sub (.reg .sp) (.const 2)) (execSub (.reg .sp) (.const 2)) s

/-- `mov p1, p2` (R122): no flag of its own. -/
def execMov (p1 p2 : Param) (s : State) : Res State :=
  checkShape (.mov p1 p2) <|
  checkWritable p1 <|
  andThen (locateRoot p1 s) fun D =>
  andThen (locateRoot p2 D.2) fun S =>
  andThen (rd S.1 S.2) fun v =>
  wr D.1 v.1 v.2

/-- `push p1` (R124): store at `[sp]`, then issue `add sp, 2` with all its effects (R108), whether or
not the store landed. -/
def execPush (p1 : Param) (s : State) : Res State :=
  checkShape (.push p1) <|
  andThen (locateRoot p1 s) fun V =>
  andThen (rd V.1 V.2) fun v =>
  andThen (locateRoot stackHead v.2) fun L =>
  andThen (wr L.1 v.1 L.2) fun s' =>
  issueAdd s'

/-- The copy that ends a `pop` with a destination (R126): both locations are evaluated with the new
`sp`. -/
def popCopy (p1 : Param) (s : State) : Res State :=
  andThen (locateRoot stackHead s) fun L =>
  andThen (locateRoot p1 L.2) fun D =>
  andThen (rd L.1 D.2) fun v =>
  wr D.1 v.1 v.2

/-- What `pop` does after its checks (R126): with `sp` below 2 it sets SEG and nothing else; otherwise
it issues `sub sp, 2` (R108) and then copies the word at the stack head to the destination, if
there is one. -/
def popBody (p1 : Option Param) (s : State) : Res State :=
  if s.sp.toNat < 2 then .next (s.setFlags fSeg)
  else
    andThen (issueSub s) fun s' =>
    match p1 with
    | none => .next s'
    | some p => popCopy p s'

/-- `pop p1` or `pop` (R126). -/
def execPop (p1 : Option Param) (s : State) : Res State :=
  checkShape (.pop p1) <|
  match p1 with
  | none => popBody none s
  | some p => checkWritable p <| popBody (some p) s

end Sys2Proof.Machine
end

