-- ==== Sys2Proof/Machine/Dispatch.lean ====
section
/-! DEFINITION. One arm per instruction, each one call of its meaning. -/

namespace Sys2Proof.Machine

def exec (i : Instr) (s : State) : Host.Outcome State Fault Refusal :=
  match i with
  | .mov p1 p2 => Sys2Proof.Machine.execMov p1 p2 s
  | .push p1 => Sys2Proof.Machine.execPush p1 s
  | .pop p1 => Sys2Proof.Machine.execPop p1 s
  | .add p1 p2 => Sys2Proof.Machine.execAdd p1 p2 s
  | .sub p1 p2 => Sys2Proof.Machine.execSub p1 p2 s
  | .umul p1 p2 => Sys2Proof.Machine.execUmul p1 p2 s
  | .smul p1 p2 => Sys2Proof.Machine.execSmul p1 p2 s
  | .udiv p1 p2 => Sys2Proof.Machine.execUdiv p1 p2 s
  | .sdiv p1 p2 => Sys2Proof.Machine.execSdiv p1 p2 s
  | .and p1 p2 => Sys2Proof.Machine.execAnd p1 p2 s
  | .or p1 p2 => Sys2Proof.Machine.execOr p1 p2 s
  | .xor p1 p2 => Sys2Proof.Machine.execXor p1 p2 s
  | .shl p1 p2 => Sys2Proof.Machine.execShl p1 p2 s
  | .shr p1 p2 => Sys2Proof.Machine.execShr p1 p2 s
  | .not p1 p2 => Sys2Proof.Machine.execNot p1 p2 s
  | .cmp p1 p2 => Sys2Proof.Machine.execCmp p1 p2 s
  | .jmp p1 => Sys2Proof.Machine.execJmp p1 s
  | .jeq p1 => Sys2Proof.Machine.execJeq p1 s
  | .jne p1 => Sys2Proof.Machine.execJne p1 s
  | .jlt p1 => Sys2Proof.Machine.execJlt p1 s
  | .jle p1 => Sys2Proof.Machine.execJle p1 s
  | .jgt p1 => Sys2Proof.Machine.execJgt p1 s
  | .jge p1 => Sys2Proof.Machine.execJge p1 s
  | .nop => Sys2Proof.Machine.execNop s

end Sys2Proof.Machine
end

