-- ==== Sys2Proof/Machine/Tick.lean ====
section
/-! DEFINITION. The fetch and the tick (R101 to R103), and how a slot is placed where the next tick
fetches. -/

namespace Sys2Proof.Machine

/-- The instruction in a cell of PROG; a slot or a record that is no instruction is refused (R79,
R81; log 7). -/
def decodeCell : ProgCell → Res Instr
  | .slot S =>
    match decode S with
    | .instr i => .next i
    | .illFormed e => .refused (.illFormedRecord e)
    | .undecodable e => .refused (.undecodableSlot e)
  | .record r =>
    match r.toInstr with
    | .ok i => .next i
    | .error e => .refused (.illFormedRecord e)

/-- `next()` (R102): the instruction at `pc`, or the default no-op when `pc` is out of range. It
changes no state. -/
def fetch (s : State) : Res Instr :=
  match s.prog[s.pc.toNat]? with
  | some cell => decodeCell cell
  | none => .next .nop

/-- Step 2 of the tick (R101): the default no-op sets ILLEGAL, wherever it was fetched from (R82). -/
def noteIllegal (i : Instr) (s : State) : State :=
  if i = .nop then s.setFlags fIllegal else s

/-- Step 4 of the tick: `pc <- u16(pc + 1)` (R16, R101). -/
def advancePc (s : State) : State := s.setPc ((s.pc.toNat : Int) + 1)

/-- `dispatch(I)` (R7, R105): what an accepting unit runs for the instruction is `exec`. -/
def dispatch (i : Instr) (s : State) : Res State := dispatchRun i (exec i) s

/-- `onTick()` (R101): fetch, ILLEGAL check, broadcast to the dispatcher, increment. A structural
error in the broadcast leaves the tick without a next state (R203). -/
def onTick (s : State) : Res State :=
  andThen (fetch s) fun i =>
  andThen (dispatch i (noteIllegal i s)) fun s' =>
  .next (advancePc s')

/-- The slot of the default no-op (R82). -/
def nopSlot : Slot := 0xB800000000000000

/-- A program that holds `S` at index `n` and is otherwise `prog`; indexes that `prog` does not reach
are filled with the default no-op, which is what the fetch returns there (R102; log 12). -/
def placeSlot (prog : List ProgCell) (n : Nat) (S : Slot) : List ProgCell :=
  match prog, n with
  | [], 0 => [.slot S]
  | [], n + 1 => .slot nopSlot :: placeSlot [] n S
  | _ :: rest, 0 => .slot S :: rest
  | cell :: rest, n + 1 => cell :: placeSlot rest n S

end Sys2Proof.Machine
end

