-- ==== Sys2Proof/Machine/Step.lean ====
section
/-! DEFINITION. The step of the machine: one tick (R8, R100, R101). -/

namespace Sys2Proof.Machine

/-- One step is one tick (R100): a next state, a structural error, or a refusal. -/
def step (s : State) : Host.Outcome State Fault Refusal := onTick s

/-- The state with the instruction whose slot has the bits `w` (of which the table gives `nbits`) in
the cell of PROG that the next tick fetches: the program is loaded from outside (R233; log 2). -/
def State.withFetchWord (s : State) (nbits w : Nat) : State :=
  { s with prog := placeSlot s.prog s.pc.toNat (BitVec.ofNat 64 (w % 2 ^ nbits)) }

end Sys2Proof.Machine
end

