-- ==== Sys2Proof/Machine/Clean.lean ====
section
/-! DEFINITION. Clean operands: the word an operand reads as and the place a destination names when the
access meets no condition (no SEG, no MULTISTATE, no peripheral). The meanings do not use them; claims
state results with them. -/

namespace Sys2Proof.Machine

/-- The word that RAM unit `u` holds at a unit-local address, if the word lies inside it. -/
def State.ramWord? (s : State) (u : Nat) (addr : Int) : Option Word :=
  match s.units[u]? with
  | some (.ram size mem) =>
    if (HwUnit.ram size mem).inBounds addr then some (mem.readWord addr.toNat) else none
  | some (.peripheral _ _ _) => none
  | none => none

/-- The word that an operand reads as, when reading it meets no condition: a Constant, a Register, or
a word of a RAM that the locator reaches (R47, R57). -/
def State.operand? (s : State) (p : Param) : Option Word :=
  match p with
  | .const c => some c
  | .reg r => some (s.readReg r)
  | .regRef _ => none
  | .memC _ | .memAbs _ | .memRel _ _ =>
    match address s p with
    | .next a =>
      match s.map.route .read a with
      | .hit u addr => s.ramWord? u addr
      | .miss _ => none
    | .fault _ => none
    | .refused _ => none

/-- A place that a word can be stored in without any condition: a register, or a word of a RAM. -/
inductive Place
  | reg (r : RegName)
  | ram (unit addr : Nat)
deriving DecidableEq, Repr

/-- The place that a destination operand names, when writing it meets no condition (R58). -/
def State.place? (s : State) (p : Param) : Option Place :=
  match p with
  | .const _ => none
  | .reg r => some (.reg r)
  | .regRef _ => none
  | .memC _ | .memAbs _ | .memRel _ _ =>
    match address s p with
    | .next a =>
      match s.map.route .write a with
      | .hit u addr => if (s.ramWord? u addr).isSome then some (.ram u addr.toNat) else none
      | .miss _ => none
    | .fault _ => none
    | .refused _ => none

/-- Store a word in a place: a register, or the two bytes of a RAM word (R42, R58). -/
def State.store (s : State) (d : Place) (v : Word) : State :=
  match d with
  | .reg r => s.writeReg r v
  | .ram u addr => s.memWrite u (addr : Int) v

end Sys2Proof.Machine
end

