-- ==== Sys2Proof/Machine/Linker.lean ====
section
/-! DEFINITION. Building relative locations (R49), linking symbolic names (R34), and the loader (R81):
what the host does with a program before the first tick. -/

namespace Sys2Proof.Machine

/-! ## Construction of a relative location (R49) -/

/-- The (operator, term) pairs of a relative location, when there are as many of the one as of the
other. -/
def relTail : List RelOp → List Param → Option RelTail
  | [], [] => some .nil
  | op :: ops, t :: ts => (relTail ops ts).map (RelTail.cons op t)
  | [], _ :: _ => none
  | _ :: _, [] => none

/-- Construction of a RelativeMemoryLocation: it fails with MalformedExpression unless the number of
parameters is the number of operators plus one (R49). -/
def mkRelative (terms : List Param) (ops : List RelOp) : Res Param :=
  match terms with
  | [] => raiseStructuralError .malformedExpression
  | t0 :: ts =>
    match relTail ops ts with
    | some rest => .next (.memRel t0 rest)
    | none => raiseStructuralError .malformedExpression

/-! ## Linking (R34) -/

/-- A name→Register map. -/
abbrev NameMap := List (String × RegName)

/-- The map of the dispatcher: it holds exactly `r0..r7` and `sp` (R18). -/
def dispatcherNames : NameMap :=
  [("r0", .gpr 0), ("r1", .gpr 1), ("r2", .gpr 2), ("r3", .gpr 3), ("r4", .gpr 4), ("r5", .gpr 5),
   ("r6", .gpr 6), ("r7", .gpr 7), ("sp", .sp)]

/-- The register a map gives for a name. -/
def NameMap.find (m : NameMap) (name : String) : Option RegName :=
  match m with
  | [] => none
  | (n, r) :: rest => if n = name then some r else NameMap.find rest name

mutual

/-- A Parameter with every RegisterReference replaced by the Register the map gives for its name; an
unmapped name fails with UndefinedReference (R34). -/
def linkParam (m : NameMap) (line : Nat) : Param → Res Param
  | .const c => .next (.const c)
  | .reg r => .next (.reg r)
  | .regRef name =>
    match m.find name with
    | some r => .next (.reg r)
    | none => raiseStructuralError (.undefinedReference name line)
  | .memC a => .next (.memC a)
  | .memAbs q => andThen (linkParam m line q) fun q' => .next (.memAbs q')
  | .memRel t0 rest =>
    andThen (linkParam m line t0) fun t0' =>
    andThen (linkTail m line rest) fun rest' => .next (.memRel t0' rest')

/-- `linkParam` for the terms after the first of a relative location. -/
def linkTail (m : NameMap) (line : Nat) : RelTail → Res RelTail
  | .nil => .next .nil
  | .cons op t rest =>
    andThen (linkParam m line t) fun t' =>
    andThen (linkTail m line rest) fun rest' => .next (.cons op t' rest')

end

/-- Link a parameter that may be absent. -/
def linkOption (m : NameMap) (line : Nat) : Option Param → Res (Option Param)
  | none => .next none
  | some p => andThen (linkParam m line p) fun p' => .next (some p')

/-- Link one cell: a slot names a register by selector, so there is nothing to do (R34). -/
def linkCell (m : NameMap) (line : Nat) : ProgCell → Res ProgCell
  | .slot S => .next (.slot S)
  | .record r =>
    andThen (linkOption m line r.p1) fun p1 =>
    andThen (linkOption m line r.p2) fun p2 => .next (.record ⟨r.kind, p1, p2⟩)

/-- Link the cells from index `line` on (log 13). Where several names are unmapped, the error names the
first one: the lower index first, parameter-1 before parameter-2, and the terms of a location from
left to right. DESIGN CHOICE, the spec leaves the choice open (log 28). -/
def linkFrom (m : NameMap) (line : Nat) : List ProgCell → Res (List ProgCell)
  | [] => .next []
  | cell :: rest =>
    andThen (linkCell m line cell) fun cell' =>
    andThen (linkFrom m (line + 1) rest) fun rest' => .next (cell' :: rest')

/-- `resolveReferences(instructions, nameToRegister)` (R34); which unmapped name it reports: log 28. -/
def resolveReferences (prog : List ProgCell) (m : NameMap) : Res (List ProgCell) := linkFrom m 0 prog

end Sys2Proof.Machine
end

