-- ==== Sys2Proof/Machine/HostPort.lean ====
section
/-! DEFINITION. The host's transactions (R30 to R36): launch, tick, reset, the register and flag
accessors and the memory probes. They are total functions of the state; the host makes one at a time,
between ticks (R36; log 22). -/

namespace Sys2Proof.Machine

/-! ## Launch (R233) -/

/-- Every cell is a well-formed instruction (R81). -/
def checkCells : List ProgCell → Res Unit
  | [] => .next ()
  | cell :: rest => andThen (decodeCell cell) fun _ => checkCells rest

/-- The loader (R81): it rejects a program that is too long (R21) or holds a cell that is no
well-formed instruction, and otherwise hands the sequence to the fetch unit (R34). -/
def loadProgram (prog : List ProgCell) (s : State) : Res State :=
  if 65536 < prog.length then .refused .programTooLong
  else andThen (checkCells prog) fun _ => .next { s with prog := prog }

/-- Linking of the loaded program (R34, R233 step 4). The linked sequence passes the loader's checks
again: it can fail them only where the map gives `pc` or FLAGS for a name (R18; log 24). -/
def linkProgram (names : NameMap) (s : State) : Res State :=
  andThen (resolveReferences s.prog names) fun linked => loadProgram linked s

/-- A platform: the configuration that the host fixes before it loads a program (R26, R233 steps 1
and 2). -/
structure Platform where
  map : Node
  units : List HwUnit
  registry : Registry
  ovfReg : Fin 8
deriving DecidableEq, Repr

/-- The hardware block of the spec: DEFAULT_MAP, WIRING and OVF_REG (R5, R60, R106). -/
def defaultPlatform : Platform where
  map := defaultMap
  units := defaultUnits
  registry := wiring
  ovfReg := defaultOvfReg

/-- A platform after power-on reset (R230), its tree built and its dispatcher wired (R233 steps 1
and 2). -/
def Platform.powerOn (p : Platform) : State :=
  { State.reset with
    map := p.map
    units := p.units
    registry := p.registry
    ovfReg := p.ovfReg }

/-- The launch of a platform, in the order of R233: the tree and the wiring (steps 1 and 2), then the
load of the program (step 3), then its linking (step 4). Data and registers (step 5) are the host's
moves. -/
def launch (p : Platform) (names : NameMap) (prog : List ProgCell) : Res State :=
  andThen (loadProgram prog p.powerOn) (linkProgram names)

/-! ## Queries that change nothing -/

/-- The host reads a register (R32). -/
def hostReadReg (s : State) (r : RegName) : Word := s.readReg r

/-- The host tests flags (R14, R32). -/
def hostIsSet (s : State) (m : Word) : Bool := s.isSet m

/-- The host asks which instruction the next tick will execute (R102). -/
def hostNext (s : State) : Res Instr := fetch s

/-! ## Transactions -/

/-- The fetch unit's `reset()`: `pc <- 0` and nothing else (R31, R231). -/
def hostReset (s : State) : State := s.setPc 0

/-- The host writes a register: a value outside `0..0xFFFF` is rejected with ValueOutOfRange (R11,
R32). -/
def hostWriteReg (s : State) (r : RegName) (v : Int) : Res State :=
  if 0 ≤ v ∧ v ≤ 0xFFFF then .next (s.writeReg r (u16 v))
  else raiseStructuralError .valueOutOfRange

/-- The host reads the word at a data address through `locate` at ROOT, with the flag effects of an
instruction's access (R33). -/
def hostReadMem (s : State) (a : Int) : Res (Word × State) :=
  andThen (locateRoot (.memC a) s) fun A => rd A.1 A.2

/-- The host writes the word at a data address through `locate` at ROOT (R33). -/
def hostWriteMem (s : State) (a : Int) (v : Word) : Res State :=
  andThen (locateRoot (.memC a) s) fun A => wr A.1 v A.2

/-- The host's moves between and at ticks (R30 to R33). Loading a program or changing the
configuration is no move once ticks have begun (R26, R249, U25). -/
inductive HostMove
  | tick
  | reset
  | writeReg (r : RegName) (v : Int)
  | setFlags (m : Word)
  | unsetFlags (m : Word)
  | clearFlags
  | readMem (a : Int)
  | writeMem (a : Int) (v : Word)
deriving DecidableEq, Repr

/-- What a host's move comes to: it is done; it is rejected and the state stays as it was (R11, U3);
or it stops with nothing defined afterwards (R203). -/
inductive HostReply
  | done (s : State)
  | rejected (f : Fault) (s : State)
  | stopped (f : Fault)
  | refused (r : Refusal)
deriving DecidableEq, Repr

/-- The reply to a transaction that leaves nothing defined when it stops. -/
def HostReply.ofRes (r : Res State) : HostReply :=
  match r with
  | .next s => .done s
  | .fault f => .stopped f
  | .refused e => .refused e

/-- One move of the host. -/
def hostMove (m : HostMove) (s : State) : HostReply :=
  match m with
  | .tick => .ofRes (step s)
  | .reset => .done (hostReset s)
  | .writeReg r v =>
    match hostWriteReg s r v with
    | .next s' => .done s'
    | .fault f => .rejected f s
    | .refused e => .refused e
  | .setFlags m => .done (s.setFlags m)
  | .unsetFlags m => .done (s.unsetFlags m)
  | .clearFlags => .done s.clearFlags
  | .readMem a => .ofRes (andThen (hostReadMem s a) fun r => .next r.2)
  | .writeMem a v => .ofRes (hostWriteMem s a v)

end Sys2Proof.Machine
end

