-- ==== Sys2Proof/Safety.lean ====
section
/-! DEFINITION. The terms that claims use: the invariant of the state, well-formed maps, programs that
never stop, the end of a run, what linking replaces, and what a frame leaves alone. -/

namespace Sys2Proof.Machine

/-! ## The invariant -/

/-- A RAM holds its bytes in canonical form and none outside its size (R23, R40). -/
def HwUnit.wf : HwUnit → Bool
  | .ram size mem => mem.wf && mem.all fun cell => decide (cell.1 < size)
  | .peripheral _ _ _ => true

/-- The invariant of every state: well-formed units, and a program that a 16-bit `pc` can index
(R21, R23). -/
structure State.Inv (s : State) : Prop where
  units_wf : ∀ u ∈ s.units, u.wf = true
  prog_len : s.prog.length ≤ 65536

/-- EQUAL and LESS are not both set (R168). -/
def State.CompareExclusive (s : State) : Prop := ¬(s.isSet fEqual = true ∧ s.isSet fLess = true)

/-! ## Configuration -/

/-- What of a unit is configuration: its size, and for a peripheral which device it is (R26). -/
def HwUnit.layout : HwUnit → Nat × Option Nat
  | .ram size _ => (size, none)
  | .peripheral size device _ => (size, some device)

/-- Two states of one machine: the same program, map, units, registry and overflow register (R26). -/
structure State.SameConfig (s t : State) : Prop where
  prog : t.prog = s.prog
  map : t.map = s.map
  layout : t.units.map HwUnit.layout = s.units.map HwUnit.layout
  registry : t.registry = s.registry
  ovfReg : t.ovfReg = s.ovfReg

/-- The units of R106 whose family holds a kind: one unit for each of the 23 kinds, none for `nop`. -/
def Kind.familyUnits (k : Kind) : List ExecUnit :=
  [ExecUnit.mmu, .alu, .ipu].filter fun u => decide (k ∈ u.family)

/-- The registry routes as the wiring of R106 does: every instruction to the unit of its family, once,
and `nop` to no unit. -/
def State.Wired (s : State) : Prop := ∀ i : Instr, s.registry.units i = Kind.familyUnits i.kind

/-- No filter is wider than its unit's family, so no unit is handed a foreign kind (R107). -/
def Registry.Proper (reg : Registry) : Prop := ∀ i : Instr, ∀ u ∈ reg.units i, i.kind ∈ u.family

/-- A unit target is well-formed at an offset: what its validator accepts translates to a word inside
the unit (R67). -/
def unitTargetOk (units : List HwUnit) (v : Validator) (offset : Word) (u : Nat) : Prop :=
  ∃ unit, units[u]? = some unit ∧
    ∀ a : Int, v.accepts offset a = true → unit.inBounds (a - (offset.toNat : Int)) = true

/-- A well-formed map (R67): every unit target of every node is well-formed. -/
def Node.Ok (units : List HwUnit) : Node → Prop
  | .empty => True
  | .unitReg o v _ u rest => unitTargetOk units v o u ∧ rest.Ok units
  | .childReg _ _ _ ch rest => ch.Ok units ∧ rest.Ok units

/-! ## Programs that never stop -/

/-- A cell that never meets a structural error or a refusal: it is a well-formed instruction, linked,
and no writing instruction with a Constant as its destination (R203). -/
def cellSafe (cell : ProgCell) : Bool :=
  match decodeCell cell with
  | .next i => i.linked && i.writable
  | .fault _ => false
  | .refused _ => false

/-- A program free of structural errors (R203). -/
def SafeProgram (prog : List ProgCell) : Prop := ∀ cell ∈ prog, cellSafe cell = true

/-- The program has finished (R104): ILLEGAL is set and `pc` is past the end. -/
def State.Finished (s : State) : Prop := s.isSet fIllegal = true ∧ s.prog.length ≤ s.pc.toNat

/-- A run of `n` ticks from `s` ends in `t`. -/
def RunsTo : Nat → State → State → Prop
  | 0, s, t => s = t
  | n + 1, s, t => ∃ s', step s = .next s' ∧ RunsTo n s' t

/-! ## Linking (R34) -/

mutual

/-- The names of the RegisterReferences inside a Parameter, from left to right. -/
def references : Param → List String
  | .const _ => []
  | .reg _ => []
  | .regRef name => [name]
  | .memC _ => []
  | .memAbs q => references q
  | .memRel t0 rest => references t0 ++ tailReferences rest

/-- `references` for the terms after the first of a relative location. -/
def tailReferences : RelTail → List String
  | .nil => []
  | .cons _ t rest => references t ++ tailReferences rest

end

mutual

/-- A Parameter with each RegisterReference replaced by the Register that a map gives for its name;
everything else stays, a name that the map lacks among it. -/
def withRegisters (m : NameMap) : Param → Param
  | .const c => .const c
  | .reg r => .reg r
  | .regRef name =>
    match m.find name with
    | some r => .reg r
    | none => .regRef name
  | .memC a => .memC a
  | .memAbs q => .memAbs (withRegisters m q)
  | .memRel t0 rest => .memRel (withRegisters m t0) (tailWithRegisters m rest)

/-- `withRegisters` for the terms after the first of a relative location. -/
def tailWithRegisters (m : NameMap) : RelTail → RelTail
  | .nil => .nil
  | .cons op t rest => .cons op (withRegisters m t) (tailWithRegisters m rest)

end

/-- The names that a record holds, parameter-1 first. -/
def recordReferences (r : Record) : List String :=
  (r.p1.toList ++ r.p2.toList).flatMap references

/-! ## Encodings -/

/-- An operand descriptor that R81 reserves: by its fields as R76 and R77 place them, a reserved mode, a
nonzero must-be-zero field, or a reserved selector in a used selector field. -/
def reservedDescriptor (D : BitVec 28) : Prop :=
  let mode := (D.extractLsb' 25 3).toNat
  let reg := (D.extractLsb' 21 4).toNat
  let imm := (D.extractLsb' 0 16).toNat
  6 ≤ mode ∨ D.extractLsb' 16 3 ≠ 0 ∨
  (mode ≠ 5 ∧ (D.extractLsb' 20 1 ≠ 0 ∨ D.extractLsb' 19 1 ≠ 0)) ∨
  ((mode = 0 ∨ mode = 1 ∨ mode = 3) ∧ reg ≠ 0) ∨
  ((mode = 2 ∨ mode = 4 ∨ mode = 5) ∧ 9 ≤ reg) ∨
  ((mode = 0 ∨ mode = 2 ∨ mode = 4) ∧ imm ≠ 0) ∨
  (mode = 5 ∧ D.extractLsb' 19 1 ≠ 0 ∧ 9 ≤ imm)

/-- The operand shapes of R73's table: which parameters a record of each kind has, no Register Parameter
that denotes `pc` or FLAGS (R18), and no MemoryLocation as a branch target (R181). -/
def shapeOfTable (r : Record) : Prop :=
  (∀ p ∈ r.p1.toList ++ r.p2.toList, p.admissible = true) ∧
  ((r.kind ∈ [Kind.mov, .add, .sub, .umul, .smul, .udiv, .sdiv, .and, .or, .xor, .shl, .shr, .cmp] ∧
      r.p1.isSome = true ∧ r.p2.isSome = true) ∨
    (r.kind = .push ∧ r.p1.isSome = true ∧ r.p2 = none) ∨
    (r.kind = .pop ∧ r.p2 = none) ∨
    (r.kind = .not ∧ r.p1.isSome = true) ∨
    (r.kind ∈ [Kind.jmp, .jeq, .jne, .jlt, .jle, .jgt, .jge] ∧ r.p2 = none ∧
      ∃ p, r.p1 = some p ∧ p.isMem = false) ∨
    (r.kind = .nop ∧ r.p1 = none ∧ r.p2 = none))

/-! ## Frames -/

/-- The unit and the unit-local address that a store through an operand goes to: the locator's route
of the operand's address; `none` where nothing is stored to memory. -/
def State.storeTarget? (s : State) (p : Param) : Option (Nat × Nat) :=
  if p.isMem then
    match address s p with
    | .next a =>
      match s.map.route .write a with
      | .hit u addr => some (u, addr.toNat)
      | .miss _ => none
    | .fault _ => none
    | .refused _ => none
  else none

/-- The byte at unit-local address `a` of unit `u` lies in the word stored at `target`. -/
def inStored (target : Option (Nat × Nat)) (u a : Nat) : Prop :=
  ∃ u' a', target = some (u', a') ∧ u = u' ∧ (a = a' ∨ a = a' + 1)

/-- Every byte of every RAM outside the word stored at `target` reads as before. -/
def BytesKept (target : Option (Nat × Nat)) (s t : State) : Prop :=
  ∀ u a, ¬inStored target u a → t.byteAt u a = s.byteAt u a

/-- Every flag outside the mask, the unnamed bits 15:8 among them, is unchanged. -/
def FlagsKept (mask : Word) (s t : State) : Prop := t.flags &&& ~~~mask = s.flags &&& ~~~mask

/-- Every register that an instruction can name, other than those listed, is unchanged. -/
def RegsKept (written : List RegName) (s t : State) : Prop :=
  ∀ r : RegName, r.nameable = true → r ∉ written → t.readReg r = s.readReg r

/-- The flags that an access can set (R57, R58, R52). -/
def accessFlags : Word := fSeg ||| fMultistate

end Sys2Proof.Machine
end

