-- ==== Sys2Proof/Certificates/Slice0/Obligations.lean ====
section
/-! DEFINITION. The statements about the machine, one definition each; OBLIGATIONS.json lists them. A
statement that rests on a choice of the spec itself or of the model says so in its docstring. -/

open Sys2Proof Sys2Proof.Machine

/-! ## Encoding -/

/-- Every well-formed instruction that the slot level can express has a slot, and that slot decodes
to it (30_encoding.md section 2; the slot format is the spec's own decision D3). -/
def Obligations.DecodeOfEncodeIsIdentity : Prop :=
  ∀ i : Instr, i.WellFormed → i.hasSlotForm = true →
    ∃ S, encode i = some S ∧ decode S = .instr i

/-- A slot that decodes to an instruction is that instruction's encoding, so no two slots spell one
instruction and every bit of a slot is read (30_encoding.md section 2; D3). -/
def Obligations.EncodeOfDecodeIsIdentity : Prop :=
  ∀ (S : Slot) (i : Instr), decode S = .instr i →
    i.WellFormed ∧ i.hasSlotForm = true ∧ encode i = some S

/-- A slot with a reserved kind code, nonzero bits 58:56 or a reserved operand descriptor spells no
instruction, and a tick that fetches it is refused. A slot whose fields spell a record outside the
shape table is ill-formed. A tick that fetches an ill-formed slot or an ill-formed record is
refused, and the loader rejects every program that holds a cell which is no instruction
(30_encoding.md sections 1 and 3; the shape table and the reserved encodings are the spec's
decisions D30 and D16, and refusing at the fetch is the model's choice, log 7). -/
def Obligations.ReservedSlotsSpellNoInstruction : Prop :=
  (∀ S : Slot, (24 ≤ (S.extractLsb' 59 5).toNat ∨ S.extractLsb' 56 3 ≠ 0 ∨
      reservedDescriptor (S.extractLsb' 28 28) ∨ reservedDescriptor (S.extractLsb' 0 28)) →
    (∀ i, decode S ≠ .instr i) ∧
    ∀ s : State, s.prog[s.pc.toNat]? = some (.slot S) →
      ∃ e, step s = .refused (.undecodableSlot e)) ∧
  (∀ (S : Slot) (k : Kind) (p1 p2 : Option Param), S.extractLsb' 56 3 = 0 →
    kindOfCode (S.extractLsb' 59 5).toNat = some k →
    decodeOperand (S.extractLsb' 28 28) = .ok p1 → decodeOperand (S.extractLsb' 0 28) = .ok p2 →
    ¬shapeOfTable ⟨k, p1, p2⟩ → ∃ e, decode S = .illFormed e) ∧
  (∀ (S : Slot) (e : ShapeError) (s : State), decode S = .illFormed e →
    s.prog[s.pc.toNat]? = some (.slot S) → step s = .refused (.illFormedRecord e)) ∧
  (∀ (r : Record) (e : ShapeError) (s : State), r.toInstr = .error e →
    s.prog[s.pc.toNat]? = some (.record r) → step s = .refused (.illFormedRecord e)) ∧
  ∀ (prog : List ProgCell) (cell : ProgCell) (s : State), cell ∈ prog →
    (∀ i, decodeCell cell ≠ .next i) → ∃ e, loadProgram prog s = .refused e

/-- A record is an instruction exactly when its shape stands in the table of R73 (30_encoding.md
section 1; the table is the spec's decision D30, the RegisterReference among the operands is log 9). -/
def Obligations.RecordShapesAreTheTable : Prop :=
  ∀ r : Record, (∃ i, r.toInstr = .ok i ∧ i.toRecord = r) ↔ shapeOfTable r

/-- Slots written out from the fields of R74 to R78 decode to the instructions they stand for. -/
def Obligations.WrittenOutSlotsDecode : Prop :=
  decode 0x00A380002200A55A =
      .instr (.mov (.memRel (.reg (.gpr 1)) (.cons .sub (.reg (.gpr 2)) .nil)) (.const 0xA55A)) ∧
  decode 0x1050000000000000 = .instr (.pop (some (.reg .sp))) ∧
  decode 0x2840000002000102 = .instr (.umul (.reg (.gpr 0)) (.const 0x0102)) ∧
  decode 0x70400000060000F8 = .instr (.not (.reg (.gpr 0)) (some (.memC 0x00F8))) ∧
  decode 0x98200000A0000000 = .instr (.jlt (.const 10)) ∧
  decode 0xB800000000000000 = .instr .nop

/-! ## Reset and invariants -/

/-- After power-on reset every register reads 0x0000, the default map holds the words 0x0000 to
0xFFFE and not 0xFFFF (70_reset_and_hazards.md section 1, 20_memory.md section 4: values that the
spec decides in D18 and D21), the registry is the wiring of the block and the overflow register is
r7 (the spec's decisions D17 and D6), and no program is loaded (log 2). -/
def Obligations.ResetStateIsPowerOn : Prop :=
  (∀ r : RegName, State.reset.readReg r = 0) ∧
  (∀ (k : Access) (a : Int), 0 ≤ a → a ≤ 0xFFFE → State.reset.map.route k a = .hit 0 a) ∧
  (∀ (k : Access) (a : Int), a < 0 ∨ 0xFFFF ≤ a → State.reset.map.route k a = .miss false) ∧
  State.reset.registry = wiring ∧ State.reset.ovfReg = 7 ∧ State.reset.prog = []

/-- The state after reset meets the invariants, its map is well-formed, and its registry routes
every instruction to the unit of its family, once, and `nop` to none (10_state.md, 20_memory.md
section 4, 40_dispatch_and_tick.md section 2; the wiring is the spec's decision D17). -/
def Obligations.ResetMeetsTheInvariants : Prop :=
  State.reset.Inv ∧ State.reset.CompareExclusive ∧ State.reset.map.Ok State.reset.units ∧
  State.reset.Wired

/-- With every registry, a tick keeps the invariant (every RAM in canonical form and inside its
size, a program that pc can index), the exclusion of EQUAL and LESS, and the routing (10_state.md
section 2; 43_alu_bitwise_compare.md, cmp). -/
def Obligations.StepKeepsInvariants : Prop :=
  ∀ s t : State, step s = .next t →
    (s.Inv → t.Inv) ∧ (s.CompareExclusive → t.CompareExclusive) ∧ (s.Wired → t.Wired)

/-- Every move of the host, a tick among them, keeps the invariant and changes no configuration: the
program, the map, the size and kind of every unit, the registry and the number of the overflow
register (10_state.md sections 2 and 3). -/
def Obligations.HostMovesKeepInvariantAndConfiguration : Prop :=
  ∀ (m : HostMove) (s t : State), hostMove m s = .done t →
    (s.Inv → t.Inv) ∧ s.SameConfig t

/-- Over a tick no flag but EQUAL and LESS is ever cleared, the unnamed bits 15:8 stay, and EQUAL
and LESS change only by `cmp` (10_state.md section 1). -/
def Obligations.FlagsAreSticky : Prop :=
  ∀ s t : State, step s = .next t →
    s.flags &&& ~~~t.flags &&& 0xFFE7 = 0 ∧
    t.flags &&& 0xFF00 = s.flags &&& 0xFF00 ∧
    ∀ i, fetch s = .next i → i.kind ≠ .cmp → t.flags &&& 0x0018 = s.flags &&& 0x0018

/-- A tick of an instruction that is no branch moves pc on by one, modulo 2^16
(40_dispatch_and_tick.md section 1, 44_branch.md; the modulus is the spec's decision D14). -/
def Obligations.OnlyBranchesRedirectThePc : Prop :=
  ∀ (s t : State) (i : Instr), fetch s = .next i → i.kind.isBranch = false → step s = .next t →
    t.pc = s.pc + 1

/-- Flags other than EQUAL and LESS are read by nothing: two states that differ in them only tick
alike, and end differing in them only (10_state.md section 1, the table of readers). -/
def Obligations.UnreadFlagsNeverMatter : Prop :=
  ∀ (s t : State) (m : Word), m &&& 0x0018 = 0 → step s = .next t →
    ∃ t', step { s with flags := s.flags ^^^ m } = .next t' ∧
      { t' with flags := t.flags } = t ∧ t'.flags &&& 0x0018 = t.flags &&& 0x0018

/-- A program whose cells are well-formed, linked instructions none of which writes to a Constant
never stops: from any state that holds it, with a registry that hands no unit a foreign kind, any
number of ticks can be made (60_exceptions.md section 1; 40_dispatch_and_tick.md section 2). -/
def Obligations.SafeProgramNeverStops : Prop :=
  ∀ s : State, s.registry.Proper → SafeProgram s.prog → ∀ n, ∃ t, RunsTo n s t

/-! ## Completion and stops -/

/-- Every well-formed, linked instruction that does not write to a Constant completes, in every
state and with every operand form: `mov`, `push`, `pop`, `add`, `sub`, `umul`, `smul`, `udiv`,
`sdiv`, `and`, `or`, `xor`, `shl`, `shr`, `not`, `cmp`, `jmp`, `jeq`, `jne`, `jlt`, `jle`, `jgt`,
`jge` and `nop` (00_scope.md section 4, 60_exceptions.md section 1: a flag condition never stops a
tick). The registry, through which `push` and `pop` issue an `add` or `sub`, hands no unit a foreign
kind. -/
def Obligations.WellFormedLinkedWritableCompletes : Prop :=
  ∀ (i : Instr) (s : State), s.registry.Proper → i.WellFormed → i.linked = true →
    i.writable = true →
    ∃ t, exec i s = .next t

/-- A well-formed instruction stops with NotWritable exactly when it writes its first operand and
that operand is a Constant; the only other stops are UnresolvedReference, and only with a
RegisterReference left in an operand, and UnsupportedInstruction, and only where `push` or `pop`
issues an instruction through a registry that hands a unit a foreign kind (60_exceptions.md sections
1 and 2; for `mov` and `pop` the order of the check is the spec's decision D31). It is refused
exactly when it is ill-formed: what is ill-formed says the shape table (30_encoding.md section 1,
the spec's decision D30), that the meaning itself refuses it is the model's choice (log 7), and that
an operand with a RegisterReference is well-formed is the model's inference (log 9). -/
def Obligations.InstructionsStopOnlyAsSaid : Prop :=
  ∀ (i : Instr) (s : State),
    (i.WellFormed → (exec i s = .fault .notWritable ↔ i.writable = false)) ∧
    (∀ f, exec i s = .fault f → f = .notWritable ∨ (f = .unresolvedReference ∧ i.linked = false) ∨
      (f = .unsupportedInstruction ∧ i.kind ∈ [Kind.push, .pop] ∧ ¬s.registry.Proper)) ∧
    ((∃ e, exec i s = .refused e) ↔ ¬i.WellFormed)

/-- The dispatcher forwards an instruction to every unit whose filter accepts it, one after the
other, and drops it without any effect if there is none. A unit handed a kind outside its family
fails with an unsupported-instruction error; the three families are disjoint and `nop` is in none;
and no tick meets that error with a registry that hands no unit a foreign kind, as the wiring of the
block does not (40_dispatch_and_tick.md section 2; that no tick meets it is a derivation of the
spec, the wiring its decision D17; the order of the units is the model's choice, log 30, and shows
in no next state). -/
def Obligations.UnitsRejectForeignKinds : Prop :=
  (∀ (i : Instr) (s : State), s.registry.units i = [] → dispatch i s = .next s) ∧
  (∀ (i : Instr) (s : State) (u : ExecUnit), s.registry.units i = [u] →
    dispatch i s =
      if i.kind ∈ u.family then exec i s else .fault .unsupportedInstruction) ∧
  (∀ (i : Instr) (s t : State) (u u' : ExecUnit), s.registry.units i = [u, u'] →
    i.kind ∈ u.family → exec i s = .next t →
    dispatch i s =
      if i.kind ∈ u'.family then exec i t else .fault .unsupportedInstruction) ∧
  (∀ (u u' : ExecUnit) (k : Kind), k ∈ u.family → k ∈ u'.family → u = u' ∧ k ≠ .nop) ∧
  ∀ s : State, s.registry.Proper → step s ≠ .fault .unsupportedInstruction

/-! ## The tick -/

/-- When the cell at pc decodes to an instruction, or pc is past the end and the instruction is the
default no-op, the tick is the broadcast of it to the dispatcher, on the state in which ILLEGAL has
been set if it is the default no-op, followed by the increment of pc as the broadcast left it; where
the broadcast stops, so does the tick. With a registry that routes as the wiring of the block does,
the broadcast is `exec` of the instruction. -/
def Obligations.StepRunsTheDecodedInstruction : Prop :=
  ∀ (s : State) (i : Instr),
    ((∃ S, s.prog[s.pc.toNat]? = some (.slot S) ∧ decode S = .instr i) ∨
      (∃ r, s.prog[s.pc.toNat]? = some (.record r) ∧ r.toInstr = .ok i) ∨
      (s.prog.length ≤ s.pc.toNat ∧ i = .nop)) →
    (step s =
      match dispatch i (if i = .nop then { s with flags := s.flags ||| 0x0080 } else s) with
      | .next t => .next { t with pc := t.pc + 1 }
      | .fault f => .fault f
      | .refused e => .refused e) ∧
    (s.Wired → step s =
      match exec i (if i = .nop then { s with flags := s.flags ||| 0x0080 } else s) with
      | .next t => .next { t with pc := t.pc + 1 }
      | .fault f => .fault f
      | .refused e => .refused e)

/-- `next()` returns the instruction at the program counter, or the default no-op if the counter is
out of range; with an empty program every fetch returns the no-op. -/
def Obligations.NextIsTheCellOrNop : Prop :=
  ∀ s : State,
    (∀ h : s.pc.toNat < s.prog.length, fetch s = decodeCell s.prog[s.pc.toNat]) ∧
    (s.prog.length ≤ s.pc.toNat → fetch s = .next .nop) ∧
    (s.prog = [] → fetch s = .next .nop)

/-- A tick past the end of the program, with a registry in which no unit is handed a foreign kind,
sets ILLEGAL, counts pc on and changes nothing else; the program has then finished, unless pc
wrapped to 0 (40_dispatch_and_tick.md section 1; the wrap and the definition of the end are the
spec's decision D14). -/
def Obligations.TickPastTheEnd : Prop :=
  ∀ s : State, s.registry.Proper → s.prog.length ≤ s.pc.toNat →
    step s = .next { s with flags := s.flags ||| 0x0080, pc := s.pc + 1 } ∧
    (s.pc ≠ 0xFFFF → State.Finished { s with flags := s.flags ||| 0x0080, pc := s.pc + 1 })

/-! ## Memory-move -/

/-- `mov` copies the word its source reads as to the place its destination names, and changes
nothing else: no flag, whatever the word (41_memory_move.md, mov). -/
def Obligations.MovCopiesWord : Prop :=
  ∀ (s : State) (p1 p2 : Param) (v : Word) (d : Place), (Instr.mov p1 p2).WellFormed →
    s.operand? p2 = some v → s.place? p1 = some d →
    exec (.mov p1 p2) s = .next (s.store d v)

/-- A `mov` from an address that no registrant accepts, that two or more accept, or whose one
registrant is write-only, sets SEG, in the second case MULTISTATE too, and hands a fresh free value
to the register (20_memory.md section 3; the value is open in the spec, D12, and free in the model,
log 3). -/
def Obligations.FailedReadHandsOverFreeValue : Prop :=
  ∀ (s : State) (r : RegName) (p : Param) (a : Int), (Instr.mov (.reg r) p).WellFormed →
    p.isMem = true → address s p = .next a →
    (s.map.acceptors a = [] →
      exec (.mov (.reg r) p) s =
        .next (({ s with flags := s.flags ||| 0x0020, draws := s.draws + 1 }).writeReg r
          (Config.unresolvedReadValue s.draws))) ∧
    (2 ≤ (s.map.acceptors a).length →
      exec (.mov (.reg r) p) s =
        .next (({ s with flags := s.flags ||| 0x0060, draws := s.draws + 1 }).writeReg r
          (Config.unresolvedReadValue s.draws))) ∧
    (∀ g, s.map.acceptors a = [g] → g.cap = .writeOnly →
      exec (.mov (.reg r) p) s =
        .next (({ s with flags := s.flags ||| 0x0020, draws := s.draws + 1 }).writeReg r
          (Config.unresolvedReadValue s.draws)))

/-- A `mov` to an address that no registrant accepts, that two or more accept, or whose one
registrant is read-only, sets SEG, in the second case MULTISTATE too, and stores nothing
(20_memory.md section 3). -/
def Obligations.FailedWriteStoresNothing : Prop :=
  ∀ (s : State) (p1 p2 : Param) (v : Word) (a : Int), (Instr.mov p1 p2).WellFormed →
    s.operand? p2 = some v → p1.isMem = true → address s p1 = .next a →
    (s.map.acceptors a = [] →
      exec (.mov p1 p2) s = .next { s with flags := s.flags ||| 0x0020 }) ∧
    (2 ≤ (s.map.acceptors a).length →
      exec (.mov p1 p2) s = .next { s with flags := s.flags ||| 0x0060 }) ∧
    (∀ g, s.map.acceptors a = [g] → g.cap = .readOnly →
      exec (.mov p1 p2) s = .next { s with flags := s.flags ||| 0x0020 })

/-- A `mov` from or to a peripheral makes one access of it: the register receives the peripheral's
answer, or the peripheral receives the word, and its own state is what it makes of that
(20_memory.md section 3; what a peripheral does is the platform's, and uninterpreted in the model,
log 6). -/
def Obligations.PeripheralsAreAccessedOnce : Prop :=
  ∀ (s : State) (p : Param) (a addr : Int) (u size device st : Nat), p.isMem = true →
    address s p = .next a → s.units[u]? = some (.peripheral size device st) →
    0 ≤ addr → addr + 1 < (size : Int) →
    (∀ r, (Instr.mov (.reg r) p).WellFormed → s.map.route .read a = .hit u addr →
      exec (.mov (.reg r) p) s =
        .next ((s.setUnit u (.peripheral size device
          (Config.peripheralRead device st addr.toNat).2)).writeReg r
          (Config.peripheralRead device st addr.toNat).1)) ∧
    (∀ p2 v, (Instr.mov p p2).WellFormed → s.operand? p2 = some v →
      s.map.route .write a = .hit u addr →
      exec (.mov p p2) s =
        .next (s.setUnit u (.peripheral size device
          (Config.peripheralWrite device st addr.toNat v))))

/-- With a registry that routes as the wiring of the block does, `push` stores its value at `[sp]`,
then adds 2 to sp by an issued `add`: the overflow register receives the carry, and OVERFLOW is set
when sp wraps; an unmapped `[sp]` sets SEG and the pointer moves all the same (41_memory_move.md,
push; the overflow register is written always by the spec's decision D7). -/
def Obligations.PushStoresThenAdvances : Prop :=
  ∀ (s : State) (p : Param) (v : Word), s.Wired → (Instr.push p).WellFormed → s.operand? p = some v →
    (∀ d, s.place? (.memAbs (.reg .sp)) = some d →
      exec (.push p) s =
        .next ((({ s.store d v with sp := s.sp + 2 }).writeReg (.gpr s.ovfReg)
          (if 0xFFFE ≤ s.sp.toNat then 1 else 0)).setFlags
          (if 0xFFFE ≤ s.sp.toNat then 0x0001 else 0))) ∧
    (s.map.acceptors (s.sp.toNat : Int) = [] →
      exec (.push p) s =
        .next ((({ s with sp := s.sp + 2 }).writeReg (.gpr s.ovfReg)
          (if 0xFFFE ≤ s.sp.toNat then 1 else 0)).setFlags
          (if 0xFFFE ≤ s.sp.toNat then 0x0021 else 0x0020)))

/-- `pop` with sp below 2 sets SEG and does nothing else. Otherwise, with a registry that routes as
the wiring of the block does, it subtracts 2 from sp by an issued `sub` (the overflow register
becomes 0; ZERO is set when sp becomes 0) and, if it has a destination, copies the word at the new
`[sp]` there, both locations evaluated with the new sp (41_memory_move.md, pop; the overflow
register is written always by the spec's decision D7). -/
def Obligations.PopRetreatsThenCopies : Prop :=
  ∀ s : State,
    (∀ p1 : Option Param, (Instr.pop p1).WellFormed → (Instr.pop p1).writable = true →
      s.sp.toNat < 2 → exec (.pop p1) s = .next { s with flags := s.flags ||| 0x0020 }) ∧
    (s.Wired → 2 ≤ s.sp.toNat →
      exec (.pop none) s =
        .next ((({ s with sp := s.sp - 2 }).writeReg (.gpr s.ovfReg) 0).setFlags
          (if s.sp = 2 then 0x0002 else 0))) ∧
    (∀ (p : Param) (v : Word) (d : Place) (s1 : State), s.Wired → 2 ≤ s.sp.toNat →
      (Instr.pop (some p)).WellFormed →
      s1 = (({ s with sp := s.sp - 2 }).writeReg (.gpr s.ovfReg) 0).setFlags
        (if s.sp = 2 then 0x0002 else 0) →
      s1.operand? (.memAbs (.reg .sp)) = some v → s1.place? p = some d →
      exec (.pop (some p)) s = .next (s1.store d v))

/-- With sp at most 0xFFFD, so that the `add` of `push` does not wrap it, and with a registry that
routes as the wiring of the block does, a `push` into RAM and a `pop` to a general register after it
bring back the value and sp, and leave the other general registers but the overflow register alone
(41_memory_move.md, stack discipline). -/
def Obligations.PushThenPopRestores : Prop :=
  ∀ (s : State) (p : Param) (v : Word) (g : Fin 8) (u : Nat) (addr : Int), s.Inv → s.Wired →
    (Instr.push p).WellFormed → s.operand? p = some v → s.sp.toNat ≤ 0xFFFD →
    s.map.route .write (s.sp.toNat : Int) = .hit u addr →
    s.map.route .read (s.sp.toNat : Int) = .hit u addr → (s.ramWord? u addr).isSome = true →
    ∃ t t', exec (.push p) s = .next t ∧ exec (.pop (some (.reg (.gpr g)))) t = .next t' ∧
      t'.readReg (.gpr g) = v ∧ t'.sp = s.sp ∧
      ∀ g' : Fin 8, g' ≠ g → g' ≠ s.ovfReg → t'.readReg (.gpr g') = s.readReg (.gpr g')

/-! ## Overflow-tracked arithmetic

The overflow register is `s.ovfReg`, whichever general register that is (r7 in the block by the spec's
decision D6). The places of the flag bits (D1), and that the overflow register is written after the
destination and also when the word is 0 (D7), are the spec's own decisions. -/

/-- `add`: the sum modulo 2^16, the carry to the overflow register, OVERFLOW on a carry, ZERO when
both addends are 0 (42_alu_overflow.md section 3; operands read unsigned is the spec's decision D8). -/
def Obligations.AddGivesSumAndCarry : Prop :=
  ∀ (s : State) (p1 p2 : Param) (a b : Word) (d : Place), (Instr.add p1 p2).WellFormed →
    s.operand? p1 = some a → s.operand? p2 = some b → s.place? p1 = some d →
    exec (.add p1 p2) s =
      .next (((s.store d (a + b)).writeReg (.gpr s.ovfReg)
        (if 0x10000 ≤ a.toNat + b.toNat then 1 else 0)).setFlags
        ((if 0x10000 ≤ a.toNat + b.toNat then 0x0001 else 0) |||
          (if a = 0 ∧ b = 0 then 0x0002 else 0)))

/-- `sub`: the difference modulo 2^16, 0xFFFF or 0 to the overflow register, OVERFLOW on a borrow,
ZERO when the operands are equal (42_alu_overflow.md section 3; operands read unsigned is the spec's
decision D8). -/
def Obligations.SubGivesDifferenceAndBorrow : Prop :=
  ∀ (s : State) (p1 p2 : Param) (a b : Word) (d : Place), (Instr.sub p1 p2).WellFormed →
    s.operand? p1 = some a → s.operand? p2 = some b → s.place? p1 = some d →
    exec (.sub p1 p2) s =
      .next (((s.store d (a - b)).writeReg (.gpr s.ovfReg)
        (if a.toNat < b.toNat then 0xFFFF else 0)).setFlags
        ((if a.toNat < b.toNat then 0x0001 else 0) ||| (if a = b then 0x0002 else 0)))

/-- `umul`: the halves of the 32-bit product, OVERFLOW when it is 0x10000 or more, ZERO when it is 0
(42_alu_overflow.md section 3). -/
def Obligations.UmulGivesProductHalves : Prop :=
  ∀ (s : State) (p1 p2 : Param) (a b : Word) (d : Place), (Instr.umul p1 p2).WellFormed →
    s.operand? p1 = some a → s.operand? p2 = some b → s.place? p1 = some d →
    exec (.umul p1 p2) s =
      .next (((s.store d (a * b)).writeReg (.gpr s.ovfReg)
        (BitVec.ofNat 16 (a.toNat * b.toNat / 0x10000))).setFlags
        ((if 0x10000 ≤ a.toNat * b.toNat then 0x0001 else 0) |||
          (if a = 0 ∨ b = 0 then 0x0002 else 0)))

/-- `smul`: the halves of the 32-bit two's-complement product of the operands read as signed,
OVERFLOW when the high half is nonzero, so for every negative product, ZERO when the product is 0
(42_alu_overflow.md section 3). -/
def Obligations.SmulGivesSignedProductHalves : Prop :=
  ∀ (s : State) (p1 p2 : Param) (a b : Word) (d : Place), (Instr.smul p1 p2).WellFormed →
    s.operand? p1 = some a → s.operand? p2 = some b → s.place? p1 = some d →
    exec (.smul p1 p2) s =
      .next (((s.store d (a * b)).writeReg (.gpr s.ovfReg)
        (BitVec.ofInt 16 (a.toInt * b.toInt / 0x10000))).setFlags
        ((if a.toInt * b.toInt < 0 ∨ 0x10000 ≤ a.toInt * b.toInt then 0x0001 else 0) |||
          (if a = 0 ∨ b = 0 then 0x0002 else 0)))

/-- `udiv` by a nonzero divisor: the quotient to the destination, the remainder to the overflow
register, OVERFLOW when the remainder is nonzero, ZERO when the dividend is 0 (42_alu_overflow.md
section 3). -/
def Obligations.UdivGivesQuotientAndRemainder : Prop :=
  ∀ (s : State) (p1 p2 : Param) (a b : Word) (d : Place), (Instr.udiv p1 p2).WellFormed →
    s.operand? p1 = some a → s.operand? p2 = some b → b ≠ 0 → s.place? p1 = some d →
    exec (.udiv p1 p2) s =
      .next (((s.store d (a / b)).writeReg (.gpr s.ovfReg) (a % b)).setFlags
        ((if a % b ≠ 0 then 0x0001 else 0) ||| (if a = 0 then 0x0002 else 0)))

/-- `sdiv` by a nonzero divisor: the quotient of the operands read as signed, truncated toward zero,
and the remainder with the sign of the dividend (42_alu_overflow.md section 3; for a negative
divisor the spec supplies this from general knowledge, G2, log 18). -/
def Obligations.SdivTruncatesTowardZero : Prop :=
  ∀ (s : State) (p1 p2 : Param) (a b : Word) (d : Place), (Instr.sdiv p1 p2).WellFormed →
    s.operand? p1 = some a → s.operand? p2 = some b → b ≠ 0 → s.place? p1 = some d →
    exec (.sdiv p1 p2) s =
      .next (((s.store d (BitVec.ofInt 16 (a.toInt.tdiv b.toInt))).writeReg (.gpr s.ovfReg)
        (BitVec.ofInt 16 (a.toInt.tmod b.toInt))).setFlags
        ((if a.toInt.tmod b.toInt ≠ 0 then 0x0001 else 0) ||| (if a = 0 then 0x0002 else 0)))

/-- `udiv` and `sdiv` by zero set DIV_ZERO and change nothing else (42_alu_overflow.md section 2;
that the operands are read first is the spec's decision D29). -/
def Obligations.DivisionByZeroSetsDivZeroOnly : Prop :=
  ∀ (s : State) (p1 p2 : Param) (a : Word), p1.isConst = false → s.operand? p1 = some a →
    s.operand? p2 = some 0 →
    ((Instr.udiv p1 p2).WellFormed →
      exec (.udiv p1 p2) s = .next { s with flags := s.flags ||| 0x0004 }) ∧
    ((Instr.sdiv p1 p2).WellFormed →
      exec (.sdiv p1 p2) s = .next { s with flags := s.flags ||| 0x0004 })

/-- An access to an unmapped address does not end an instruction: with a first operand that no
registrant accepts, `add`, `and` and `cmp` go on with the free value that the failed read hands over
(the n-th one, log 3), set SEG, store nothing, and still write the overflow register and the flags
of their result (60_exceptions.md section 1; that they still do is the spec's decision D13, log 14). -/
def Obligations.FailedOperandsGoOn : Prop :=
  ∀ (s t : State) (p1 p2 : Param) (a : Int) (v b : Word), p1.isMem = true →
    address s p1 = .next a → s.map.acceptors a = [] → s.operand? p2 = some b →
    v = Config.unresolvedReadValue s.draws →
    t = { s with flags := s.flags ||| 0x0020, draws := s.draws + 1 } →
    ((Instr.add p1 p2).WellFormed → exec (.add p1 p2) s =
      .next ((t.writeReg (.gpr s.ovfReg) (if 0x10000 ≤ v.toNat + b.toNat then 1 else 0)).setFlags
        ((if 0x10000 ≤ v.toNat + b.toNat then 0x0001 else 0) |||
          (if v = 0 ∧ b = 0 then 0x0002 else 0)))) ∧
    ((Instr.and p1 p2).WellFormed → exec (.and p1 p2) s =
      .next (t.setFlags (if v &&& b = 0 then 0x0002 else 0))) ∧
    ((Instr.cmp p1 p2).WellFormed → exec (.cmp p1 p2) s =
      .next { t with flags := (t.flags &&& ~~~0x0018) |||
        (if v = b then 0x0008 else if v.toInt < b.toInt then 0x0010 else 0) })

/-! ## Bitwise, shifts, compare -/

/-- `and`, `or` and `xor` store the bitwise result and set ZERO when it is zero; the overflow
register and the other flags are left alone (43_alu_bitwise_compare.md). -/
def Obligations.BitwiseStoresBitsAndZero : Prop :=
  ∀ (s : State) (p1 p2 : Param) (a b : Word) (d : Place),
    s.operand? p1 = some a → s.operand? p2 = some b → s.place? p1 = some d →
    ((Instr.and p1 p2).WellFormed → exec (.and p1 p2) s =
      .next ((s.store d (a &&& b)).setFlags (if a &&& b = 0 then 0x0002 else 0))) ∧
    ((Instr.or p1 p2).WellFormed → exec (.or p1 p2) s =
      .next ((s.store d (a ||| b)).setFlags (if a = 0 ∧ b = 0 then 0x0002 else 0))) ∧
    ((Instr.xor p1 p2).WellFormed → exec (.xor p1 p2) s =
      .next ((s.store d (a ^^^ b)).setFlags (if a = b then 0x0002 else 0)))

/-- `shl` multiplies and `shr` divides the unsigned word by 2 to the whole count: bits shifted out
are lost, zeros enter, and a count of 16 or more gives 0 (43_alu_bitwise_compare.md; the count of 16
or more and the logical right shift are the spec's decision D11, log 15). -/
def Obligations.ShiftsUseTheWholeCount : Prop :=
  ∀ (s : State) (p1 p2 : Param) (a b v w : Word) (d : Place),
    s.operand? p1 = some a → s.operand? p2 = some b → s.place? p1 = some d →
    v = BitVec.ofNat 16 (a.toNat * 2 ^ b.toNat) → w = BitVec.ofNat 16 (a.toNat / 2 ^ b.toNat) →
    ((Instr.shl p1 p2).WellFormed → exec (.shl p1 p2) s =
      .next ((s.store d v).setFlags (if v = 0 then 0x0002 else 0))) ∧
    ((Instr.shr p1 p2).WellFormed → exec (.shr p1 p2) s =
      .next ((s.store d w).setFlags (if w = 0 then 0x0002 else 0)))

/-- `not` stores the complement and sets ZERO when the operand was 0xFFFF
(43_alu_bitwise_compare.md). -/
def Obligations.NotStoresComplement : Prop :=
  ∀ (s : State) (p1 : Param) (a : Word) (d : Place), (Instr.not p1 none).WellFormed →
    s.operand? p1 = some a → s.place? p1 = some d →
    exec (.not p1 none) s =
      .next ((s.store d (~~~a)).setFlags (if a = 0xFFFF then 0x0002 else 0))

/-- A second operand of `not` is located and never read: with it the instruction ends as without it,
but for MULTISTATE when its address is ambiguous (43_alu_bitwise_compare.md, not: a derivation of
the spec, log 20). -/
def Obligations.NotLocatesItsSecondOperand : Prop :=
  ∀ (s t : State) (p1 p2 : Param), (Instr.not p1 (some p2)).WellFormed →
    exec (.not p1 none) s = .next t →
    (p2.isMem = false → exec (.not p1 (some p2)) s = .next t) ∧
    (∀ a, p2.isMem = true → address s p2 = .next a →
      exec (.not p1 (some p2)) s =
        .next (if 2 ≤ (s.map.acceptors a).length
          then { t with flags := t.flags ||| 0x0040 } else t))

/-- `cmp` clears EQUAL and LESS, then sets EQUAL when the words are equal, else LESS when the first
is less as signed words; nothing else changes (43_alu_bitwise_compare.md, cmp; that exactly these
two are cleared first, and ZERO never set, are the spec's decisions D9 and D10). -/
def Obligations.CmpComparesSigned : Prop :=
  ∀ (s : State) (p1 p2 : Param) (a b : Word), (Instr.cmp p1 p2).WellFormed →
    s.operand? p1 = some a → s.operand? p2 = some b →
    exec (.cmp p1 p2) s =
      .next { s with flags := (s.flags &&& ~~~0x0018) |||
        (if a = b then 0x0008 else if a.toInt < b.toInt then 0x0010 else 0) }

/-- After a `cmp` the six conditional branches decide by the signed order of the words compared
(43_alu_bitwise_compare.md, cmp; 44_branch.md section on conditions). -/
def Obligations.BranchesDecideByTheCompare : Prop :=
  ∀ (s : State) (p1 p2 : Param) (a b c : Word), (Instr.cmp p1 p2).WellFormed →
    s.operand? p1 = some a → s.operand? p2 = some b →
    ∃ t, exec (.cmp p1 p2) s = .next t ∧
      exec (.jeq (.const c)) t = .next (if a = b then { t with pc := c - 1 } else t) ∧
      exec (.jne (.const c)) t = .next (if a ≠ b then { t with pc := c - 1 } else t) ∧
      exec (.jlt (.const c)) t = .next (if a.toInt < b.toInt then { t with pc := c - 1 } else t) ∧
      exec (.jle (.const c)) t = .next (if a.toInt ≤ b.toInt then { t with pc := c - 1 } else t) ∧
      exec (.jgt (.const c)) t = .next (if a.toInt > b.toInt then { t with pc := c - 1 } else t) ∧
      exec (.jge (.const c)) t = .next (if a.toInt ≥ b.toInt then { t with pc := c - 1 } else t)

/-! ## Branches and the no-op -/

/-- `jmp` writes its target minus one to pc, and over the whole tick, with a registry that routes as
the wiring of the block does, pc becomes the target; past the end of the program that is legal, and
the next fetch returns the no-op; a target in memory is no well-formed `jmp`; a target that is a
RegisterReference stops; its slots have 0x80 in bits 63:56 (44_branch.md). -/
def Obligations.JmpGoesToItsTarget : Prop :=
  (∀ (s : State) (p : Param) (w : Word), (Instr.jmp p).WellFormed → s.operand? p = some w →
    exec (.jmp p) s = .next { s with pc := w - 1 } ∧
    (s.Wired → fetch s = .next (.jmp p) → step s = .next { s with pc := w }) ∧
    (s.prog.length ≤ w.toNat → fetch { s with pc := w } = .next .nop)) ∧
  (∀ p : Param, (Instr.jmp p).WellFormed → p.isMem = false) ∧
  (∀ (s : State) (n : String), exec (.jmp (.regRef n)) s = .fault .unresolvedReference) ∧
  (∀ (S : Slot) (p : Param), decode S = .instr (.jmp p) →
    S.extractLsb' 56 8 = 0x80 ∧ S.extractLsb' 0 28 = 0)

/-- `jeq` is taken when EQUAL is set and `jne` when it is not; taken, pc becomes the target minus
one, and nothing else changes; a target in memory is ill-formed; their slots have 0x88 and 0x90 in
bits 63:56 (44_branch.md). -/
def Obligations.EqualityBranches : Prop :=
  (∀ (s : State) (p : Param) (w : Word), s.operand? p = some w →
    ((Instr.jeq p).WellFormed → exec (.jeq p) s =
      .next (if s.flags.getLsbD 3 = true then { s with pc := w - 1 } else s)) ∧
    ((Instr.jne p).WellFormed → exec (.jne p) s =
      .next (if s.flags.getLsbD 3 = false then { s with pc := w - 1 } else s))) ∧
  (∀ p : Param, (Instr.jeq p).WellFormed ∨ (Instr.jne p).WellFormed → p.isMem = false) ∧
  ∀ (S : Slot) (p : Param),
    (decode S = .instr (.jeq p) → S.extractLsb' 56 8 = 0x88) ∧
    (decode S = .instr (.jne p) → S.extractLsb' 56 8 = 0x90)

/-- `jlt`, `jle`, `jgt` and `jge` are taken by LESS and EQUAL as the condition table says, the
combination with both set included; taken, pc becomes the target minus one, and nothing else
changes; a target in memory is ill-formed; their slots have 0x98, 0xA0, 0xA8 and 0xB0 in bits 63:56
(44_branch.md). -/
def Obligations.OrderBranches : Prop :=
  (∀ (s : State) (p : Param) (w : Word) (e l : Bool), s.operand? p = some w →
    s.flags.getLsbD 3 = e → s.flags.getLsbD 4 = l →
    ((Instr.jlt p).WellFormed → exec (.jlt p) s =
      .next (if l = true ∧ e = false then { s with pc := w - 1 } else s)) ∧
    ((Instr.jle p).WellFormed → exec (.jle p) s =
      .next (if l = true ∨ e = true then { s with pc := w - 1 } else s)) ∧
    ((Instr.jgt p).WellFormed → exec (.jgt p) s =
      .next (if l = false ∧ e = false then { s with pc := w - 1 } else s)) ∧
    ((Instr.jge p).WellFormed → exec (.jge p) s =
      .next (if l = false ∨ e = true then { s with pc := w - 1 } else s))) ∧
  (∀ p : Param, (Instr.jlt p).WellFormed ∨ (Instr.jle p).WellFormed ∨ (Instr.jgt p).WellFormed ∨
    (Instr.jge p).WellFormed → p.isMem = false) ∧
  ∀ (S : Slot) (p : Param),
    (decode S = .instr (.jlt p) → S.extractLsb' 56 8 = 0x98) ∧
    (decode S = .instr (.jle p) → S.extractLsb' 56 8 = 0xA0) ∧
    (decode S = .instr (.jgt p) → S.extractLsb' 56 8 = 0xA8) ∧
    (decode S = .instr (.jge p) → S.extractLsb' 56 8 = 0xB0)

/-- `nop` does nothing; the tick that fetches it, from a cell of the program too, with a registry in
which no unit is handed a foreign kind, sets ILLEGAL and counts pc on (44_branch.md; a `nop` inside
the program is the spec's decision D16). -/
def Obligations.NopOnlySetsIllegalAndCounts : Prop :=
  ∀ s : State, exec .nop s = .next s ∧
    (s.registry.Proper → fetch s = .next .nop →
      step s = .next { s with flags := s.flags ||| 0x0080, pc := s.pc + 1 })

/-! ## Frames -/

/-- What `add`, `sub`, `umul`, `smul`, `udiv` and `sdiv` leave alone, with every operand form:
registers other than the destination and the overflow register, pc, the configuration, flags other
than OVERFLOW, ZERO, DIV_ZERO (divisions only), SEG and MULTISTATE, and every byte outside the word
at the destination's store target (42_alu_overflow.md). -/
def Obligations.TrackedFrame : Prop :=
  ∀ (i : Instr) (p1 p2 : Param) (s t : State),
    i ∈ [Instr.add p1 p2, .sub p1 p2, .umul p1 p2, .smul p1 p2, .udiv p1 p2, .sdiv p1 p2] →
    exec i s = .next t →
    RegsKept (.gpr s.ovfReg :: p1.asReg) s t ∧ t.pc = s.pc ∧ s.SameConfig t ∧
    FlagsKept (if i.kind = .udiv ∨ i.kind = .sdiv then 0x0067 else 0x0063) s t ∧
    s.flags &&& ~~~t.flags = 0 ∧ BytesKept (s.storeTarget? p1) s t

/-- What `and`, `or`, `xor`, `shl`, `shr` and `not` leave alone, with every operand form: registers
other than the destination, the overflow register among them, pc, the configuration, flags other
than ZERO, SEG and MULTISTATE, and every byte outside the word at the destination's store target
(43_alu_bitwise_compare.md). -/
def Obligations.PlainFrame : Prop :=
  ∀ (i : Instr) (p1 p2 : Param) (o2 : Option Param) (s t : State),
    i ∈ [Instr.and p1 p2, .or p1 p2, .xor p1 p2, .shl p1 p2, .shr p1 p2, .not p1 o2] →
    exec i s = .next t →
    RegsKept p1.asReg s t ∧ t.pc = s.pc ∧ s.SameConfig t ∧ FlagsKept 0x0062 s t ∧
    s.flags &&& ~~~t.flags = 0 ∧ BytesKept (s.storeTarget? p1) s t

/-- What `cmp` leaves alone, with every operand form: every register, pc, the configuration, flags
other than EQUAL, LESS, SEG and MULTISTATE, and every byte of memory (43_alu_bitwise_compare.md). -/
def Obligations.CmpFrame : Prop :=
  ∀ (p1 p2 : Param) (s t : State), exec (.cmp p1 p2) s = .next t →
    RegsKept [] s t ∧ t.pc = s.pc ∧ s.SameConfig t ∧ FlagsKept 0x0078 s t ∧ BytesKept none s t

/-- What `mov` leaves alone, with every operand form: registers other than the destination, pc, the
configuration, flags other than SEG and MULTISTATE, and every byte outside the word at the
destination's store target (41_memory_move.md). -/
def Obligations.MovFrame : Prop :=
  ∀ (p1 p2 : Param) (s t : State), exec (.mov p1 p2) s = .next t →
    RegsKept p1.asReg s t ∧ t.pc = s.pc ∧ s.SameConfig t ∧ FlagsKept 0x0060 s t ∧
    s.flags &&& ~~~t.flags = 0 ∧ BytesKept (s.storeTarget? p1) s t

/-- What `push` leaves alone, with every operand form: registers other than sp and the overflow
register, pc, the configuration, and every byte outside the word at the store target of `[sp]`, sp
being the old one; flags other than OVERFLOW, SEG and MULTISTATE, with a registry that routes as the
wiring of the block does, and with every other registry (which may run the issued `add` any number
of times) other than those and ZERO (41_memory_move.md). -/
def Obligations.PushFrame : Prop :=
  ∀ (p1 : Param) (s t : State), exec (.push p1) s = .next t →
    RegsKept [.sp, .gpr s.ovfReg] s t ∧ t.pc = s.pc ∧ s.SameConfig t ∧
    FlagsKept 0x0063 s t ∧ s.flags &&& ~~~t.flags = 0 ∧
    (s.Wired → t.sp = s.sp + 2 ∧ FlagsKept 0x0061 s t) ∧
    BytesKept (s.storeTarget? (.memAbs (.reg .sp))) s t

/-- What `pop` leaves alone, with every operand form: registers other than sp, the overflow register
and the destination, pc, the configuration, and every byte outside the word at the destination's
store target, evaluated after the issued `sub`; every byte, without a destination or with sp below
2. With a registry that routes as the wiring of the block does, that target is evaluated with sp two
lower and the overflow register zero, and flags other than ZERO, SEG and MULTISTATE stay; with every
other registry (which may run the issued `sub` any number of times), flags other than those and
OVERFLOW (41_memory_move.md). -/
def Obligations.PopFrame : Prop :=
  ∀ (p1 : Option Param) (s t : State), exec (.pop p1) s = .next t →
    RegsKept (.sp :: .gpr s.ovfReg :: (p1.map Param.asReg).getD []) s t ∧ t.pc = s.pc ∧ s.SameConfig t ∧
    FlagsKept 0x0063 s t ∧ s.flags &&& ~~~t.flags = 0 ∧ (s.Wired → FlagsKept 0x0062 s t) ∧
    (p1 = none ∨ s.sp.toNat < 2 → BytesKept none s t) ∧
    ∀ p, p1 = some p → 2 ≤ s.sp.toNat →
      (∀ s1, issueSub s = .next s1 → BytesKept (s1.storeTarget? p) s t) ∧
      (s.Wired →
        BytesKept ((({ s with sp := s.sp - 2 }).writeReg (.gpr s.ovfReg) 0).storeTarget? p) s t)

/-- A branch changes nothing but pc (44_branch.md). -/
def Obligations.BranchFrame : Prop :=
  ∀ (i : Instr) (s t : State), i.kind.isBranch = true → exec i s = .next t → t = { s with pc := t.pc }

/-! ## Memory and the locator -/

/-- A word written inside a RAM puts its low byte at the lower address and its high byte at the
next, leaves every other byte of every RAM alone, and reads back (20_memory.md section 1; that this
is what little-endian means is supplied by the spec from general knowledge, G1, log 17). -/
def Obligations.MemWriteStoresBothBytes : Prop :=
  ∀ (s t : State) (u size : Nat) (mem : Memory) (a : Nat) (v : Word),
    s.units[u]? = some (.ram size mem) → mem.wf = true → a + 1 < size →
    t = s.memWrite u (a : Int) v →
    t.byteAt u a = some (v.extractLsb' 0 8) ∧ t.byteAt u (a + 1) = some (v.extractLsb' 8 8) ∧
    (∀ u' a', ¬(u' = u ∧ (a' = a ∨ a' = a + 1)) → t.byteAt u' a' = s.byteAt u' a') ∧
    t.memRead u (a : Int) = (v, t)

/-- Under a well-formed map no access that the locator lets through fails a unit's bounds check
(20_memory.md sections 1 and 4; the condition is the spec's decision D22). -/
def Obligations.WellFormedMapNeverFailsBounds : Prop :=
  ∀ (units : List HwUnit) (n : Node) (k : Access) (a addr : Int) (u : Nat), n.Ok units →
    n.route k a = .hit u addr → ∃ unit, units[u]? = some unit ∧ unit.inBounds addr = true

/-- Ambiguity is eager and absence is lazy, at every locator node: an ambiguous address sets
MULTISTATE at `locate` and, on access, additionally SEG; an absent one sets no flag at `locate` and
SEG on access. -/
def Obligations.AmbiguityEagerAbsenceLazy : Prop :=
  ∀ (s : State) (n : Node) (p : Param) (a : Int), p.isMem = true → address s p = .next a →
    (2 ≤ (n.acceptors a).length →
      ∃ A s', locate n p s = .next (A, s') ∧ s' = { s with flags := s.flags ||| 0x0040 } ∧
        (∃ w t, rd A s' = .next (w, t) ∧ t.flags = s.flags ||| 0x0060) ∧
        ∀ v, ∃ t, wr A v s' = .next t ∧ t.flags = s.flags ||| 0x0060) ∧
    (n.acceptors a = [] →
      ∃ A, locate n p s = .next (A, s) ∧
        (∃ w t, rd A s = .next (w, t) ∧ t.flags = s.flags ||| 0x0020) ∧
        ∀ v, ∃ t, wr A v s = .next t ∧ t.flags = s.flags ||| 0x0020)

/-- Where exactly one registrant accepts an address, `locate` answers at once with that registrant
and the translated address and changes nothing, whatever a child node under it holds. Only an access
through it, where its target is a child node, locates the translated address at the child, and goes
on there (20_memory.md section 3). -/
def Obligations.NestedDelegationIsLazy : Prop :=
  (∀ (s : State) (n : Node) (p : Param) (a : Int) (g : Registrant), p.isMem = true →
    address s p = .next a → n.acceptors a = [g] →
    locate n p s = .next (.resolved g (a - (g.offset.toNat : Int)), s)) ∧
  ∀ (s : State) (g : Registrant) (child : Node) (a : Int) (v : Word), g.target = .child child →
    (g.cap ≠ .writeOnly →
      rd (.resolved g a) s = andThen (locate child (.memC a) s) fun A => rd A.1 A.2) ∧
    (g.cap ≠ .readOnly →
      wr (.resolved g a) v s = andThen (locate child (.memC a) s) fun A => wr A.1 v A.2)

/-- A wrapped location and the form in which the slot level expresses it locate alike in every state
(30_encoding.md section 2, records with no slot form). -/
def Obligations.FlattenedOperandsLocateAlike : Prop :=
  ∀ (p : Param) (s : State), locateRoot p.flattened s = locateRoot p s

/-! ## The host's side -/

/-- `reset()` sets pc to zero and touches nothing else, no flag among it; the next tick fetches the
cell of index 0. -/
def Obligations.HostResetClearsPcOnly : Prop :=
  ∀ s : State, hostMove .reset s = .done { s with pc := 0 } ∧
    ∀ h : 0 < s.prog.length, fetch { s with pc := 0 } = decodeCell s.prog[0]

/-- The host reads and writes memory through the same `locate` as the core, at the root: a mapped
word is read with nothing changed, and written; an ambiguous address sets MULTISTATE and SEG, an
absent one SEG, and then no byte is written. -/
def Obligations.HostProbesHaveTheAccessEffects : Prop :=
  ∀ (s : State) (a : Int) (v : Word),
    hostReadMem s a = andThen (locateRoot (.memC a) s) (fun A => rd A.1 A.2) ∧
    hostWriteMem s a v = andThen (locateRoot (.memC a) s) (fun A => wr A.1 v A.2) ∧
    (∀ w, s.operand? (.memC a) = some w →
      hostReadMem s a = .next (w, s) ∧ hostMove (.readMem a) s = .done s) ∧
    (∀ d, s.place? (.memC a) = some d → hostMove (.writeMem a v) s = .done (s.store d v)) ∧
    (2 ≤ (s.map.acceptors a).length →
      (∃ A, locateRoot (.memC a) s = .next (A, { s with flags := s.flags ||| 0x0040 })) ∧
      (∃ t, hostMove (.readMem a) s = .done t ∧ t.flags = s.flags ||| 0x0060) ∧
      hostMove (.writeMem a v) s = .done { s with flags := s.flags ||| 0x0060 }) ∧
    (s.map.acceptors a = [] →
      (∃ t, hostMove (.readMem a) s = .done t ∧ t.flags = s.flags ||| 0x0020) ∧
      hostMove (.writeMem a v) s = .done { s with flags := s.flags ||| 0x0020 })

/-- The host's register write stores a value in 0..0xFFFF and rejects any other with
ValueOutOfRange, leaving the state as it was (10_state.md sections 1 and 3). -/
def Obligations.HostWriteIsRangeChecked : Prop :=
  ∀ (s : State) (r : RegName) (v : Int),
    (0 ≤ v → v ≤ 0xFFFF → ∃ t, hostMove (.writeReg r v) s = .done t ∧
      ((t.readReg r).toNat : Int) = v ∧ ∀ r', r' ≠ r → t.readReg r' = s.readReg r') ∧
    (v < 0 ∨ 0xFFFF < v → hostMove (.writeReg r v) s = .rejected .valueOutOfRange s)

/-- Linking succeeds exactly when the map holds every name in the program. It then keeps the number
of cells and every slot, and each record keeps its kind and its operands, with each
RegisterReference replaced by the Register the map gives for its name, so that none is left.
Otherwise it fails with an UndefinedReference: the line is that of a record that holds the name, and
the map lacks the name (10_state.md section 3; the line is the instruction's index, log 13; which of
several unmapped names is reported is the model's choice, log 28, and not stated). -/
def Obligations.LinkingRemovesEveryReference : Prop :=
  ∀ (prog : List ProgCell) (names : NameMap),
    ((∃ prog', resolveReferences prog names = .next prog') ↔
      ∀ (n : Nat) (r : Record), prog[n]? = some (.record r) →
        ∀ name ∈ recordReferences r, names.find name ≠ none) ∧
    (∀ prog', resolveReferences prog names = .next prog' →
      prog'.length = prog.length ∧
      (∀ (n : Nat) (S : Slot), prog[n]? = some (.slot S) → prog'[n]? = some (.slot S)) ∧
      ∀ (n : Nat) (r : Record), prog[n]? = some (.record r) →
        prog'[n]? = some (.record
          ⟨r.kind, r.p1.map (withRegisters names), r.p2.map (withRegisters names)⟩) ∧
        ∀ p ∈ r.p1.toList ++ r.p2.toList, (withRegisters names p).linked = true) ∧
    ((∃ f, resolveReferences prog names = .fault f) ↔
      ∃ (n : Nat) (r : Record) (name : String), prog[n]? = some (.record r) ∧
        name ∈ recordReferences r ∧ names.find name = none) ∧
    ∀ f, resolveReferences prog names = .fault f →
      ∃ (name : String) (line : Nat) (r : Record), f = .undefinedReference name line ∧
        prog[line]? = some (.record r) ∧ name ∈ recordReferences r ∧ names.find name = none
end

