-- ==== Sys2Proof/Laws/Outcome.lean ====
section
/-! SUPPORT. How `andThen` carries a stop along. -/

namespace Sys2Proof.Machine

@[simp] theorem andThen_next {α β : Type} (a : α) (k : α → Res β) :
    andThen (.next a) k = k a := rfl

@[simp] theorem andThen_fault {α β : Type} (f : Fault) (k : α → Res β) :
    andThen (.fault f) k = .fault f := rfl

@[simp] theorem andThen_refused {α β : Type} (e : Refusal) (k : α → Res β) :
    andThen (.refused e) k = .refused e := rfl

/-- A sequence answers a next value exactly when both parts do. -/
theorem andThen_eq_next {α β : Type} {r : Res α} {k : α → Res β} {b : β} :
    andThen r k = .next b ↔ ∃ a, r = .next a ∧ k a = .next b := by
  cases r <;> simp [andThen]

/-- A sequence faults exactly when its first part does, or its first part answers and the rest faults. -/
theorem andThen_eq_fault {α β : Type} {r : Res α} {k : α → Res β} {f : Fault} :
    andThen r k = .fault f ↔ r = .fault f ∨ ∃ a, r = .next a ∧ k a = .fault f := by
  cases r <;> simp [andThen]

theorem andThen_eq_refused {α β : Type} {r : Res α} {k : α → Res β} {e : Refusal} :
    andThen r k = .refused e ↔ r = .refused e ∨ ∃ a, r = .next a ∧ k a = .refused e := by
  cases r <;> simp [andThen]

theorem andThen_assoc {α β γ : Type} (r : Res α) (k : α → Res β) (l : β → Res γ) :
    andThen (andThen r k) l = andThen r fun a => andThen (k a) l := by
  cases r <;> rfl

@[simp] theorem raiseStructuralError_ne_next {α : Type} (f : Fault) (a : α) :
    raiseStructuralError f ≠ (.next a : Res α) := by simp [raiseStructuralError]

@[simp] theorem andThen_raise {α β : Type} (f : Fault) (k : α → Res β) :
    andThen (raiseStructuralError f) k = raiseStructuralError f := rfl

/-- The shape check lets a well-formed instruction through, and nothing else. -/
theorem checkShape_eq_next {i : Instr} {k : Res State} {t : State} :
    checkShape i k = .next t ↔ i.WellFormed ∧ k = .next t := by
  unfold checkShape Instr.WellFormed
  cases i.shapeError? <;> simp

@[simp] theorem checkShape_wf {i : Instr} (h : i.WellFormed) (k : Res State) : checkShape i k = k := by
  unfold checkShape; rw [h]

/-- The capability check lets every operand but a Constant through. -/
theorem checkWritable_eq_next {p : Param} {k : Res State} {t : State} :
    checkWritable p k = .next t ↔ p.isConst = false ∧ k = .next t := by
  unfold checkWritable
  cases p.isConst <;> simp

@[simp] theorem checkWritable_ok {p : Param} (h : p.isConst = false) (k : Res State) :
    checkWritable p k = k := by simp [checkWritable, h]

end Sys2Proof.Machine
end

