-- ==== Sys2Proof/Laws/State.lean ====
section
/-! SUPPORT. What each update of the state does to each field, one lemma per field per update, so that no
proof unfolds a record update; reading a register after writing one. -/

namespace Sys2Proof.Machine

/-! ## `setFlags` -/

@[simp] theorem State.setFlags_x (s : State) (m : Word) :
    (s.setFlags m).x = s.x := rfl

@[simp] theorem State.setFlags_sp (s : State) (m : Word) :
    (s.setFlags m).sp = s.sp := rfl

@[simp] theorem State.setFlags_pc (s : State) (m : Word) :
    (s.setFlags m).pc = s.pc := rfl

@[simp] theorem State.setFlags_flags (s : State) (m : Word) :
    (s.setFlags m).flags = s.flags ||| m := rfl

@[simp] theorem State.setFlags_units (s : State) (m : Word) :
    (s.setFlags m).units = s.units := rfl

@[simp] theorem State.setFlags_map (s : State) (m : Word) :
    (s.setFlags m).map = s.map := rfl

@[simp] theorem State.setFlags_prog (s : State) (m : Word) :
    (s.setFlags m).prog = s.prog := rfl

@[simp] theorem State.setFlags_registry (s : State) (m : Word) :
    (s.setFlags m).registry = s.registry := rfl

@[simp] theorem State.setFlags_ovfReg (s : State) (m : Word) :
    (s.setFlags m).ovfReg = s.ovfReg := rfl

@[simp] theorem State.setFlags_draws (s : State) (m : Word) :
    (s.setFlags m).draws = s.draws := rfl

/-! ## `unsetFlags` -/

@[simp] theorem State.unsetFlags_x (s : State) (m : Word) :
    (s.unsetFlags m).x = s.x := rfl

@[simp] theorem State.unsetFlags_sp (s : State) (m : Word) :
    (s.unsetFlags m).sp = s.sp := rfl

@[simp] theorem State.unsetFlags_pc (s : State) (m : Word) :
    (s.unsetFlags m).pc = s.pc := rfl

@[simp] theorem State.unsetFlags_flags (s : State) (m : Word) :
    (s.unsetFlags m).flags = s.flags &&& ~~~m := rfl

@[simp] theorem State.unsetFlags_units (s : State) (m : Word) :
    (s.unsetFlags m).units = s.units := rfl

@[simp] theorem State.unsetFlags_map (s : State) (m : Word) :
    (s.unsetFlags m).map = s.map := rfl

@[simp] theorem State.unsetFlags_prog (s : State) (m : Word) :
    (s.unsetFlags m).prog = s.prog := rfl

@[simp] theorem State.unsetFlags_registry (s : State) (m : Word) :
    (s.unsetFlags m).registry = s.registry := rfl

@[simp] theorem State.unsetFlags_ovfReg (s : State) (m : Word) :
    (s.unsetFlags m).ovfReg = s.ovfReg := rfl

@[simp] theorem State.unsetFlags_draws (s : State) (m : Word) :
    (s.unsetFlags m).draws = s.draws := rfl

/-! ## `clearFlags` -/

@[simp] theorem State.clearFlags_x (s : State) :
    s.clearFlags.x = s.x := rfl

@[simp] theorem State.clearFlags_sp (s : State) :
    s.clearFlags.sp = s.sp := rfl

@[simp] theorem State.clearFlags_pc (s : State) :
    s.clearFlags.pc = s.pc := rfl

@[simp] theorem State.clearFlags_flags (s : State) :
    s.clearFlags.flags = 0 := rfl

@[simp] theorem State.clearFlags_units (s : State) :
    s.clearFlags.units = s.units := rfl

@[simp] theorem State.clearFlags_map (s : State) :
    s.clearFlags.map = s.map := rfl

@[simp] theorem State.clearFlags_prog (s : State) :
    s.clearFlags.prog = s.prog := rfl

@[simp] theorem State.clearFlags_registry (s : State) :
    s.clearFlags.registry = s.registry := rfl

@[simp] theorem State.clearFlags_ovfReg (s : State) :
    s.clearFlags.ovfReg = s.ovfReg := rfl

@[simp] theorem State.clearFlags_draws (s : State) :
    s.clearFlags.draws = s.draws := rfl

/-! ## `setPc` -/

@[simp] theorem State.setPc_x (s : State) (target : Int) :
    (s.setPc target).x = s.x := rfl

@[simp] theorem State.setPc_sp (s : State) (target : Int) :
    (s.setPc target).sp = s.sp := rfl

@[simp] theorem State.setPc_pc (s : State) (target : Int) :
    (s.setPc target).pc = u16 target := rfl

@[simp] theorem State.setPc_flags (s : State) (target : Int) :
    (s.setPc target).flags = s.flags := rfl

@[simp] theorem State.setPc_units (s : State) (target : Int) :
    (s.setPc target).units = s.units := rfl

@[simp] theorem State.setPc_map (s : State) (target : Int) :
    (s.setPc target).map = s.map := rfl

@[simp] theorem State.setPc_prog (s : State) (target : Int) :
    (s.setPc target).prog = s.prog := rfl

@[simp] theorem State.setPc_registry (s : State) (target : Int) :
    (s.setPc target).registry = s.registry := rfl

@[simp] theorem State.setPc_ovfReg (s : State) (target : Int) :
    (s.setPc target).ovfReg = s.ovfReg := rfl

@[simp] theorem State.setPc_draws (s : State) (target : Int) :
    (s.setPc target).draws = s.draws := rfl

/-! ## `setUnit` -/

@[simp] theorem State.setUnit_x (s : State) (u : Nat) (unit : HwUnit) :
    (s.setUnit u unit).x = s.x := rfl

@[simp] theorem State.setUnit_sp (s : State) (u : Nat) (unit : HwUnit) :
    (s.setUnit u unit).sp = s.sp := rfl

@[simp] theorem State.setUnit_pc (s : State) (u : Nat) (unit : HwUnit) :
    (s.setUnit u unit).pc = s.pc := rfl

@[simp] theorem State.setUnit_flags (s : State) (u : Nat) (unit : HwUnit) :
    (s.setUnit u unit).flags = s.flags := rfl

@[simp] theorem State.setUnit_units (s : State) (u : Nat) (unit : HwUnit) :
    (s.setUnit u unit).units = s.units.set u unit := rfl

@[simp] theorem State.setUnit_map (s : State) (u : Nat) (unit : HwUnit) :
    (s.setUnit u unit).map = s.map := rfl

@[simp] theorem State.setUnit_prog (s : State) (u : Nat) (unit : HwUnit) :
    (s.setUnit u unit).prog = s.prog := rfl

@[simp] theorem State.setUnit_registry (s : State) (u : Nat) (unit : HwUnit) :
    (s.setUnit u unit).registry = s.registry := rfl

@[simp] theorem State.setUnit_ovfReg (s : State) (u : Nat) (unit : HwUnit) :
    (s.setUnit u unit).ovfReg = s.ovfReg := rfl

@[simp] theorem State.setUnit_draws (s : State) (u : Nat) (unit : HwUnit) :
    (s.setUnit u unit).draws = s.draws := rfl

/-! ## `failWrite` -/

@[simp] theorem State.failWrite_x (s : State) :
    s.failWrite.x = s.x := rfl

@[simp] theorem State.failWrite_sp (s : State) :
    s.failWrite.sp = s.sp := rfl

@[simp] theorem State.failWrite_pc (s : State) :
    s.failWrite.pc = s.pc := rfl

@[simp] theorem State.failWrite_flags (s : State) :
    s.failWrite.flags = s.flags ||| fSeg := rfl

@[simp] theorem State.failWrite_units (s : State) :
    s.failWrite.units = s.units := rfl

@[simp] theorem State.failWrite_map (s : State) :
    s.failWrite.map = s.map := rfl

@[simp] theorem State.failWrite_prog (s : State) :
    s.failWrite.prog = s.prog := rfl

@[simp] theorem State.failWrite_registry (s : State) :
    s.failWrite.registry = s.registry := rfl

@[simp] theorem State.failWrite_ovfReg (s : State) :
    s.failWrite.ovfReg = s.ovfReg := rfl

@[simp] theorem State.failWrite_draws (s : State) :
    s.failWrite.draws = s.draws := rfl

/-! ## `failRead` -/

@[simp] theorem State.failRead_word (s : State) :
    s.failRead.1 = Config.unresolvedReadValue s.draws := rfl

@[simp] theorem State.failRead_x (s : State) : s.failRead.2.x = s.x := rfl

@[simp] theorem State.failRead_sp (s : State) : s.failRead.2.sp = s.sp := rfl

@[simp] theorem State.failRead_pc (s : State) : s.failRead.2.pc = s.pc := rfl

@[simp] theorem State.failRead_flags (s : State) : s.failRead.2.flags = s.flags ||| fSeg := rfl

@[simp] theorem State.failRead_units (s : State) : s.failRead.2.units = s.units := rfl

@[simp] theorem State.failRead_map (s : State) : s.failRead.2.map = s.map := rfl

@[simp] theorem State.failRead_prog (s : State) : s.failRead.2.prog = s.prog := rfl

@[simp] theorem State.failRead_registry (s : State) : s.failRead.2.registry = s.registry := rfl

@[simp] theorem State.failRead_ovfReg (s : State) : s.failRead.2.ovfReg = s.ovfReg := rfl

@[simp] theorem State.failRead_draws (s : State) : s.failRead.2.draws = s.draws + 1 := rfl

/-! ## `noteAmbiguity` -/

@[simp] theorem State.noteAmbiguity_x (s : State) (m : Bool) : (s.noteAmbiguity m).x = s.x := by
  cases m <;> rfl

@[simp] theorem State.noteAmbiguity_sp (s : State) (m : Bool) : (s.noteAmbiguity m).sp = s.sp := by
  cases m <;> rfl

@[simp] theorem State.noteAmbiguity_pc (s : State) (m : Bool) : (s.noteAmbiguity m).pc = s.pc := by
  cases m <;> rfl

@[simp] theorem State.noteAmbiguity_flags (s : State) (m : Bool) :
    (s.noteAmbiguity m).flags = s.flags ||| (if m then fMultistate else 0) := by
  cases m <;> simp [State.noteAmbiguity]

@[simp] theorem State.noteAmbiguity_units (s : State) (m : Bool) :
    (s.noteAmbiguity m).units = s.units := by
  cases m <;> rfl

@[simp] theorem State.noteAmbiguity_map (s : State) (m : Bool) :
    (s.noteAmbiguity m).map = s.map := by
  cases m <;> rfl

@[simp] theorem State.noteAmbiguity_prog (s : State) (m : Bool) :
    (s.noteAmbiguity m).prog = s.prog := by
  cases m <;> rfl

@[simp] theorem State.noteAmbiguity_registry (s : State) (m : Bool) :
    (s.noteAmbiguity m).registry = s.registry := by
  cases m <;> rfl

@[simp] theorem State.noteAmbiguity_ovfReg (s : State) (m : Bool) :
    (s.noteAmbiguity m).ovfReg = s.ovfReg := by
  cases m <;> rfl

@[simp] theorem State.noteAmbiguity_draws (s : State) (m : Bool) :
    (s.noteAmbiguity m).draws = s.draws := by
  cases m <;> rfl

/-! ## `noteIllegal` and `advancePc` -/

@[simp] theorem noteIllegal_x (i : Instr) (s : State) : (noteIllegal i s).x = s.x := by
  unfold noteIllegal; split <;> rfl

@[simp] theorem noteIllegal_sp (i : Instr) (s : State) : (noteIllegal i s).sp = s.sp := by
  unfold noteIllegal; split <;> rfl

@[simp] theorem noteIllegal_pc (i : Instr) (s : State) : (noteIllegal i s).pc = s.pc := by
  unfold noteIllegal; split <;> rfl

@[simp] theorem noteIllegal_flags (i : Instr) (s : State) :
    (noteIllegal i s).flags = s.flags ||| (if i = .nop then fIllegal else 0) := by
  unfold noteIllegal; split <;> simp

@[simp] theorem noteIllegal_units (i : Instr) (s : State) : (noteIllegal i s).units = s.units := by
  unfold noteIllegal; split <;> rfl

@[simp] theorem noteIllegal_map (i : Instr) (s : State) : (noteIllegal i s).map = s.map := by
  unfold noteIllegal; split <;> rfl

@[simp] theorem noteIllegal_prog (i : Instr) (s : State) : (noteIllegal i s).prog = s.prog := by
  unfold noteIllegal; split <;> rfl

@[simp] theorem noteIllegal_registry (i : Instr) (s : State) :
    (noteIllegal i s).registry = s.registry := by
  unfold noteIllegal; split <;> rfl

@[simp] theorem noteIllegal_ovfReg (i : Instr) (s : State) :
    (noteIllegal i s).ovfReg = s.ovfReg := by
  unfold noteIllegal; split <;> rfl

@[simp] theorem noteIllegal_draws (i : Instr) (s : State) : (noteIllegal i s).draws = s.draws := by
  unfold noteIllegal; split <;> rfl

@[simp] theorem advancePc_x (s : State) : (advancePc s).x = s.x := rfl

@[simp] theorem advancePc_sp (s : State) : (advancePc s).sp = s.sp := rfl

@[simp] theorem advancePc_pc (s : State) : (advancePc s).pc = s.pc + 1 := by
  apply BitVec.eq_of_toNat_eq
  simp [advancePc, u16, BitVec.toNat_ofInt, BitVec.toNat_add]
  omega

@[simp] theorem advancePc_flags (s : State) : (advancePc s).flags = s.flags := rfl

@[simp] theorem advancePc_units (s : State) : (advancePc s).units = s.units := rfl

@[simp] theorem advancePc_map (s : State) : (advancePc s).map = s.map := rfl

@[simp] theorem advancePc_prog (s : State) : (advancePc s).prog = s.prog := rfl

@[simp] theorem advancePc_registry (s : State) : (advancePc s).registry = s.registry := rfl

@[simp] theorem advancePc_ovfReg (s : State) : (advancePc s).ovfReg = s.ovfReg := rfl

@[simp] theorem advancePc_draws (s : State) : (advancePc s).draws = s.draws := rfl

/-! ## `writeReg` and `writeOvf` -/

@[simp] theorem State.writeReg_units (s : State) (r : RegName) (v : Word) :
    (s.writeReg r v).units = s.units := by cases r <;> rfl

@[simp] theorem State.writeOvf_units (s : State) (v : Word) : (s.writeOvf v).units = s.units := rfl

@[simp] theorem State.writeReg_map (s : State) (r : RegName) (v : Word) :
    (s.writeReg r v).map = s.map := by cases r <;> rfl

@[simp] theorem State.writeOvf_map (s : State) (v : Word) : (s.writeOvf v).map = s.map := rfl

@[simp] theorem State.writeReg_prog (s : State) (r : RegName) (v : Word) :
    (s.writeReg r v).prog = s.prog := by cases r <;> rfl

@[simp] theorem State.writeReg_registry (s : State) (r : RegName) (v : Word) :
    (s.writeReg r v).registry = s.registry := by cases r <;> rfl

@[simp] theorem State.writeReg_ovfReg (s : State) (r : RegName) (v : Word) :
    (s.writeReg r v).ovfReg = s.ovfReg := by cases r <;> rfl

@[simp] theorem State.writeOvf_prog (s : State) (v : Word) : (s.writeOvf v).prog = s.prog := rfl

@[simp] theorem State.writeOvf_registry (s : State) (v : Word) :
    (s.writeOvf v).registry = s.registry := rfl

@[simp] theorem State.writeOvf_ovfReg (s : State) (v : Word) :
    (s.writeOvf v).ovfReg = s.ovfReg := rfl

@[simp] theorem State.writeReg_draws (s : State) (r : RegName) (v : Word) :
    (s.writeReg r v).draws = s.draws := by cases r <;> rfl

@[simp] theorem State.writeOvf_draws (s : State) (v : Word) : (s.writeOvf v).draws = s.draws := rfl

@[simp] theorem State.writeOvf_sp (s : State) (v : Word) : (s.writeOvf v).sp = s.sp := rfl

@[simp] theorem State.writeOvf_pc (s : State) (v : Word) : (s.writeOvf v).pc = s.pc := rfl

@[simp] theorem State.writeOvf_flags (s : State) (v : Word) : (s.writeOvf v).flags = s.flags := rfl

@[simp] theorem State.writeOvf_x (s : State) (v : Word) :
    (s.writeOvf v).x = s.x.set s.ovfReg v := rfl

@[simp] theorem State.writeReg_gpr_x (s : State) (i : Fin 8) (v : Word) :
    (s.writeReg (.gpr i) v).x = s.x.set i v := rfl

@[simp] theorem State.writeReg_sp_x (s : State) (v : Word) : (s.writeReg .sp v).x = s.x := rfl

@[simp] theorem State.writeReg_sp_sp (s : State) (v : Word) : (s.writeReg .sp v).sp = v := rfl

@[simp] theorem State.writeReg_gpr_sp (s : State) (i : Fin 8) (v : Word) :
    (s.writeReg (.gpr i) v).sp = s.sp := rfl

/-- An instruction can write neither `pc` nor FLAGS as a register (R18). -/
theorem State.writeReg_pc_of_nameable (s : State) {r : RegName} (h : r.nameable = true) (v : Word) :
    (s.writeReg r v).pc = s.pc := by cases r <;> first | rfl | simp [RegName.nameable] at h

theorem State.writeReg_flags_of_nameable (s : State) {r : RegName} (h : r.nameable = true) (v : Word) :
    (s.writeReg r v).flags = s.flags := by cases r <;> first | rfl | simp [RegName.nameable] at h

/-! ## Reading a register after an update -/

@[simp] theorem State.readReg_writeReg_same (s : State) (r : RegName) (v : Word) :
    (s.writeReg r v).readReg r = v := by
  cases r <;> simp [State.readReg, State.writeReg]

theorem State.readReg_writeReg_ne (s : State) {r r' : RegName} (h : r ≠ r') (v : Word) :
    (s.writeReg r' v).readReg r = s.readReg r := by
  cases r <;> cases r' <;> simp_all [State.readReg, State.writeReg, Vector.getElem_set, Fin.ext_iff]
  omega

/-- Registers that an instruction can name are read from `x` and `sp` alone. -/
theorem State.readReg_congr {s t : State} {r : RegName} (hr : r.nameable = true) (hx : t.x = s.x)
    (hsp : t.sp = s.sp) : t.readReg r = s.readReg r := by
  cases r <;> simp_all [State.readReg, RegName.nameable]

@[simp] theorem State.readReg_setFlags (s : State) {r : RegName} (hr : r.nameable = true) (m : Word) :
    (s.setFlags m).readReg r = s.readReg r := State.readReg_congr hr rfl rfl

@[simp] theorem State.readReg_gpr (s : State) (i : Fin 8) : s.readReg (.gpr i) = s.x[i] := rfl

@[simp] theorem State.readReg_sp (s : State) : s.readReg .sp = s.sp := rfl

/-- Setting flags twice is setting them together (R14). -/
theorem State.setFlags_setFlags (s : State) (m m' : Word) :
    (s.setFlags m).setFlags m' = s.setFlags (m ||| m') := by
  simp [State.setFlags, BitVec.or_assoc]

@[simp] theorem State.setFlags_zero (s : State) : s.setFlags 0 = s := by
  simp [State.setFlags]

end Sys2Proof.Machine
end

