-- ==== Sys2Proof/Laws/Memory.lean ====
section
/-! SUPPORT. The bytes of a RAM: read after write, the canonical form, and what an access to a hardware
unit does. -/

namespace Sys2Proof.Machine

/-! ## One byte -/

@[simp] theorem Memory.read_nil (a : Nat) : Memory.read [] a = 0 := rfl

theorem Memory.read_cons (a' : Nat) (b : Byte) (m : Memory) (a : Nat) :
    Memory.read ((a', b) :: m) a = if a = a' then b else m.read a := rfl

/-- An address below every listed one reads as an unlisted address. -/
theorem Memory.read_of_lt {m : Memory} {lo a : Nat} (h : m.wfFrom lo = true) (ha : a < lo) :
    m.read a = 0 := by
  induction m generalizing lo with
  | nil => rfl
  | cons c m ih =>
    obtain ⟨a', b⟩ := c
    simp only [Memory.wfFrom, Bool.and_eq_true, decide_eq_true_eq] at h
    rw [Memory.read_cons, if_neg (by omega)]
    exact ih h.2 (by omega)

theorem Memory.read_put_ne {a a' : Nat} (h : a ≠ a') (b : Byte) (m : Memory) :
    (Memory.put a' b m).read a = m.read a := by
  unfold Memory.put; split
  · rfl
  · rw [Memory.read_cons, if_neg h]

/-- Writing a byte leaves every other byte alone. -/
theorem Memory.read_write_ne {a a' : Nat} (h : a ≠ a') (b : Byte) (m : Memory) :
    (m.write a' b).read a = m.read a := by
  induction m with
  | nil => exact Memory.read_put_ne h b []
  | cons c m ih =>
    obtain ⟨a'', b''⟩ := c
    unfold Memory.write
    split
    · exact Memory.read_put_ne h b _
    · split
      · rename_i _ h2
        rw [Memory.read_put_ne h, Memory.read_cons, if_neg (by omega)]
      · rw [Memory.read_cons, Memory.read_cons, ih]

/-- A byte that was written reads as the value written, in a memory in canonical form. -/
theorem Memory.read_write_same {m : Memory} {lo : Nat} (h : m.wfFrom lo = true) (a : Nat) (b : Byte) :
    (m.write a b).read a = b := by
  induction m generalizing lo with
  | nil => unfold Memory.write Memory.put; split <;> simp_all [Memory.read_cons]
  | cons c m ih =>
    obtain ⟨a', b'⟩ := c
    simp only [Memory.wfFrom, Bool.and_eq_true, decide_eq_true_eq] at h
    unfold Memory.write
    split
    · rename_i hlt
      unfold Memory.put; split
      · rename_i hb
        rw [Memory.read_cons, if_neg (by omega), Memory.read_of_lt h.2 (by omega), hb]
      · rw [Memory.read_cons, if_pos rfl]
    · split
      · rename_i heq
        unfold Memory.put; split
        · rename_i hb
          rw [Memory.read_of_lt h.2 (by omega), hb]
        · rw [Memory.read_cons, if_pos rfl]
      · rw [Memory.read_cons, if_neg (by assumption)]
        exact ih h.2

/-! ## The canonical form -/

theorem Memory.wfFrom_mono {m : Memory} {lo lo' : Nat} (h : m.wfFrom lo = true) (hl : lo' ≤ lo) :
    m.wfFrom lo' = true := by
  cases m with
  | nil => rfl
  | cons c m =>
    simp only [Memory.wfFrom, Bool.and_eq_true, decide_eq_true_eq] at h ⊢
    exact ⟨⟨by omega, h.1.2⟩, h.2⟩

theorem Memory.wfFrom_put {m : Memory} {a lo : Nat} (h : m.wfFrom (a + 1) = true) (hl : lo ≤ a)
    (b : Byte) : (Memory.put a b m).wfFrom lo = true := by
  unfold Memory.put; split
  · exact Memory.wfFrom_mono h (by omega)
  · simp_all [Memory.wfFrom]

/-- Writing a byte keeps the canonical form. -/
theorem Memory.wfFrom_write {m : Memory} {lo a : Nat} (h : m.wfFrom lo = true) (hl : lo ≤ a) (b : Byte) :
    (m.write a b).wfFrom lo = true := by
  induction m generalizing lo with
  | nil => exact Memory.wfFrom_put rfl hl b
  | cons c m ih =>
    obtain ⟨a', b'⟩ := c
    have h' := h
    simp only [Memory.wfFrom, Bool.and_eq_true, decide_eq_true_eq] at h
    unfold Memory.write
    split
    · refine Memory.wfFrom_put ?_ hl b
      simp only [Memory.wfFrom, Bool.and_eq_true, decide_eq_true_eq]
      exact ⟨⟨by omega, h.1.2⟩, h.2⟩
    · split
      · rename_i heq
        subst heq
        exact Memory.wfFrom_put h.2 hl b
      · simp only [Memory.wfFrom, Bool.and_eq_true, decide_eq_true_eq]
        exact ⟨h.1, ih h.2 (by omega)⟩

theorem Memory.wf_write {m : Memory} (h : m.wf = true) (a : Nat) (b : Byte) : (m.write a b).wf = true :=
  Memory.wfFrom_write h (Nat.zero_le a) b

theorem Memory.wf_writeWord {m : Memory} (h : m.wf = true) (a : Nat) (v : Word) :
    (m.writeWord a v).wf = true :=
  Memory.wf_write (Memory.wf_write h a _) (a + 1) _

/-- Writing a byte inside a RAM lists no address outside it. -/
theorem Memory.bounded_write {m : Memory} {size a : Nat}
    (h : (m.all fun c => decide (c.1 < size)) = true) (ha : a < size) (b : Byte) :
    ((m.write a b).all fun c => decide (c.1 < size)) = true := by
  induction m with
  | nil => unfold Memory.write Memory.put; split <;> simp [ha]
  | cons c m ih =>
    obtain ⟨a', b'⟩ := c
    simp only [List.all_cons, Bool.and_eq_true, decide_eq_true_eq] at h
    unfold Memory.write Memory.put
    split
    · split
      · simp only [List.all_cons, Bool.and_eq_true, decide_eq_true_eq]
        exact h
      · simp only [List.all_cons, Bool.and_eq_true, decide_eq_true_eq]
        exact ⟨ha, h⟩
    · split
      · split
        · exact h.2
        · simp only [List.all_cons, Bool.and_eq_true, decide_eq_true_eq]
          exact ⟨ha, h.2⟩
      · simp only [List.all_cons, Bool.and_eq_true, decide_eq_true_eq]
        exact ⟨h.1, ih h.2⟩

/-! ## Words -/

/-- A word that was written reads back (R41, R42). -/
theorem Memory.readWord_writeWord {m : Memory} (h : m.wf = true) (a : Nat) (v : Word) :
    (m.writeWord a v).readWord a = v := by
  unfold Memory.readWord Memory.writeWord
  rw [Memory.read_write_same (Memory.wf_write h _ _), Memory.read_write_ne (by omega),
    Memory.read_write_same h]
  apply BitVec.eq_of_getLsbD_eq
  intro i hi
  rw [BitVec.getLsbD_append]
  split
  · simp [BitVec.getLsbD_extractLsb']; omega
  · rename_i h8
    simp [BitVec.getLsbD_extractLsb']
    have : 8 + (i - 8) = i := by omega
    rw [this]
    simp; omega

/-- Writing a word leaves every byte outside it alone. -/
theorem Memory.read_writeWord_ne {a a' : Nat} (h : a ≠ a') (h' : a ≠ a' + 1) (v : Word) (m : Memory) :
    (m.writeWord a' v).read a = m.read a := by
  unfold Memory.writeWord
  rw [Memory.read_write_ne h', Memory.read_write_ne h]

/-! ## Units -/

@[simp] theorem HwUnit.inBounds_iff {u : HwUnit} {a : Int} :
    u.inBounds a = true ↔ 0 ≤ a ∧ a + 1 < (u.size : Int) := by simp [HwUnit.inBounds]

/-- A RAM keeps being well-formed when a word inside it is written. -/
theorem HwUnit.wf_writeWord {size : Nat} {mem : Memory} (h : (HwUnit.ram size mem).wf = true) {a : Nat}
    (ha : a + 1 < size) (v : Word) : (HwUnit.ram size (mem.writeWord a v)).wf = true := by
  simp only [HwUnit.wf, Bool.and_eq_true] at h ⊢
  exact ⟨Memory.wf_writeWord h.1 a v,
    Memory.bounded_write (Memory.bounded_write h.2 (by omega) _) ha _⟩

theorem State.byteAt_congr {s t : State} (h : t.units = s.units) (u a : Nat) :
    t.byteAt u a = s.byteAt u a := by simp [State.byteAt, h]

/-- Replacing a unit leaves the bytes of every other unit alone. -/
theorem State.byteAt_setUnit_ne (s : State) {u u' : Nat} (h : u ≠ u') (unit : HwUnit) (a : Nat) :
    (s.setUnit u' unit).byteAt u a = s.byteAt u a := by
  simp [State.byteAt, Ne.symm h]

end Sys2Proof.Machine
end

