-- ==== Sys2Proof/Laws/Effects.lean ====
section
/-! SUPPORT. Everything that locating, reading and writing a memory operand can do to the state, said once
as the relation `Effect`: registers, pc and configuration stay, flags are only added among SEG and
MULTISTATE, the invariant is kept, and no RAM byte changes outside the word stored at `target`. -/

namespace Sys2Proof.Machine

/-- What an access can do to the state. -/
structure Effect (target : Option (Nat × Nat)) (s t : State) : Prop where
  x : t.x = s.x
  sp : t.sp = s.sp
  pc : t.pc = s.pc
  map : t.map = s.map
  prog : t.prog = s.prog
  registry : t.registry = s.registry
  ovfReg : t.ovfReg = s.ovfReg
  layout : t.units.map HwUnit.layout = s.units.map HwUnit.layout
  bytes : BytesKept target s t
  flags : ∃ m : Word, t.flags = s.flags ||| (m &&& accessFlags)
  inv : s.Inv → t.Inv

theorem Effect.refl (target : Option (Nat × Nat)) (s : State) : Effect target s s :=
  ⟨rfl, rfl, rfl, rfl, rfl, rfl, rfl, rfl, fun _ _ _ => rfl, ⟨0, by simp⟩, id⟩

theorem inStored_none (u a : Nat) : ¬inStored none u a := by simp [inStored]

/-- An access that stores nothing, followed by one that may store. -/
theorem Effect.trans {target : Option (Nat × Nat)} {s t v : State} (h : Effect none s t)
    (h' : Effect target t v) : Effect target s v where
  x := h'.x.trans h.x
  sp := h'.sp.trans h.sp
  pc := h'.pc.trans h.pc
  map := h'.map.trans h.map
  prog := h'.prog.trans h.prog
  registry := h'.registry.trans h.registry
  ovfReg := h'.ovfReg.trans h.ovfReg
  layout := h'.layout.trans h.layout
  bytes u a hn := (h'.bytes u a hn).trans (h.bytes u a (inStored_none u a))
  flags := by
    obtain ⟨m, hm⟩ := h.flags
    obtain ⟨m', hm'⟩ := h'.flags
    refine ⟨m ||| m', ?_⟩
    rw [hm', hm, BitVec.or_assoc]
    congr 1
    ext i hi
    simp [Bool.and_or_distrib_right]
  inv := h'.inv ∘ h.inv

/-- An update of the flags among SEG and MULTISTATE, and of the draws, is such an effect. -/
theorem Effect.of_flags {target : Option (Nat × Nat)} {s t : State} (hx : t.x = s.x) (hsp : t.sp = s.sp)
    (hpc : t.pc = s.pc) (hmap : t.map = s.map) (hprog : t.prog = s.prog)
    (hregistry : t.registry = s.registry) (hovf : t.ovfReg = s.ovfReg) (hunits : t.units = s.units)
    (m : Word) (hm : t.flags = s.flags ||| (m &&& accessFlags)) : Effect target s t where
  x := hx
  sp := hsp
  pc := hpc
  map := hmap
  prog := hprog
  registry := hregistry
  ovfReg := hovf
  layout := by rw [hunits]
  bytes u a _ := State.byteAt_congr hunits u a
  flags := ⟨m, hm⟩
  inv h := ⟨by rw [hunits]; exact h.units_wf, by rw [hprog]; exact h.prog_len⟩

theorem Effect.failRead (target : Option (Nat × Nat)) (s : State) : Effect target s s.failRead.2 :=
  .of_flags rfl rfl rfl rfl rfl rfl rfl rfl fSeg (by rw [State.failRead_flags]; congr 1)

theorem Effect.failWrite (target : Option (Nat × Nat)) (s : State) : Effect target s s.failWrite :=
  .of_flags rfl rfl rfl rfl rfl rfl rfl rfl fSeg (by rw [State.failWrite_flags]; congr 1)

theorem Effect.noteAmbiguity (target : Option (Nat × Nat)) (s : State) (m : Bool) :
    Effect target s (s.noteAmbiguity m) :=
  .of_flags (by simp) (by simp) (by simp) (by simp) (by simp) (by simp) (by simp) (by simp)
    (if m then fMultistate else 0)
    (by rw [State.noteAmbiguity_flags]; congr 1; cases m <;> rfl)

theorem Effect.setMultistate (target : Option (Nat × Nat)) (s : State) :
    Effect target s (s.setFlags fMultistate) := Effect.noteAmbiguity target s true

/-- Replacing a unit by one of the same layout, well-formed where the old one was, is an effect, if
no RAM byte outside the stored word changes. -/
theorem Effect.setUnit {target : Option (Nat × Nat)} {s : State} {u : Nat} {unit unit' : HwUnit}
    (hu : s.units[u]? = some unit) (hlayout : unit'.layout = unit.layout)
    (hwf : unit.wf = true → unit'.wf = true)
    (hbytes : ∀ a, ¬inStored target u a → (s.setUnit u unit').byteAt u a = s.byteAt u a) :
    Effect target s (s.setUnit u unit') where
  x := rfl
  sp := rfl
  pc := rfl
  map := rfl
  prog := rfl
  registry := rfl
  ovfReg := rfl
  layout := by
    rw [State.setUnit_units, List.map_set, hlayout]
    apply List.ext_getElem?
    intro i
    rw [List.getElem?_set]
    split
    · rename_i hi
      subst hi
      obtain ⟨hlt, he⟩ := List.getElem?_eq_some_iff.mp hu
      simp [hlt, he]
    · rfl
  bytes v a hn := by
    by_cases hv : v = u
    · subst hv; exact hbytes a hn
    · exact State.byteAt_setUnit_ne s hv unit' a
  flags := ⟨0, by simp⟩
  inv h := ⟨fun w hw => by
      rw [State.setUnit_units] at hw
      rcases List.mem_or_eq_of_mem_set hw with hw | rfl
      · exact h.units_wf w hw
      · exact hwf (h.units_wf unit (List.mem_of_getElem? hu)), h.prog_len⟩

/-- The bytes of the RAM that a unit number names. -/
theorem State.byteAt_ram {s : State} {u size : Nat} {mem : Memory}
    (hu : s.units[u]? = some (.ram size mem)) (a : Nat) :
    s.byteAt u a = if a < size then some (mem.read a) else none := by simp [State.byteAt, hu]

theorem State.getElem?_setUnit {s : State} {u : Nat} {unit unit' : HwUnit}
    (hu : s.units[u]? = some unit) : (s.setUnit u unit').units[u]? = some unit' := by
  rw [State.setUnit_units, List.getElem?_set, if_pos rfl]
  have := List.getElem?_eq_some_iff.mp hu
  simp [this.1]

/-- A MemRead stores nothing (R41, R43). -/
theorem Effect.memRead (s : State) (u : Nat) (addr : Int) : Effect none s (s.memRead u addr).2 := by
  unfold State.memRead
  split
  · exact Effect.failRead none s
  · rename_i unit hu
    split
    · split
      · exact Effect.refl none s
      · refine Effect.setUnit hu rfl (fun _ => rfl) fun a _ => ?_
        rw [State.byteAt, State.byteAt, State.getElem?_setUnit hu, hu]
    · exact Effect.failRead none s

/-- A MemWrite stores at most the two bytes of its word (R42, R43). -/
theorem Effect.memWrite (s : State) (u : Nat) (addr : Int) (v : Word) :
    Effect (some (u, addr.toNat)) s (s.memWrite u addr v) := by
  unfold State.memWrite
  split
  · exact Effect.failWrite _ s
  · rename_i unit hu
    split
    · rename_i hb
      rw [HwUnit.inBounds_iff] at hb
      split
      · rename_i size mem
        simp only [HwUnit.size] at hb
        refine Effect.setUnit hu rfl (fun h => HwUnit.wf_writeWord h (by omega) v) fun a hn => ?_
        rw [State.byteAt_ram hu, State.byteAt_ram (State.getElem?_setUnit hu)]
        have h1 : a ≠ addr.toNat := fun h => hn ⟨u, addr.toNat, rfl, rfl, .inl h⟩
        have h2 : a ≠ addr.toNat + 1 := fun h => hn ⟨u, addr.toNat, rfl, rfl, .inr h⟩
        rw [Memory.read_writeWord_ne h1 h2]
      · refine Effect.setUnit hu rfl (fun _ => rfl) fun a _ => ?_
        rw [State.byteAt, State.byteAt, State.getElem?_setUnit hu, hu]
    · exact Effect.failWrite _ s

/-- A read along a route stores nothing. -/
theorem Effect.readRoute (r : Route) (s : State) : Effect none s (readRoute r s).2 := by
  cases r with
  | hit u addr => exact Effect.memRead s u addr
  | miss m => exact (Effect.noteAmbiguity none s m).trans (Effect.failRead none _)

/-- Where a write along a route stores. -/
def Route.target : Route → Option (Nat × Nat)
  | .hit u addr => some (u, addr.toNat)
  | .miss _ => none

/-- A write along a route stores at most the word at the route's end. -/
theorem Effect.writeRoute (r : Route) (v : Word) (s : State) :
    Effect r.target s (writeRoute r v s) := by
  cases r with
  | hit u addr => exact Effect.memWrite s u addr v
  | miss m => exact (Effect.noteAmbiguity none s m).trans (Effect.failWrite none _)

/-- Locating an address changes no more than MULTISTATE (R52). -/
theorem Effect.locateAt (n : Node) (a : Int) (s : State) : Effect none s (locateAt n a s).2 := by
  unfold Machine.locateAt
  split
  · exact Effect.refl none s
  · exact Effect.refl none s
  · exact Effect.setMultistate none s

end Sys2Proof.Machine
end

