-- ==== Sys2Proof/Laws/Locator.lean ====
section
/-! SUPPORT. The Memory Locator: the route of an access agrees with `locate`, operands locate and read as
their value says, and what `rd` and `wr` of a located operand can do. -/

namespace Sys2Proof.Machine

/-! ## Routes and `locate` (R52, R53) -/

/-- The number of registrants that accept is the length of the list of them. -/
theorem Node.count_eq_length (n : Node) (a : Int) : n.count a = (n.acceptors a).length := by
  induction n with
  | empty => rfl
  | unitReg o v c u rest ih =>
    simp only [Node.count, Node.acceptors, Node.registrants, Registrant.accepts, List.filter_cons] at ih ⊢
    split <;> simp_all [Nat.add_comm]
  | childReg o v c ch rest _ ih =>
    simp only [Node.count, Node.acceptors, Node.registrants, Registrant.accepts, List.filter_cons] at ih ⊢
    split <;> simp_all [Nat.add_comm]

/-- Descending goes through the first registrant that accepts. -/
theorem Node.descend_eq_route {k : Access} {n : Node} {a : Int} {g : Registrant} {l : List Registrant}
    (h : n.acceptors a = g :: l) : n.descend k a = g.route k (a - (g.offset.toNat : Int)) := by
  induction n with
  | empty => simp [Node.acceptors, Node.registrants] at h
  | unitReg o v c u rest ih =>
    simp only [Node.acceptors, Node.registrants, Registrant.accepts, List.filter_cons] at ih h
    unfold Node.descend
    split
    · rename_i hv
      rw [if_pos hv] at h
      obtain ⟨rfl, -⟩ := List.cons.inj h
      rfl
    · rename_i hv
      rw [if_neg hv] at h
      exact ih h
  | childReg o v c ch rest _ ih =>
    simp only [Node.acceptors, Node.registrants, Registrant.accepts, List.filter_cons] at ih h
    unfold Node.descend
    split
    · rename_i hv
      rw [if_pos hv] at h
      obtain ⟨rfl, -⟩ := List.cons.inj h
      rfl
    · rename_i hv
      rw [if_neg hv] at h
      exact ih h

/-- The route of an access, by the registrants that accept the address. -/
theorem Node.route_eq (k : Access) (n : Node) (a : Int) :
    n.route k a = match n.acceptors a with
      | [] => .miss false
      | [g] => g.route k (a - (g.offset.toNat : Int))
      | _ :: _ :: _ => .miss true := by
  have hc := n.count_eq_length a
  unfold Node.route
  rcases h : n.acceptors a with _ | ⟨g, _ | ⟨g', l⟩⟩
  · simp [h] at hc; simp [hc]
  · simp [h] at hc; simp [hc, Node.descend_eq_route h]
  · simp [h] at hc; simp [hc]

/-- Reading through what `locate` returned ends where the route says (R52, R53, R57). -/
theorem rd_locateAt (n : Node) (a : Int) (s : State) :
    rd (locateAt n a s).1 (locateAt n a s).2 = .next (readRoute (n.route .read a) s) := by
  rw [Node.route_eq]
  unfold locateAt
  rcases n.acceptors a with _ | ⟨g, _ | ⟨g', l⟩⟩ <;> rfl

/-- Writing through what `locate` returned ends where the route says (R52, R53, R58). -/
theorem wr_locateAt (n : Node) (a : Int) (v : Word) (s : State) :
    wr (locateAt n a s).1 v (locateAt n a s).2 = .next (writeRoute (n.route .write a) v s) := by
  rw [Node.route_eq]
  unfold locateAt
  rcases n.acceptors a with _ | ⟨g, _ | ⟨g', l⟩⟩ <;> rfl

/-- A located memory accessor is a ResolvedMemory whose routes are the node's, or an UnresolvedMemory. -/
theorem locateAt_accessor (n : Node) (a : Int) (s : State) :
    (∃ g a', (locateAt n a s).1 = .resolved g a' ∧ (locateAt n a s).2 = s ∧
      ∀ k, g.route k a' = n.route k a) ∨
    ((locateAt n a s).1 = .unresolved ∧ ∀ k, ∃ m, n.route k a = .miss m) := by
  unfold locateAt
  rcases h : n.acceptors a with _ | ⟨g, _ | ⟨g', l⟩⟩
  · exact .inr ⟨rfl, fun k => ⟨false, by rw [Node.route_eq, h]⟩⟩
  · exact .inl ⟨g, _, rfl, rfl, fun k => by rw [Node.route_eq, h]⟩
  · exact .inr ⟨rfl, fun k => ⟨true, by rw [Node.route_eq, h]⟩⟩

/-- A route that reaches a unit was located without a flag. -/
theorem locateAt_of_hit {k : Access} {n : Node} {a : Int} {u : Nat} {addr : Int}
    (h : n.route k a = .hit u addr) (s : State) :
    ∃ g a', locateAt n a s = (.resolved g a', s) ∧ ∀ k', g.route k' a' = n.route k' a := by
  rcases locateAt_accessor n a s with ⟨g, a', h1, h2, h3⟩ | ⟨-, h2⟩
  · exact ⟨g, a', Prod.ext h1 h2, h3⟩
  · obtain ⟨m, hm⟩ := h2 k
    rw [hm] at h; cases h

/-! ## `locate` of an operand -/

theorem locate_of_isMem {p : Param} (hp : p.isMem = true) (n : Node) (s : State) :
    locate n p s = andThen (address s p) fun a => .next (locateAt n a s) := by
  cases p <;> first | rfl | simp [Param.isMem] at hp

/-- What `locate` of an operand answers: a direct operand unchanged, or a located address (R52). -/
theorem locateRoot_cases {p : Param} {s : State} {r : Accessor × State}
    (h : locateRoot p s = .next r) :
    (∃ c, p = .const c ∧ r = (.const c, s)) ∨ (∃ g, p = .reg g ∧ r = (.reg g, s)) ∨
    (∃ name, p = .regRef name ∧ r = (.regRef name, s)) ∨
    (p.isMem = true ∧ ∃ a, address s p = .next a ∧ r = locateAt s.map a s) := by
  unfold locateRoot at h
  by_cases hp : p.isMem = true
  · rw [locate_of_isMem hp, andThen_eq_next] at h
    obtain ⟨a, ha, hr⟩ := h
    exact .inr (.inr (.inr ⟨hp, a, ha, by cases hr; rfl⟩))
  · cases p <;> simp_all [Param.isMem, locate]

/-- Locating an operand changes no more than MULTISTATE (R52). -/
theorem Effect.locateRoot {p : Param} {s : State} {r : Accessor × State}
    (h : locateRoot p s = .next r) : Effect none s r.2 := by
  rcases locateRoot_cases h with ⟨c, rfl, rfl⟩ | ⟨g, rfl, rfl⟩ | ⟨n, rfl, rfl⟩ | ⟨-, a, -, rfl⟩
  · exact .refl none s
  · exact .refl none s
  · exact .refl none s
  · exact Effect.locateAt _ a s

/-- Reading through an accessor stores nothing (R57). -/
theorem Effect.rd {A : Accessor} {s : State} {r : Word × State} (h : rd A s = .next r) :
    Effect none s r.2 := by
  cases A with
  | const c => cases h; exact .refl none s
  | reg g => cases h; exact .refl none s
  | regRef n => cases h
  | resolved g a => cases h; exact Effect.readRoute _ s
  | unresolved => cases h; exact Effect.failRead none s

/-- Writing through the accessor of an operand, after effects that stored nothing: the operand is a
register and that register is written, or it is a MemoryLocation and at most the word at its store
target changes (R58). -/
theorem wr_cases {p : Param} {s s' : State} {r : Accessor × State} (hl : locateRoot p s = .next r)
    {v : Word} {t : State} (h : wr r.1 v s' = .next t) :
    (∃ g, p = .reg g ∧ t = s'.writeReg g v) ∨
    (p.isMem = true ∧ Effect (s.storeTarget? p) s' t) := by
  rcases locateRoot_cases hl with ⟨c, rfl, rfl⟩ | ⟨g, rfl, rfl⟩ | ⟨n, rfl, rfl⟩ | ⟨hp, a, ha, rfl⟩
  · cases h
  · cases h; exact .inl ⟨g, rfl, rfl⟩
  · cases h
  · refine .inr ⟨hp, ?_⟩
    have ht : s.storeTarget? p = (s.map.route .write a).target := by
      unfold State.storeTarget?
      rw [if_pos hp, ha]
      dsimp only
      cases s.map.route .write a <;> rfl
    rw [ht]
    rcases locateAt_accessor s.map a s with ⟨g, a', h1, -, h3⟩ | ⟨h1, h2⟩
    · rw [h1] at h
      cases h
      rw [h3]
      exact Effect.writeRoute _ v s'
    · rw [h1] at h
      cases h
      exact Effect.failWrite _ s'

/-! ## Linked operands never stop (R47, R57) -/

mutual

/-- A linked Parameter has a value (R47). -/
theorem value_of_linked (s : State) : ∀ p : Param, p.linked = true → ∃ a, value s p = .next a
  | .const c, _ => ⟨_, rfl⟩
  | .reg r, _ => ⟨_, rfl⟩
  | .regRef n, h => by simp [Param.linked] at h
  | .memC a, _ => ⟨_, rfl⟩
  | .memAbs q, h => value_of_linked s q h
  | .memRel t0 rest, h => by
    simp only [Param.linked, Bool.and_eq_true] at h
    obtain ⟨a, ha⟩ := value_of_linked s t0 h.1
    obtain ⟨b, hb⟩ := foldTerms_of_linked s rest a h.2
    exact ⟨b, by rw [value, ha, andThen_next, hb]⟩

/-- The fold of linked terms has a value (R49). -/
theorem foldTerms_of_linked (s : State) :
    ∀ (rest : RelTail) (acc : Int), rest.linked = true → ∃ a, foldTerms s acc rest = .next a
  | .nil, acc, _ => ⟨acc, rfl⟩
  | .cons op t rest, acc, h => by
    simp only [RelTail.linked, Bool.and_eq_true] at h
    obtain ⟨v, hv⟩ := value_of_linked s t h.1
    obtain ⟨b, hb⟩ := foldTerms_of_linked s rest (RelOp.apply op acc v) h.2
    exact ⟨b, by rw [foldTerms, hv, andThen_next, hb]⟩

end

/-- A linked operand is located, as an accessor that can be read; it can be written unless the operand
is a Constant. -/
theorem locateRoot_of_linked {p : Param} (hp : p.linked = true) (s : State) :
    ∃ r, locateRoot p s = .next r ∧ (∀ s', ∃ w, rd r.1 s' = .next w) ∧
      (p.isConst = false → ∀ v s', ∃ t, wr r.1 v s' = .next t) := by
  by_cases hm : p.isMem = true
  · obtain ⟨a, ha⟩ := value_of_linked s p hp
    refine ⟨locateAt s.map a s, ?_, ?_, ?_⟩
    · unfold locateRoot
      rw [locate_of_isMem hm, address, ha, andThen_next]
    · intro s'
      rcases locateAt_accessor s.map a s with ⟨g, a', h1, -, -⟩ | ⟨h1, -⟩ <;> rw [h1] <;>
        exact ⟨_, rfl⟩
    · intro _ v s'
      rcases locateAt_accessor s.map a s with ⟨g, a', h1, -, -⟩ | ⟨h1, -⟩ <;> rw [h1] <;>
        exact ⟨_, rfl⟩
  · cases p with
    | const c => exact ⟨_, rfl, fun s' => ⟨_, rfl⟩, fun h => by simp [Param.isConst] at h⟩
    | reg r => exact ⟨_, rfl, fun s' => ⟨_, rfl⟩, fun _ v s' => ⟨_, rfl⟩⟩
    | regRef n => simp [Param.linked] at hp
    | memC a => simp [Param.isMem] at hm
    | memAbs q => simp [Param.isMem] at hm
    | memRel t r => simp [Param.isMem] at hm

/-! ## What values depend on (R47, R18) -/

mutual

/-- The value of an admissible Parameter depends on the nameable registers alone. -/
theorem value_congr {s t : State} (hx : t.x = s.x) (hsp : t.sp = s.sp) :
    ∀ p : Param, p.admissible = true → value t p = value s p
  | .const _, _ => rfl
  | .reg r, h => by rw [value, value, State.readReg_congr h hx hsp]
  | .regRef _, _ => rfl
  | .memC _, _ => rfl
  | .memAbs q, h => value_congr hx hsp q h
  | .memRel t0 rest, h => by
    simp only [Param.admissible, Bool.and_eq_true] at h
    rw [value, value, value_congr hx hsp t0 h.1]
    congr 1
    funext acc
    exact foldTerms_congr hx hsp rest acc h.2

/-- The fold of admissible terms depends on the nameable registers alone. -/
theorem foldTerms_congr {s t : State} (hx : t.x = s.x) (hsp : t.sp = s.sp) :
    ∀ (rest : RelTail) (acc : Int), rest.admissible = true →
      foldTerms t acc rest = foldTerms s acc rest
  | .nil, _, _ => rfl
  | .cons op p rest, acc, h => by
    simp only [RelTail.admissible, Bool.and_eq_true] at h
    rw [foldTerms, foldTerms, value_congr hx hsp p h.1]
    congr 1
    funext v
    exact foldTerms_congr hx hsp rest (RelOp.apply op acc v) h.2

end

/-- The store target of an admissible operand depends on the nameable registers and the map alone. -/
theorem storeTarget_congr {s t : State} (hx : t.x = s.x) (hsp : t.sp = s.sp) (hmap : t.map = s.map)
    {p : Param} (hp : p.admissible = true) : t.storeTarget? p = s.storeTarget? p := by
  simp only [State.storeTarget?, address, value_congr hx hsp p hp, hmap]

/-- The operands of a well-formed instruction are admissible (R18). -/
theorem admissible_of_wellFormed {i : Instr} (h : i.WellFormed) {p : Param} (hp : p ∈ i.operands) :
    p.admissible = true := by
  unfold Instr.WellFormed Instr.shapeError? at h
  split at h
  · cases h
  · rename_i hn
    simp only [List.any_eq_true, not_exists, not_and] at hn
    simpa using hn p hp

/-! ## Clean operands -/

/-- A RAM word that exists is what MemRead returns, with nothing else changed (R41). -/
theorem State.memRead_of_ramWord {s : State} {u : Nat} {addr : Int} {w : Word}
    (h : s.ramWord? u addr = some w) : s.memRead u addr = (w, s) := by
  unfold State.ramWord? at h
  unfold State.memRead
  split at h
  · rename_i size mem hu
    split at h
    · rename_i hb
      rw [hu]
      simp only [if_pos hb]
      cases h; rfl
    · cases h
  · cases h
  · cases h

/-- An operand that reads clean is located and read with nothing changed. -/
theorem locateRoot_of_operand {s : State} {p : Param} {w : Word} (h : s.operand? p = some w) :
    ∃ A, locateRoot p s = .next (A, s) ∧ rd A s = .next (w, s) := by
  by_cases hp : p.isMem = true
  · have h' : ∃ a u addr, address s p = .next a ∧ s.map.route .read a = .hit u addr ∧
        s.ramWord? u addr = some w := by
      cases p <;> first
        | (simp [Param.isMem] at hp; done)
        | (simp only [State.operand?] at h
           split at h
           · rename_i a ha
             split at h
             · rename_i u addr hr
               exact ⟨a, u, addr, ha, hr, h⟩
             · cases h
           · cases h
           · cases h)
    obtain ⟨a, u, addr, ha, hr, hw⟩ := h'
    obtain ⟨g, a', hl, hg⟩ := locateAt_of_hit hr s
    refine ⟨.resolved g a', ?_, ?_⟩
    · unfold locateRoot; rw [locate_of_isMem hp, ha, andThen_next, hl]
    · rw [rd, hg, hr, readRoute, State.memRead_of_ramWord hw]
  · cases p <;> simp_all [State.operand?, Param.isMem, locateRoot, locate, rd]

/-- A destination that names a place is located with nothing changed, and writing it stores there. -/
theorem locateRoot_of_place {s : State} {p : Param} {d : Place} (h : s.place? p = some d) :
    ∃ A, locateRoot p s = .next (A, s) ∧ ∀ v, wr A v s = .next (s.store d v) := by
  by_cases hp : p.isMem = true
  · have h' : ∃ a u addr, address s p = .next a ∧ s.map.route .write a = .hit u addr ∧
        (s.ramWord? u addr).isSome = true ∧ d = .ram u addr.toNat := by
      cases p <;> first
        | (simp [Param.isMem] at hp; done)
        | (simp only [State.place?] at h
           split at h
           · rename_i a ha
             split at h
             · rename_i u addr hr
               split at h
               · rename_i hw
                 cases h
                 exact ⟨a, u, addr, ha, hr, hw, rfl⟩
               · cases h
             · cases h
           · cases h
           · cases h)
    obtain ⟨a, u, addr, ha, hr, hw, rfl⟩ := h'
    obtain ⟨g, a', hl, hg⟩ := locateAt_of_hit hr s
    refine ⟨.resolved g a', ?_, fun v => ?_⟩
    · unfold locateRoot; rw [locate_of_isMem hp, ha, andThen_next, hl]
    · have h0 : (addr.toNat : Int) = addr := by
        unfold State.ramWord? at hw
        split at hw
        · split at hw
          · rename_i hb
            rw [HwUnit.inBounds_iff] at hb
            omega
          · simp at hw
        · simp at hw
        · simp at hw
      rw [wr, hg, hr, writeRoute, State.store, h0]
  · cases p <;> simp_all [State.place?, Param.isMem, locateRoot, locate]
    all_goals (subst h; simp [wr, State.store])

/-- A place is not a Constant's. -/
theorem isConst_of_place {s : State} {p : Param} {d : Place} (h : s.place? p = some d) :
    p.isConst = false := by
  cases p <;> simp_all [State.place?, Param.isConst]

end Sys2Proof.Machine
end

