-- ==== Sys2Proof/Laws/Routing.lean ====
section
/-! SUPPORT. What the dispatcher can do: with any registry it runs the instruction some number of times or
stops, and with a registry that routes as R106 does it runs the instruction once (R105 to R107). -/

namespace Sys2Proof.Machine

@[simp] theorem forwardTo_nil (execute : ExecUnit → State → Res State) (s : State) :
    forwardTo execute [] s = .next s := rfl

@[simp] theorem forwardTo_cons (execute : ExecUnit → State → Res State) (u : ExecUnit)
    (rest : List ExecUnit) (s : State) :
    forwardTo execute (u :: rest) s =
      andThen (execute u s) fun s' => forwardTo execute rest s' := rfl

/-- A unit lets the instruction run, if its family has the kind (R107). -/
theorem executeAt_eq_next {u : ExecUnit} {i : Instr} {run : State → Res State} {s t : State} :
    executeAt u i run s = .next t ↔ i.kind ∈ u.family ∧ run s = .next t := by
  unfold executeAt
  split <;> simp [*]

@[simp] theorem executeAt_own {u : ExecUnit} {i : Instr} (h : i.kind ∈ u.family)
    (run : State → Res State) (s : State) : executeAt u i run s = run s := by
  simp [executeAt, h]

theorem executeAt_foreign {u : ExecUnit} {i : Instr} (h : i.kind ∉ u.family)
    (run : State → Res State) (s : State) :
    executeAt u i run s = .fault .unsupportedInstruction := by
  simp [executeAt, h, raiseStructuralError]

/-- What holds before a dispatch and is kept by every run of the instruction holds after it, whatever the
registry. -/
theorem dispatchRun_induct {P : State → Prop} {i : Instr} {run : State → Res State}
    (hrun : ∀ s t, P s → run s = .next t → P t) {s t : State} (h : dispatchRun i run s = .next t)
    (hs : P s) : P t := by
  unfold dispatchRun at h
  generalize s.registry.units i = units at h
  induction units generalizing s with
  | nil => cases h; exact hs
  | cons u rest ih =>
    rw [forwardTo_cons, andThen_eq_next] at h
    obtain ⟨s', hu, h⟩ := h
    exact ih (hrun s s' hs (executeAt_eq_next.mp hu).2) h

/-- A dispatch to units that all hold the kind completes, if the instruction does. -/
theorem dispatchRun_completes {i : Instr} {run : State → Res State} {s : State}
    (hp : s.registry.Proper) (hrun : ∀ s, ∃ t, run s = .next t) : ∃ t, dispatchRun i run s = .next t := by
  have h := hp i
  unfold dispatchRun
  generalize s.registry.units i = units at h
  generalize s = s0
  induction units generalizing s0 with
  | nil => exact ⟨s0, rfl⟩
  | cons u rest ih =>
    obtain ⟨t, ht⟩ := hrun s0
    rw [forwardTo_cons, executeAt_own (h u List.mem_cons_self), ht, andThen_next]
    exact ih (fun v hv => h v (List.mem_cons_of_mem _ hv)) t

/-- A dispatch stops only as the instruction does, or because a unit was handed a foreign kind (R107). -/
theorem dispatchRun_fault {i : Instr} {run : State → Res State} {s : State} {f : Fault}
    (h : dispatchRun i run s = .fault f) :
    (∃ s', run s' = .fault f) ∨
    (f = .unsupportedInstruction ∧ ∃ u ∈ s.registry.units i, i.kind ∉ u.family) := by
  unfold dispatchRun at h
  generalize s.registry.units i = units at h
  induction units generalizing s with
  | nil => cases h
  | cons u rest ih =>
    by_cases hu : i.kind ∈ u.family
    · rw [forwardTo_cons, executeAt_own hu, andThen_eq_fault] at h
      rcases h with h | ⟨s', -, h⟩
      · exact .inl ⟨s, h⟩
      · rcases ih h with h | ⟨hf, v, hv, hk⟩
        · exact .inl h
        · exact .inr ⟨hf, v, List.mem_cons_of_mem _ hv, hk⟩
    · rw [forwardTo_cons, executeAt_foreign hu] at h
      cases h
      exact .inr ⟨rfl, u, List.mem_cons_self, hu⟩

/-- A dispatch is refused only where the instruction is. -/
theorem dispatchRun_refused {i : Instr} {run : State → Res State} {s : State} {e : Refusal}
    (h : dispatchRun i run s = .refused e) : ∃ s', run s' = .refused e := by
  unfold dispatchRun at h
  generalize s.registry.units i = units at h
  induction units generalizing s with
  | nil => cases h
  | cons u rest ih =>
    rw [forwardTo_cons, andThen_eq_refused] at h
    rcases h with h | ⟨s', -, h⟩
    · unfold executeAt at h
      split at h
      · exact ⟨s, h⟩
      · cases h
    · exact ih h

/-! ## The wiring of the block (R106) -/

/-- The wiring of R106 routes every instruction to the unit of its family. -/
theorem wiring_units (i : Instr) : wiring.units i = Kind.familyUnits i.kind := by
  cases i <;> rfl

/-- What routes as the wiring of R106 hands no unit a foreign kind. -/
theorem State.Wired.proper {s : State} (h : s.Wired) : s.registry.Proper := by
  intro i u hu
  rw [h i, Kind.familyUnits, List.mem_filter] at hu
  exact of_decide_eq_true hu.2

theorem State.Wired.congr {s t : State} (h : s.Wired) (hr : t.registry = s.registry) : t.Wired := by
  intro i
  rw [hr]
  exact h i

/-- Every instruction of the 23 kinds runs exactly once (R106). -/
theorem dispatchRun_wired {s : State} (h : s.Wired) {i : Instr} (hi : i.kind ≠ .nop)
    (run : State → Res State) : dispatchRun i run s = run s := by
  have key : ∃ u, Kind.familyUnits i.kind = [u] ∧ i.kind ∈ u.family := by
    generalize i.kind = k at hi
    cases k <;> first | exact absurd rfl hi | exact ⟨_, rfl, by decide⟩
  obtain ⟨u, hu, hk⟩ := key
  unfold dispatchRun
  rw [h i, hu, forwardTo_cons, executeAt_own hk]
  cases run s <;> rfl

/-- `nop` is in no family, so it is dropped (R106). -/
theorem dispatchRun_nop {s : State} (h : s.registry.Proper) (run : State → Res State) :
    dispatchRun .nop run s = .next s := by
  have : s.registry.units .nop = [] := by
    apply List.eq_nil_iff_forall_not_mem.mpr
    intro u hu
    have := h .nop u hu
    cases u <;> simp [ExecUnit.family, Instr.kind] at this
  unfold dispatchRun
  rw [this, forwardTo_nil]

end Sys2Proof.Machine
end

