-- ==== Sys2Proof/Laws/Instructions.lean ====
section
/-! SUPPORT. One lemma for each shared operation that the meanings are written in: what it does on clean
operands, and what it can do at all. -/

namespace Sys2Proof.Machine

/-! ## Writing a located destination -/

/-- `t` is the state after word `v` was written through operand `p`, located in `s`, with nothing but
accesses before it. -/
def Stored (p : Param) (v : Word) (s t : State) : Prop :=
  (∃ g s', p = .reg g ∧ Effect none s s' ∧ t = s'.writeReg g v) ∨
  (p.isMem = true ∧ Effect (s.storeTarget? p) s t)

/-- What writing through a located operand can do (R58). -/
theorem stored_of_wr {p : Param} {s s' : State} {r : Accessor × State} (hl : locateRoot p s = .next r)
    (he : Effect none s s') {v : Word} {t : State} (h : wr r.1 v s' = .next t) : Stored p v s t := by
  rcases wr_cases hl h with ⟨g, rfl, rfl⟩ | ⟨hp, hw⟩
  · exact .inl ⟨g, s', rfl, he, rfl⟩
  · exact .inr ⟨hp, he.trans hw⟩

theorem Stored.map {p : Param} {v : Word} {s t : State} (h : Stored p v s t) : t.map = s.map := by
  rcases h with ⟨g, s', -, he, rfl⟩ | ⟨-, he⟩
  · simpa using he.map
  · exact he.map

theorem Stored.prog {p : Param} {v : Word} {s t : State} (h : Stored p v s t) : t.prog = s.prog := by
  rcases h with ⟨g, s', -, he, rfl⟩ | ⟨-, he⟩
  · simpa using he.prog
  · exact he.prog

theorem Stored.registry {p : Param} {v : Word} {s t : State} (h : Stored p v s t) :
    t.registry = s.registry := by
  rcases h with ⟨g, s', -, he, rfl⟩ | ⟨-, he⟩
  · simpa using he.registry
  · exact he.registry

theorem Stored.ovfReg {p : Param} {v : Word} {s t : State} (h : Stored p v s t) :
    t.ovfReg = s.ovfReg := by
  rcases h with ⟨g, s', -, he, rfl⟩ | ⟨-, he⟩
  · simpa using he.ovfReg
  · exact he.ovfReg

theorem Stored.layout {p : Param} {v : Word} {s t : State} (h : Stored p v s t) :
    t.units.map HwUnit.layout = s.units.map HwUnit.layout := by
  rcases h with ⟨g, s', -, he, rfl⟩ | ⟨-, he⟩
  · simpa using he.layout
  · exact he.layout

theorem Stored.inv {p : Param} {v : Word} {s t : State} (h : Stored p v s t) (hi : s.Inv) : t.Inv := by
  rcases h with ⟨g, s', -, he, rfl⟩ | ⟨-, he⟩
  · have := he.inv hi
    exact ⟨by simpa using this.units_wf, by simpa using this.prog_len⟩
  · exact he.inv hi

theorem Stored.bytes {p : Param} {v : Word} {s t : State} (h : Stored p v s t) :
    BytesKept (s.storeTarget? p) s t := by
  rcases h with ⟨g, s', rfl, he, rfl⟩ | ⟨-, he⟩
  · intro u a _
    rw [State.byteAt_congr (State.writeReg_units s' g v)]
    exact he.bytes u a (inStored_none u a)
  · exact he.bytes

theorem Stored.pc {p : Param} {v : Word} {s t : State} (hp : p.admissible = true) (h : Stored p v s t) :
    t.pc = s.pc := by
  rcases h with ⟨g, s', rfl, he, rfl⟩ | ⟨-, he⟩
  · rw [State.writeReg_pc_of_nameable s' hp, he.pc]
  · exact he.pc

theorem Stored.flags {p : Param} {v : Word} {s t : State} (hp : p.admissible = true)
    (h : Stored p v s t) : ∃ m : Word, t.flags = s.flags ||| (m &&& accessFlags) := by
  rcases h with ⟨g, s', rfl, he, rfl⟩ | ⟨-, he⟩
  · rw [State.writeReg_flags_of_nameable s' hp]
    exact he.flags
  · exact he.flags

/-- Only the register that the operand names is written. -/
theorem Stored.regs {p : Param} {v : Word} {s t : State} (h : Stored p v s t) :
    RegsKept p.asReg s t := by
  rcases h with ⟨g, s', rfl, he, rfl⟩ | ⟨-, he⟩
  · intro r hr hg
    rw [State.readReg_writeReg_ne s' (by simpa [Param.asReg] using hg)]
    exact State.readReg_congr hr he.x he.sp
  · intro r hr _
    exact State.readReg_congr hr he.x he.sp

/-! ## Reading the operands (R110, R140) -/

/-- Reading the operands stores nothing, and the first accessor is parameter-1 as located. -/
theorem readOperands_effect {p1 p2 : Param} {s : State} {o : Operands}
    (h : readOperands p1 p2 s = .next o) :
    Effect none s o.s ∧ ∃ r, locateRoot p1 s = .next r ∧ r.1 = o.A := by
  unfold readOperands at h
  simp only [andThen_eq_next] at h
  obtain ⟨A, hA, B, hB, a, ha, b, hb, ho⟩ := h
  cases ho
  exact ⟨(((Effect.locateRoot hA).trans (Effect.locateRoot hB)).trans (Effect.rd ha)).trans
    (Effect.rd hb), A, hA, rfl⟩

/-- Operands that read clean are read with nothing changed. -/
theorem readOperands_clean {p1 p2 : Param} {s : State} {a b : Word} (ha : s.operand? p1 = some a)
    (hb : s.operand? p2 = some b) :
    ∃ A, readOperands p1 p2 s = .next ⟨A, a, b, s⟩ ∧ locateRoot p1 s = .next (A, s) := by
  obtain ⟨A, hA, hrA⟩ := locateRoot_of_operand ha
  obtain ⟨B, hB, hrB⟩ := locateRoot_of_operand hb
  exact ⟨A, by simp [readOperands, hA, hB, hrA, hrB], hA⟩

/-- Linked operands are read. -/
theorem readOperands_of_linked {p1 p2 : Param} (h1 : p1.linked = true) (h2 : p2.linked = true)
    (s : State) : ∃ o, readOperands p1 p2 s = .next o ∧
      (p1.isConst = false → ∀ v s', ∃ t, wr o.A v s' = .next t) := by
  obtain ⟨A, hA, hrA, hwA⟩ := locateRoot_of_linked h1 s
  obtain ⟨B, hB, hrB, -⟩ := locateRoot_of_linked h2 A.2
  obtain ⟨a, ha⟩ := hrA B.2
  obtain ⟨b, hb⟩ := hrB a.2
  exact ⟨⟨A.1, a.1, b.1, b.2⟩, by simp [readOperands, hA, hB, ha, hb], hwA⟩

/-! ## The shapes of the ALU -/

/-- The state after an overflow-tracked result with halves `lo`, `hi` went to a place (R142). -/
def trackedResult (s : State) (lo hi : Word) : State :=
  (s.writeOvf hi).setFlags (trackedFlags lo hi)

/-- What an overflow-tracked instruction does on clean operands (R142). -/
theorem trackedOp_clean {W : Word → Word → Int} {p1 p2 : Param} {s : State} {a b : Word} {d : Place}
    (ha : s.operand? p1 = some a) (hb : s.operand? p2 = some b) (hd : s.place? p1 = some d) :
    trackedOp W p1 p2 s =
      .next (trackedResult (s.store d (lo16 (W a b))) (lo16 (W a b)) (hi16 (W a b))) := by
  obtain ⟨A, hr, hA⟩ := readOperands_clean ha hb
  obtain ⟨A', hA', hw⟩ := locateRoot_of_place hd
  rw [hA] at hA'
  cases hA'
  simp [trackedOp, isConst_of_place hd, hr, overflowTracked, hw, trackedResult]

/-- What an overflow-tracked instruction can do: it stores a word through parameter-1, then writes
`x[OVF_REG]` and the flags of that word and the overflow word. -/
theorem trackedOp_cases {W : Word → Word → Int} {p1 p2 : Param} {s t : State}
    (h : trackedOp W p1 p2 s = .next t) :
    ∃ a b s', Stored p1 (lo16 (W a b)) s s' ∧ t = trackedResult s' (lo16 (W a b)) (hi16 (W a b)) := by
  unfold trackedOp at h
  rw [checkWritable_eq_next, andThen_eq_next] at h
  obtain ⟨-, o, ho, h⟩ := h
  obtain ⟨he, r, hr, hA⟩ := readOperands_effect ho
  unfold overflowTracked at h
  rw [andThen_eq_next] at h
  obtain ⟨s', hw, ht⟩ := h
  rw [← hA] at hw
  exact ⟨o.a, o.b, s', stored_of_wr hr he hw, by cases ht; rfl⟩

/-- An overflow-tracked instruction with linked operands and no Constant as its destination completes. -/
theorem trackedOp_completes {p1 p2 : Param} (h1 : p1.linked = true) (h2 : p2.linked = true)
    (hc : p1.isConst = false) (W : Word → Word → Int) (s : State) :
    ∃ t, trackedOp W p1 p2 s = .next t := by
  obtain ⟨o, ho, hw⟩ := readOperands_of_linked h1 h2 s
  obtain ⟨t, ht⟩ := hw hc (lo16 (W o.a o.b)) o.s
  simp only [trackedOp, checkWritable_ok hc, ho, andThen_next, overflowTracked, ht]
  exact ⟨_, rfl⟩

/-- A division by zero on clean operands sets DIV_ZERO and nothing else (R143). -/
theorem divideOp_zero {W : Word → Word → Int} {p1 p2 : Param} {s : State} {a : Word}
    (hc : p1.isConst = false) (ha : s.operand? p1 = some a) (hb : s.operand? p2 = some 0) :
    divideOp W p1 p2 s = .next (s.setFlags fDivZero) := by
  obtain ⟨A, hr, -⟩ := readOperands_clean ha hb
  simp [divideOp, hc, hr]

/-- A division by a nonzero divisor is the overflow-tracked shape (R143). -/
theorem divideOp_clean {W : Word → Word → Int} {p1 p2 : Param} {s : State} {a b : Word} {d : Place}
    (ha : s.operand? p1 = some a) (hb : s.operand? p2 = some b) (hb0 : b ≠ 0)
    (hd : s.place? p1 = some d) :
    divideOp W p1 p2 s =
      .next (trackedResult (s.store d (lo16 (W a b))) (lo16 (W a b)) (hi16 (W a b))) := by
  rw [← trackedOp_clean ha hb hd]
  obtain ⟨A, hr, -⟩ := readOperands_clean ha hb
  simp only [divideOp, trackedOp, hr, andThen_next, if_neg hb0]

/-- What a division can do: DIV_ZERO after accesses that store nothing, or the overflow-tracked shape. -/
theorem divideOp_cases {W : Word → Word → Int} {p1 p2 : Param} {s t : State}
    (h : divideOp W p1 p2 s = .next t) :
    (∃ s', Effect none s s' ∧ t = s'.setFlags fDivZero) ∨
    ∃ a b s', Stored p1 (lo16 (W a b)) s s' ∧ t = trackedResult s' (lo16 (W a b)) (hi16 (W a b)) := by
  unfold divideOp at h
  rw [checkWritable_eq_next, andThen_eq_next] at h
  obtain ⟨-, o, ho, h⟩ := h
  obtain ⟨he, r, hr, hA⟩ := readOperands_effect ho
  split at h
  · cases h
    exact .inl ⟨o.s, he, rfl⟩
  · unfold overflowTracked at h
    rw [andThen_eq_next] at h
    obtain ⟨s', hw, ht⟩ := h
    rw [← hA] at hw
    exact .inr ⟨o.a, o.b, s', stored_of_wr hr he hw, by cases ht; rfl⟩

/-- A division with linked operands and no Constant as its destination completes. -/
theorem divideOp_completes {p1 p2 : Param} (h1 : p1.linked = true) (h2 : p2.linked = true)
    (hc : p1.isConst = false) (W : Word → Word → Int) (s : State) :
    ∃ t, divideOp W p1 p2 s = .next t := by
  obtain ⟨o, ho, hw⟩ := readOperands_of_linked h1 h2 s
  obtain ⟨t, ht⟩ := hw hc (lo16 (W o.a o.b)) o.s
  by_cases hb : o.b = 0
  · simp only [divideOp, checkWritable_ok hc, ho, andThen_next, if_pos hb]
    exact ⟨_, rfl⟩
  · simp only [divideOp, checkWritable_ok hc, ho, andThen_next, if_neg hb, overflowTracked, ht]
    exact ⟨_, rfl⟩

/-- What a non-overflow instruction does on clean operands (R162). -/
theorem plainOp_clean {f : Word → Word → Word} {p1 p2 : Param} {s : State} {a b : Word} {d : Place}
    (ha : s.operand? p1 = some a) (hb : s.operand? p2 = some b) (hd : s.place? p1 = some d) :
    plainOp f p1 p2 s = .next ((s.store d (f a b)).setFlags (plainFlags (f a b))) := by
  obtain ⟨A, hr, hA⟩ := readOperands_clean ha hb
  obtain ⟨A', hA', hw⟩ := locateRoot_of_place hd
  rw [hA] at hA'
  cases hA'
  simp [plainOp, isConst_of_place hd, hr, nonOverflow, hw]

/-- What a non-overflow instruction can do: it stores a word through parameter-1, then sets the flags of
that word. -/
theorem plainOp_cases {f : Word → Word → Word} {p1 p2 : Param} {s t : State}
    (h : plainOp f p1 p2 s = .next t) :
    ∃ a b s', Stored p1 (f a b) s s' ∧ t = s'.setFlags (plainFlags (f a b)) := by
  unfold plainOp at h
  rw [checkWritable_eq_next, andThen_eq_next] at h
  obtain ⟨-, o, ho, h⟩ := h
  obtain ⟨he, r, hr, hA⟩ := readOperands_effect ho
  unfold nonOverflow at h
  rw [andThen_eq_next] at h
  obtain ⟨s', hw, ht⟩ := h
  rw [← hA] at hw
  exact ⟨o.a, o.b, s', stored_of_wr hr he hw, by cases ht; rfl⟩

/-- A non-overflow instruction with linked operands and no Constant as its destination completes. -/
theorem plainOp_completes {p1 p2 : Param} (h1 : p1.linked = true) (h2 : p2.linked = true)
    (hc : p1.isConst = false) (f : Word → Word → Word) (s : State) :
    ∃ t, plainOp f p1 p2 s = .next t := by
  obtain ⟨o, ho, hw⟩ := readOperands_of_linked h1 h2 s
  obtain ⟨t, ht⟩ := hw hc (f o.a o.b) o.s
  simp only [plainOp, checkWritable_ok hc, ho, andThen_next, nonOverflow, ht]
  exact ⟨_, rfl⟩

/-! ## `not`, `cmp`, `mov`, the branches -/

/-- Locating the ignored operand of `not` changes no more than MULTISTATE (R167). -/
theorem locateIgnored_effect {p : Option Param} {s t : State} (h : locateIgnored p s = .next t) :
    Effect none s t := by
  cases p with
  | none => cases h; exact .refl none s
  | some p =>
    unfold locateIgnored at h
    rw [andThen_eq_next] at h
    obtain ⟨B, hB, ht⟩ := h
    cases ht
    exact Effect.locateRoot hB

/-- What `not` can do. -/
theorem execNot_cases {p1 : Param} {p2 : Option Param} {s t : State}
    (h : execNot p1 p2 s = .next t) :
    (Instr.not p1 p2).WellFormed ∧ ∃ a s', Stored p1 (a ^^^ 0xFFFF) s s' ∧
      t = s'.setFlags (plainFlags (a ^^^ 0xFFFF)) := by
  unfold execNot at h
  simp only [checkShape_eq_next, checkWritable_eq_next, andThen_eq_next, nonOverflow] at h
  obtain ⟨hwf, -, A, hA, s1, h1, a, ha, s', hw, ht⟩ := h
  have he := ((Effect.locateRoot hA).trans (locateIgnored_effect h1)).trans (Effect.rd ha)
  exact ⟨hwf, a.1, s', stored_of_wr hA he hw, by cases ht; rfl⟩

/-- What `cmp` can do. -/
theorem execCmp_cases {p1 p2 : Param} {s t : State} (h : execCmp p1 p2 s = .next t) :
    (Instr.cmp p1 p2).WellFormed ∧ ∃ a b s', Effect none s s' ∧
      t = (s'.unsetFlags cmpClearMask).setFlags (compareFlags a b) := by
  unfold execCmp at h
  simp only [checkShape_eq_next, andThen_eq_next] at h
  obtain ⟨hwf, o, ho, ht⟩ := h
  exact ⟨hwf, o.a, o.b, o.s, (readOperands_effect ho).1, by cases ht; rfl⟩

/-- What `mov` can do. -/
theorem execMov_cases {p1 p2 : Param} {s t : State} (h : execMov p1 p2 s = .next t) :
    (Instr.mov p1 p2).WellFormed ∧ ∃ v, Stored p1 v s t := by
  unfold execMov at h
  simp only [checkShape_eq_next, checkWritable_eq_next, andThen_eq_next] at h
  obtain ⟨hwf, -, D, hD, S, hS, v, hv, hw⟩ := h
  exact ⟨hwf, v.1, stored_of_wr hD
    (((Effect.locateRoot hD).trans (Effect.locateRoot hS)).trans (Effect.rd hv)) hw⟩

/-- What a branch can do: nothing when not taken; taken, it writes `pc` (R181). -/
theorem branch_cases {taken : Bool} {p : Param} {s t : State} (h : branch taken p s = .next t) :
    (taken = false ∧ t = s) ∨
    (taken = true ∧ ∃ target, value s p = .next target ∧ t = s.setPc (target - 1)) := by
  unfold branch at h
  cases taken
  · simp at h; exact .inl ⟨rfl, h.symm⟩
  · rw [if_pos rfl, andThen_eq_next] at h
    obtain ⟨target, hv, ht⟩ := h
    exact .inr ⟨rfl, target, hv, by cases ht; rfl⟩

end Sys2Proof.Machine
end

