-- ==== Sys2Proof/Laws/Arithmetic.lean ====
section
/-! SUPPORT. The two halves of a wide result (R6, R142), and what the `add` and `sub` that `push` and `pop`
issue against `sp` do. -/

namespace Sys2Proof.Machine

/-- The low half of the wide pattern (R6). -/
theorem lo16_toNat (z : Int) : ((lo16 z).toNat : Int) = z % 65536 := by
  simp only [lo16, wide32, BitVec.extractLsb'_toNat, BitVec.toNat_ofInt, Nat.shiftRight_zero]
  omega

/-- The high half of the wide pattern (R6). -/
theorem hi16_toNat (z : Int) : ((hi16 z).toNat : Int) = z / 65536 % 65536 := by
  simp only [hi16, wide32, BitVec.extractLsb'_toNat, BitVec.toNat_ofInt, Nat.shiftRight_eq_div_pow]
  omega

/-- A word is determined by its value, as an integer. -/
theorem word_ext {v w : Word} (h : (v.toNat : Int) = (w.toNat : Int)) : v = w :=
  BitVec.eq_of_toNat_eq (by omega)

/-- The halves of a packed quotient and remainder (R148, R149). -/
theorem lo16_packWide (r q : Int) : lo16 (packWide r q) = u16 q := by
  apply word_ext
  rw [lo16_toNat, packWide, BitVec.toNat_append, Nat.shiftLeft_eq]
  have hq := (u16 q).isLt
  rw [Nat.mul_comm, ← Nat.two_pow_add_eq_or_of_lt hq]
  omega

theorem hi16_packWide (r q : Int) : hi16 (packWide r q) = u16 r := by
  apply word_ext
  rw [hi16_toNat, packWide, BitVec.toNat_append, Nat.shiftLeft_eq]
  have hq := (u16 q).isLt
  have hr := (u16 r).isLt
  rw [Nat.mul_comm, ← Nat.two_pow_add_eq_or_of_lt hq]
  omega

/-- The sum of two words (R144). -/
theorem lo16_wideAdd (a b : Word) : lo16 (wideAdd a b) = a + b := by
  apply word_ext
  rw [lo16_toNat, wideAdd, BitVec.toNat_add]
  omega

/-- The overflow word of a sum is the carry (R144). -/
theorem hi16_wideAdd (a b : Word) :
    hi16 (wideAdd a b) = if 0x10000 ≤ a.toNat + b.toNat then 1 else 0 := by
  apply word_ext
  have ha := a.isLt
  have hb := b.isLt
  rw [hi16_toNat, wideAdd]
  split <;> simp <;> omega

/-- The difference of two words (R145). -/
theorem lo16_wideSub (a b : Word) : lo16 (wideSub a b) = a - b := by
  apply word_ext
  have hb := b.isLt
  rw [lo16_toNat, wideSub, BitVec.toNat_sub]
  omega

/-- The overflow word of a difference is the borrow (R145). -/
theorem hi16_wideSub (a b : Word) :
    hi16 (wideSub a b) = if a.toNat < b.toNat then 0xFFFF else 0 := by
  apply word_ext
  have ha := a.isLt
  have hb := b.isLt
  rw [hi16_toNat, wideSub]
  split <;> simp <;> omega

/-! ## The issued `add sp, 2` and `sub sp, 2` (R108) -/

/-- What the `add sp, 2` that a `push` issues does (R124). -/
theorem execAdd_sp (s : State) :
    execAdd (.reg .sp) (.const 2) s =
      .next (trackedResult { s with sp := s.sp + 2 } (s.sp + 2)
        (if 0xFFFE ≤ s.sp.toNat then 1 else 0)) := by
  have hwf : (Instr.add (.reg .sp) (.const 2)).WellFormed := rfl
  rw [execAdd, checkShape_wf hwf, trackedOp_clean (a := s.sp) (b := 2) (d := .reg .sp) rfl rfl rfl,
    lo16_wideAdd, hi16_wideAdd]
  have : (0x10000 ≤ s.sp.toNat + (2 : Word).toNat) = (0xFFFE ≤ s.sp.toNat) := by
    simp
  simp only [this]
  rfl

/-- What the `sub sp, 2` that a `pop` issues does (R126). -/
theorem execSub_sp (s : State) :
    execSub (.reg .sp) (.const 2) s =
      .next (trackedResult { s with sp := s.sp - 2 } (s.sp - 2)
        (if s.sp.toNat < 2 then 0xFFFF else 0)) := by
  have hwf : (Instr.sub (.reg .sp) (.const 2)).WellFormed := rfl
  rw [execSub, checkShape_wf hwf, trackedOp_clean (a := s.sp) (b := 2) (d := .reg .sp) rfl rfl rfl,
    lo16_wideSub, hi16_wideSub]
  rfl

/-- The store target of `[sp]` depends on `sp` and the map alone. -/
theorem storeTarget_stackHead {s t : State} (hsp : t.sp = s.sp) (hmap : t.map = s.map) :
    t.storeTarget? stackHead = s.storeTarget? stackHead := by
  simp only [State.storeTarget?, stackHead, address, value, State.readReg, hsp, hmap]

/-- The state that the issued `add sp, 2` leaves (R124). -/
def pushedPointer (s : State) : State :=
  trackedResult { s with sp := s.sp + 2 } (s.sp + 2) (if 0xFFFE ≤ s.sp.toNat then 1 else 0)

/-- The state that the issued `sub sp, 2` leaves where `sp` is at least 2 (R126). -/
def poppedPointer (s : State) : State :=
  trackedResult { s with sp := s.sp - 2 } (s.sp - 2) 0

/-- With the wiring of R106 the issued `add` runs once. -/
theorem issueAdd_wired {s : State} (h : s.Wired) : issueAdd s = .next (pushedPointer s) := by
  rw [issueAdd, dispatchRun_wired h (by decide), execAdd_sp, pushedPointer]

/-- With the wiring of R106 the issued `sub` runs once. -/
theorem issueSub_wired {s : State} (h : s.Wired) (hsp : 2 ≤ s.sp.toNat) :
    issueSub s = .next (poppedPointer s) := by
  rw [issueSub, dispatchRun_wired h (by decide), execSub_sp, if_neg (by omega), poppedPointer]

/-- What the instructions that `push` and `pop` issue can do, with any registry: they change `sp`, the
overflow register, and add OVERFLOW and ZERO. -/
structure Issued (s t : State) : Prop where
  x : ∀ g, g ≠ s.ovfReg → t.readReg (.gpr g) = s.readReg (.gpr g)
  pc : t.pc = s.pc
  flags : ∃ m : Word, t.flags = s.flags ||| (m &&& 0x0003)
  units : t.units = s.units
  map : t.map = s.map
  prog : t.prog = s.prog
  registry : t.registry = s.registry
  ovfReg : t.ovfReg = s.ovfReg

theorem Issued.refl (s : State) : Issued s s :=
  ⟨fun _ _ => rfl, rfl, ⟨0, by simp⟩, rfl, rfl, rfl, rfl, rfl⟩

theorem Issued.trans {s t v : State} (h : Issued s t) (h' : Issued t v) : Issued s v where
  x g hg := (h'.x g (by rw [h.ovfReg]; exact hg)).trans (h.x g hg)
  pc := h'.pc.trans h.pc
  flags := by
    obtain ⟨m, hm⟩ := h.flags
    obtain ⟨m', hm'⟩ := h'.flags
    refine ⟨m ||| m', ?_⟩
    rw [hm', hm, BitVec.or_assoc]
    congr 1
    ext i hi
    simp [Bool.and_or_distrib_right]
  units := h'.units.trans h.units
  map := h'.map.trans h.map
  prog := h'.prog.trans h.prog
  registry := h'.registry.trans h.registry
  ovfReg := h'.ovfReg.trans h.ovfReg

/-- One overflow-tracked result in `sp`. -/
theorem Issued.trackedResult (s : State) (v lo hi : Word) :
    Issued s (trackedResult { s with sp := v } lo hi) where
  x g hg := State.readReg_writeReg_ne { s with sp := v } (r := .gpr g) (r' := .gpr s.ovfReg)
    (by simpa using hg) hi
  pc := rfl
  flags := by
    refine ⟨trackedFlags lo hi, ?_⟩
    have : trackedFlags lo hi &&& 0x0003 = trackedFlags lo hi := by
      unfold trackedFlags fOverflow fZero
      split <;> split <;> rfl
    rw [this]
    rfl
  units := rfl
  map := rfl
  prog := rfl
  registry := rfl
  ovfReg := rfl

theorem issueAdd_cases {s t : State} (h : issueAdd s = .next t) : Issued s t :=
  dispatchRun_induct (P := Issued s) (fun s' t' hs ht => by
    rw [execAdd_sp] at ht
    cases ht
    exact hs.trans (.trackedResult s' _ _ _)) h (.refl s)

theorem issueSub_cases {s t : State} (h : issueSub s = .next t) : Issued s t :=
  dispatchRun_induct (P := Issued s) (fun s' t' hs ht => by
    rw [execSub_sp] at ht
    cases ht
    exact hs.trans (.trackedResult s' _ _ _)) h (.refl s)

/-- The issued `add` completes, if no unit is handed a foreign kind (R107, R108). -/
theorem issueAdd_completes {s : State} (h : s.registry.Proper) : ∃ t, issueAdd s = .next t :=
  dispatchRun_completes h fun s => ⟨_, execAdd_sp s⟩

/-- The issued `sub` completes, if no unit is handed a foreign kind (R107, R108). -/
theorem issueSub_completes {s : State} (h : s.registry.Proper) : ∃ t, issueSub s = .next t :=
  dispatchRun_completes h fun s => ⟨_, execSub_sp s⟩

/-- What `push` can do (R124): accesses that store nothing, a word through `[sp]`, the issued `add`. -/
theorem execPush_cases {p1 : Param} {s t : State} (h : execPush p1 s = .next t) :
    (Instr.push p1).WellFormed ∧ ∃ s', Effect (s.storeTarget? stackHead) s s' ∧
      issueAdd s' = .next t := by
  unfold execPush at h
  simp only [checkShape_eq_next, andThen_eq_next] at h
  obtain ⟨hwf, V, hV, v, hv, L, hL, s', hw, ht⟩ := h
  have he := (Effect.locateRoot hV).trans (Effect.rd hv)
  refine ⟨hwf, s', ?_, ht⟩
  have hs := stored_of_wr hL (Effect.locateRoot hL) hw
  rcases hs with ⟨g, _, hg, -⟩ | ⟨-, hs⟩
  · simp [stackHead] at hg
  · rw [storeTarget_stackHead he.sp he.map] at hs
    exact he.trans hs

/-- What `pop` can do (R126): SEG with `sp` below 2; otherwise the issued `sub` and then the copy, if there
is a destination. -/
theorem execPop_cases {p1 : Option Param} {s t : State} (h : execPop p1 s = .next t) :
    (Instr.pop p1).WellFormed ∧
    ((s.sp.toNat < 2 ∧ t = s.setFlags fSeg) ∨
      (2 ≤ s.sp.toNat ∧ ∃ s', issueSub s = .next s' ∧ (p1 = none → t = s') ∧
        ∀ p, p1 = some p → popCopy p s' = .next t)) := by
  unfold execPop at h
  rw [checkShape_eq_next] at h
  have hb : popBody p1 s = .next t := by
    cases p1 with
    | none => exact h.2
    | some p => exact (checkWritable_eq_next.mp h.2).2
  refine ⟨h.1, ?_⟩
  unfold popBody at hb
  split at hb
  · cases hb
    exact .inl ⟨by assumption, rfl⟩
  · rw [andThen_eq_next] at hb
    obtain ⟨s', hs, hb⟩ := hb
    refine .inr ⟨by omega, s', hs, ?_, ?_⟩
    · rintro rfl
      cases hb
      rfl
    · rintro p rfl
      exact hb

/-- What `pop` does after its checks, with the wiring of R106 (R126). -/
theorem popBody_wired {s : State} (hw : s.Wired) (p1 : Option Param) :
    popBody p1 s =
      if s.sp.toNat < 2 then .next (s.setFlags fSeg)
      else match p1 with
        | none => .next (poppedPointer s)
        | some p => popCopy p (poppedPointer s) := by
  unfold popBody
  split
  · rfl
  · rename_i h
    rw [issueSub_wired hw (by omega)]
    rfl

/-- A word stored after accesses that stored nothing. -/
theorem Stored.of_effect {p : Param} (hp : p.admissible = true) {v : Word} {s s' t : State}
    (he : Effect none s s') (h : Stored p v s' t) : Stored p v s t := by
  rcases h with ⟨g, s1, rfl, h1, rfl⟩ | ⟨hm, h1⟩
  · exact .inl ⟨g, s1, rfl, he.trans h1, rfl⟩
  · rw [storeTarget_congr he.x he.sp he.map hp] at h1
    exact .inr ⟨hm, he.trans h1⟩

/-- What the copy of `pop` can do: a word stored through the destination (R126). -/
theorem popCopy_cases {p : Param} (hp : p.admissible = true) {s t : State}
    (h : popCopy p s = .next t) : ∃ v, Stored p v s t := by
  unfold popCopy at h
  simp only [andThen_eq_next] at h
  obtain ⟨L, hL, D, hD, v, hv, hw⟩ := h
  exact ⟨v.1, .of_effect hp (Effect.locateRoot hL)
    (stored_of_wr hD ((Effect.locateRoot hD).trans (Effect.rd hv)) hw)⟩

end Sys2Proof.Machine
end

