-- ==== Sys2Proof/Laws/Tick.lean ====
section
/-! SUPPORT. The tick: routing with the wiring of R106 runs exactly `exec`, what a fetch answers is
well-formed, and what a step can do. -/

namespace Sys2Proof.Machine

/-- With the wiring of R106 an instruction runs exactly once, as `exec` (R105). -/
theorem dispatch_eq_exec {s : State} (h : s.Wired) (i : Instr) : dispatch i s = exec i s := by
  by_cases hi : i.kind = .nop
  · cases i <;> first | (cases hi; done) | exact dispatchRun_nop h.proper _
  · exact dispatchRun_wired h hi _

/-- The instruction of a record is well-formed (R73). -/
theorem Record.toInstr_wellFormed {r : Record} {i : Instr} (h : r.toInstr = .ok i) : i.WellFormed := by
  unfold Record.toInstr at h
  split at h
  · cases h
  · split at h
    · cases h
    · cases h; assumption

/-- The instruction of a slot is well-formed (R79). -/
theorem decode_wellFormed {S : Slot} {i : Instr} (h : decode S = .instr i) : i.WellFormed := by
  unfold decode at h
  repeat' split at h
  all_goals first
    | cases h; done
    | (cases h; exact Record.toInstr_wellFormed (by assumption))

/-- The instruction of a cell is well-formed. -/
theorem decodeCell_wellFormed {cell : ProgCell} {i : Instr} (h : decodeCell cell = .next i) :
    i.WellFormed := by
  unfold decodeCell at h
  repeat' split at h
  all_goals first
    | cases h; done
    | (cases h; exact decode_wellFormed (by assumption))
    | (cases h; exact Record.toInstr_wellFormed (by assumption))

/-- What the fetch answers is well-formed (R102). -/
theorem fetch_wellFormed {s : State} {i : Instr} (h : fetch s = .next i) : i.WellFormed := by
  unfold fetch at h
  split at h
  · exact decodeCell_wellFormed h
  · cases h; rfl

/-- The ILLEGAL check leaves the routing alone. -/
theorem State.Wired.noteIllegal {s : State} (h : s.Wired) (i : Instr) : (noteIllegal i s).Wired :=
  h.congr (noteIllegal_registry i s)

/-- The step, for a fetched instruction (R101), with any registry. -/
theorem step_of_fetch {s : State} {i : Instr} (h : fetch s = .next i) :
    step s = andThen (dispatch i (noteIllegal i s)) fun s' => .next (advancePc s') := by
  simp only [step, onTick, h, andThen_next]

/-- The step, for a fetched instruction, with the wiring of R106. -/
theorem step_of_fetch_wired {s : State} (hw : s.Wired) {i : Instr} (h : fetch s = .next i) :
    step s = andThen (exec i (noteIllegal i s)) fun s' => .next (advancePc s') := by
  rw [step_of_fetch h, dispatch_eq_exec (hw.noteIllegal i)]

/-- What a step can do: it dispatches the fetched instruction, well-formed, and advances `pc`. -/
theorem step_cases {s t : State} (h : step s = .next t) :
    ∃ i s', fetch s = .next i ∧ i.WellFormed ∧ dispatch i (noteIllegal i s) = .next s' ∧
      t = advancePc s' := by
  simp only [step, onTick, andThen_eq_next] at h
  obtain ⟨i, hi, s', hs, ht⟩ := h
  exact ⟨i, s', hi, fetch_wellFormed hi, hs, by cases ht; rfl⟩

/-- What every execution of the instruction keeps, a dispatch of it keeps, whatever the registry. -/
theorem dispatch_induct {P : State → Prop} {i : Instr}
    (hexec : ∀ s t, P s → exec i s = .next t → P t) {s t : State} (h : dispatch i s = .next t)
    (hs : P s) : P t := dispatchRun_induct hexec h hs

end Sys2Proof.Machine
end

