-- ==== Sys2Proof/Laws/Encoding.lean ====
section
/-! SUPPORT. The tables of the encoding and their inverses (R75 to R78), and the fields of a descriptor and
of a slot. -/

namespace Sys2Proof.Machine

/-- The kind codes and the decoder's table agree (R75). -/
@[simp] theorem kindOfCode_code (k : Kind) : kindOfCode k.code = some k := by cases k <;> rfl

theorem code_lt (k : Kind) : k.code < 24 := by cases k <;> decide

/-- A kind code that the decoder's table holds is the code of its kind (R75). -/
theorem code_of_kindOfCode {n : Nat} {k : Kind} (h : kindOfCode n = some k) : k.code = n := by
  by_cases hn : n < 24
  · interval_cases n <;> cases h <;> rfl
  · have : kindOfCode n = none := by
      unfold kindOfCode
      split <;> first | omega | rfl
    rw [this] at h; cases h

/-- The selectors and the decoder's table agree (R78). -/
theorem regOfSelector_selector {r : RegName} {n : Nat} (h : r.selector? = some n) :
    regOfSelector n = some r := by
  cases r <;> simp [RegName.selector?] at h <;> subst h
  · rename_i i
    simp [regOfSelector, i.isLt]
  · rfl

theorem selector_of_regOfSelector {r : RegName} {n : Nat} (h : regOfSelector n = some r) :
    r.selector? = some n := by
  unfold regOfSelector at h
  split at h
  · cases h; rfl
  · split at h
    · rename_i h8; subst h8; cases h; rfl
    · cases h

theorem selector_lt {r : RegName} {n : Nat} (h : r.selector? = some n) : n < 9 := by
  cases r <;> simp [RegName.selector?] at h <;> omega

/-- A register has a selector exactly when an instruction can name it (R18, R78). -/
theorem selector_isSome (r : RegName) : r.selector?.isSome = r.nameable := by cases r <;> rfl

/-- The fields of a 28-bit descriptor (R76). -/
theorem descriptor_fields (mode reg relop t1reg : Nat) (imm : Word) :
    (descriptor mode reg relop t1reg imm).extractLsb' 25 3 = BitVec.ofNat 3 mode ∧
    (descriptor mode reg relop t1reg imm).extractLsb' 21 4 = BitVec.ofNat 4 reg ∧
    (descriptor mode reg relop t1reg imm).extractLsb' 20 1 = BitVec.ofNat 1 relop ∧
    (descriptor mode reg relop t1reg imm).extractLsb' 19 1 = BitVec.ofNat 1 t1reg ∧
    (descriptor mode reg relop t1reg imm).extractLsb' 16 3 = 0 ∧
    (descriptor mode reg relop t1reg imm).extractLsb' 0 16 = imm := by
  unfold descriptor
  refine ⟨?_, ?_, ?_, ?_, ?_, ?_⟩ <;>
  · apply BitVec.eq_of_getLsbD_eq
    intro i hi
    simp only [BitVec.getLsbD_extractLsb', BitVec.getLsbD_append, hi, decide_true, Bool.true_and]
    repeat' split
    all_goals first | omega | (congr 1; omega)

/-- A descriptor is its fields put together again (R76). -/
theorem eq_descriptor (D : BitVec 28) (h : D.extractLsb' 16 3 = 0) :
    D = descriptor (D.extractLsb' 25 3).toNat (D.extractLsb' 21 4).toNat (D.extractLsb' 20 1).toNat
      (D.extractLsb' 19 1).toNat (D.extractLsb' 0 16) := by
  unfold descriptor
  rw [← h]
  simp only [BitVec.ofNat_toNat, BitVec.setWidth_eq]
  apply BitVec.eq_of_getLsbD_eq
  intro i hi
  simp only [BitVec.getLsbD_extractLsb', BitVec.getLsbD_append]
  repeat' split
  all_goals
    rw [decide_eq_true (by omega), Bool.true_and]
    congr 1
    omega

/-- The fields of a slot (R74). -/
theorem slotOf_fields (code : Nat) (d1 d2 : BitVec 28) :
    (slotOf code d1 d2).extractLsb' 59 5 = BitVec.ofNat 5 code ∧
    (slotOf code d1 d2).extractLsb' 56 3 = 0 ∧
    (slotOf code d1 d2).extractLsb' 28 28 = d1 ∧ (slotOf code d1 d2).extractLsb' 0 28 = d2 := by
  unfold slotOf
  refine ⟨?_, ?_, ?_, ?_⟩ <;>
  · apply BitVec.eq_of_getLsbD_eq
    intro i hi
    simp only [BitVec.getLsbD_extractLsb', BitVec.getLsbD_append, hi, decide_true, Bool.true_and]
    repeat' split
    all_goals first | omega | (congr 1; omega)

/-- A slot is its fields put together again (R74). -/
theorem eq_slotOf (S : Slot) (h : S.extractLsb' 56 3 = 0) :
    S = slotOf (S.extractLsb' 59 5).toNat (S.extractLsb' 28 28) (S.extractLsb' 0 28) := by
  unfold slotOf
  rw [← h]
  simp only [BitVec.ofNat_toNat, BitVec.setWidth_eq]
  apply BitVec.eq_of_getLsbD_eq
  intro i hi
  simp only [BitVec.getLsbD_extractLsb', BitVec.getLsbD_append]
  repeat' split
  all_goals
    rw [decide_eq_true (by omega), Bool.true_and]
    congr 1
    omega

end Sys2Proof.Machine
end

