-- ==== Sys2Proof/Laws/Linker.lean ====
section
/-! SUPPORT. What linking a Parameter or a record comes to, said once: the replaced operands, or the first
name that the map lacks (R34); what a launched machine is (R233). -/

namespace Sys2Proof.Machine

/-- The outcome of linking something that holds the given names: itself replaced, or the first unmapped
name with the line (R34; log 28). -/
def linkOutcome {α : Type} (m : NameMap) (line : Nat) (names : List String) (v : α) : Res α :=
  match names.find? fun name => (m.find name).isNone with
  | none => .next v
  | some name => .fault (.undefinedReference name line)

@[simp] theorem linkOutcome_nil {α : Type} (m : NameMap) (line : Nat) (v : α) :
    linkOutcome m line [] v = .next v := rfl

theorem linkOutcome_eq_next {α : Type} {m : NameMap} {line : Nat} {names : List String} {v w : α} :
    linkOutcome m line names v = .next w ↔ (∀ name ∈ names, m.find name ≠ none) ∧ v = w := by
  unfold linkOutcome
  split <;> simp_all [List.find?_eq_none]
  rename_i name h
  intro hall
  exact absurd (by simpa using List.find?_some h) (hall name (List.mem_of_find?_eq_some h))

theorem linkOutcome_fault {α : Type} {m : NameMap} {line : Nat} {names : List String} {v : α}
    {f : Fault} (h : linkOutcome m line names v = .fault f) :
    ∃ name ∈ names, m.find name = none ∧ f = .undefinedReference name line := by
  unfold linkOutcome at h
  split at h
  · cases h
  · rename_i name hn
    cases h
    exact ⟨name, List.mem_of_find?_eq_some hn, by simpa using List.find?_some hn, rfl⟩

/-- Linking never refuses. -/
theorem linkOutcome_ne_refused {α : Type} (m : NameMap) (line : Nat) (names : List String) (v : α)
    (e : Refusal) : linkOutcome m line names v ≠ .refused e := by
  unfold linkOutcome
  split <;> simp

/-- Linking one part and then another is linking both. -/
theorem linkOutcome_append {α β γ : Type} (m : NameMap) (line : Nat) (xs ys : List String) (a : α)
    (b : β) (k : α → β → γ) :
    andThen (linkOutcome m line xs a) (fun a => andThen (linkOutcome m line ys b) fun b =>
      .next (k a b)) = linkOutcome m line (xs ++ ys) (k a b) := by
  unfold linkOutcome
  rw [List.find?_append]
  cases xs.find? fun name => (m.find name).isNone <;>
    cases ys.find? fun name => (m.find name).isNone <;> rfl

/-- Linking a part of something is linking it. -/
theorem linkOutcome_map {α β : Type} (m : NameMap) (line : Nat) (xs : List String) (a : α) (k : α → β) :
    andThen (linkOutcome m line xs a) (fun a => .next (k a)) = linkOutcome m line xs (k a) := by
  unfold linkOutcome
  cases xs.find? fun name => (m.find name).isNone <;> rfl

mutual

/-- What linking a Parameter does (R34). -/
theorem linkParam_eq (m : NameMap) (line : Nat) : ∀ p : Param,
    linkParam m line p = linkOutcome m line (references p) (withRegisters m p)
  | .const _ => rfl
  | .reg _ => rfl
  | .memC _ => rfl
  | .regRef name => by
    simp only [linkParam, references, withRegisters, linkOutcome]
    cases h : m.find name <;> simp [h, raiseStructuralError]
  | .memAbs q => by
    rw [linkParam, linkParam_eq m line q, linkOutcome_map, references, withRegisters]
  | .memRel t0 rest => by
    rw [linkParam, linkParam_eq m line t0, linkTail_eq m line rest, linkOutcome_append, references,
      withRegisters]

/-- What linking the terms after the first does (R34). -/
theorem linkTail_eq (m : NameMap) (line : Nat) : ∀ rest : RelTail,
    linkTail m line rest = linkOutcome m line (tailReferences rest) (tailWithRegisters m rest)
  | .nil => rfl
  | .cons op t rest => by
    rw [linkTail, linkParam_eq m line t, linkTail_eq m line rest, linkOutcome_append, tailReferences,
      tailWithRegisters]

end

theorem linkOption_eq (m : NameMap) (line : Nat) (p : Option Param) :
    linkOption m line p =
      linkOutcome m line (p.toList.flatMap references) (p.map (withRegisters m)) := by
  cases p with
  | none => rfl
  | some p =>
    simp only [linkOption, linkParam_eq, linkOutcome_map, Option.toList_some, List.flatMap_cons,
      List.flatMap_nil, List.append_nil, Option.map_some]

@[simp] theorem linkCell_slot (m : NameMap) (line : Nat) (S : Slot) :
    linkCell m line (.slot S) = .next (.slot S) := rfl

/-- What linking a record does (R34). -/
theorem linkCell_record (m : NameMap) (line : Nat) (r : Record) :
    linkCell m line (.record r) = linkOutcome m line (recordReferences r)
      (.record ⟨r.kind, r.p1.map (withRegisters m), r.p2.map (withRegisters m)⟩) := by
  rw [linkCell, linkOption_eq, linkOption_eq,
    linkOutcome_append m line _ _ _ _ fun a b => ProgCell.record ⟨r.kind, a, b⟩, recordReferences,
    List.flatMap_append]

mutual

/-- A Parameter all of whose names are mapped has no RegisterReference after linking (R34). -/
theorem withRegisters_linked (m : NameMap) : ∀ p : Param,
    (∀ name ∈ references p, m.find name ≠ none) → (withRegisters m p).linked = true
  | .const _, _ => rfl
  | .reg _, _ => rfl
  | .memC _, _ => rfl
  | .regRef name, h => by
    have hn := h name (by simp [references])
    rw [withRegisters]
    split
    · rfl
    · exact absurd ‹_› hn
  | .memAbs q, h => by
    rw [withRegisters, Param.linked]
    exact withRegisters_linked m q h
  | .memRel t0 rest, h => by
    simp only [references, List.mem_append] at h
    rw [withRegisters, Param.linked, withRegisters_linked m t0 fun x hx => h x (.inl hx),
      tailWithRegisters_linked m rest fun x hx => h x (.inr hx)]
    rfl

theorem tailWithRegisters_linked (m : NameMap) : ∀ rest : RelTail,
    (∀ name ∈ tailReferences rest, m.find name ≠ none) → (tailWithRegisters m rest).linked = true
  | .nil, _ => rfl
  | .cons _ t rest, h => by
    simp only [tailReferences, List.mem_append] at h
    rw [tailWithRegisters, RelTail.linked, withRegisters_linked m t fun x hx => h x (.inl hx),
      tailWithRegisters_linked m rest fun x hx => h x (.inr hx)]
    rfl

end

/-! ## Launch (R233) -/

/-- What loading does: it answers the state with the program in it, and every cell is an instruction. -/
theorem loadProgram_next {prog : List ProgCell} {s t : State} (h : loadProgram prog s = .next t) :
    t = { s with prog := prog } ∧ prog.length ≤ 65536 ∧ checkCells prog = .next () := by
  unfold loadProgram at h
  split at h
  · cases h
  · rw [andThen_eq_next] at h
    obtain ⟨⟨⟩, hc, ht⟩ := h
    cases ht
    exact ⟨rfl, by omega, hc⟩

/-- What a launch does: the loaded program passed the loader, and the machine is the platform after
power-on reset with the linked program. -/
theorem launch_next {p : Platform} {names : NameMap} {prog : List ProgCell} {t : State}
    (h : launch p names prog = .next t) :
    checkCells prog = .next () ∧ resolveReferences prog names = .next t.prog ∧
    checkCells t.prog = .next () ∧ t = { p.powerOn with prog := t.prog } := by
  unfold launch at h
  rw [andThen_eq_next] at h
  obtain ⟨s, hs, h⟩ := h
  obtain ⟨rfl, -, hc⟩ := loadProgram_next hs
  unfold linkProgram at h
  rw [andThen_eq_next] at h
  obtain ⟨linked, hl, h⟩ := h
  obtain ⟨rfl, -, hc'⟩ := loadProgram_next h
  exact ⟨hc, hl, hc', rfl⟩

end Sys2Proof.Machine
end

