-- ==== Sys2Proof/Laws/PerInstr.lean ====
section
/-! SUPPORT. Statements made per instruction: the record of a well-formed instruction reads back as that
instruction, so the shape table of R73 refuses no well-formed instruction. -/

namespace Sys2Proof.Laws

/-- The shape table (R73) reads the record of a well-formed instruction as that instruction. -/
def RecordRoundTrip.Statement (i : Instr) : Prop := i.WellFormed → i.toRecord.toInstr = .ok i

/-- One argument for every constructor: the table's row for its kind answers the instruction, and the
check of its operands passes. -/
theorem recordRoundTrip_of_shape {i : Instr} (h : i.toRecord.toInstrShape = .ok i) :
    RecordRoundTrip.Statement i := by
  intro hwf
  unfold Record.toInstr
  rw [h]
  unfold Instr.WellFormed at hwf
  simp only [hwf]

theorem RecordRoundTrip.mov (p1 p2 : Param) : RecordRoundTrip.Statement (.mov p1 p2) :=
  recordRoundTrip_of_shape rfl

theorem RecordRoundTrip.push (p1 : Param) : RecordRoundTrip.Statement (.push p1) :=
  recordRoundTrip_of_shape rfl

theorem RecordRoundTrip.pop (p1 : Option Param) : RecordRoundTrip.Statement (.pop p1) :=
  recordRoundTrip_of_shape rfl

theorem RecordRoundTrip.add (p1 p2 : Param) : RecordRoundTrip.Statement (.add p1 p2) :=
  recordRoundTrip_of_shape rfl

theorem RecordRoundTrip.sub (p1 p2 : Param) : RecordRoundTrip.Statement (.sub p1 p2) :=
  recordRoundTrip_of_shape rfl

theorem RecordRoundTrip.umul (p1 p2 : Param) : RecordRoundTrip.Statement (.umul p1 p2) :=
  recordRoundTrip_of_shape rfl

theorem RecordRoundTrip.smul (p1 p2 : Param) : RecordRoundTrip.Statement (.smul p1 p2) :=
  recordRoundTrip_of_shape rfl

theorem RecordRoundTrip.udiv (p1 p2 : Param) : RecordRoundTrip.Statement (.udiv p1 p2) :=
  recordRoundTrip_of_shape rfl

theorem RecordRoundTrip.sdiv (p1 p2 : Param) : RecordRoundTrip.Statement (.sdiv p1 p2) :=
  recordRoundTrip_of_shape rfl

theorem RecordRoundTrip.and (p1 p2 : Param) : RecordRoundTrip.Statement (.and p1 p2) :=
  recordRoundTrip_of_shape rfl

theorem RecordRoundTrip.or (p1 p2 : Param) : RecordRoundTrip.Statement (.or p1 p2) :=
  recordRoundTrip_of_shape rfl

theorem RecordRoundTrip.xor (p1 p2 : Param) : RecordRoundTrip.Statement (.xor p1 p2) :=
  recordRoundTrip_of_shape rfl

theorem RecordRoundTrip.shl (p1 p2 : Param) : RecordRoundTrip.Statement (.shl p1 p2) :=
  recordRoundTrip_of_shape rfl

theorem RecordRoundTrip.shr (p1 p2 : Param) : RecordRoundTrip.Statement (.shr p1 p2) :=
  recordRoundTrip_of_shape rfl

theorem RecordRoundTrip.not (p1 : Param) (p2 : Option Param) : RecordRoundTrip.Statement (.not p1 p2) :=
  recordRoundTrip_of_shape rfl

theorem RecordRoundTrip.cmp (p1 p2 : Param) : RecordRoundTrip.Statement (.cmp p1 p2) :=
  recordRoundTrip_of_shape rfl

theorem RecordRoundTrip.jmp (p1 : Param) : RecordRoundTrip.Statement (.jmp p1) :=
  recordRoundTrip_of_shape rfl

theorem RecordRoundTrip.jeq (p1 : Param) : RecordRoundTrip.Statement (.jeq p1) :=
  recordRoundTrip_of_shape rfl

theorem RecordRoundTrip.jne (p1 : Param) : RecordRoundTrip.Statement (.jne p1) :=
  recordRoundTrip_of_shape rfl

theorem RecordRoundTrip.jlt (p1 : Param) : RecordRoundTrip.Statement (.jlt p1) :=
  recordRoundTrip_of_shape rfl

theorem RecordRoundTrip.jle (p1 : Param) : RecordRoundTrip.Statement (.jle p1) :=
  recordRoundTrip_of_shape rfl

theorem RecordRoundTrip.jgt (p1 : Param) : RecordRoundTrip.Statement (.jgt p1) :=
  recordRoundTrip_of_shape rfl

theorem RecordRoundTrip.jge (p1 : Param) : RecordRoundTrip.Statement (.jge p1) :=
  recordRoundTrip_of_shape rfl

theorem RecordRoundTrip.nop : RecordRoundTrip.Statement .nop :=
  recordRoundTrip_of_shape rfl

end Sys2Proof.Laws
end

