-- ==== Sys2Proof/Tests/Slice0.lean ====
section
/-! SUPPORT. The tests: the checks of well-formedness, slots written out from the spec's encoding, one-tick
vectors of 95_test_vectors.md (their ids stand in the names), and a witness for the hypotheses of every
statement. Expected results are the spec's. -/

namespace Sys2Proof.Tests

open Sys2Proof.Machine

/-! ## Helpers -/

/-- The reset state with some registers and flags set by the host, and bytes in its RAM. -/
def host (r0 r1 r2 r7 sp flags : Word) (mem : Memory) : State :=
  { State.reset with
    x := #v[r0, r1, r2, 0, 0, 0, 0, r7]
    sp := sp
    flags := flags
    units := [.ram memSize mem] }

/-- The map TESTMAP of 95_test_vectors.md section 2.6. -/
def testMap : Node :=
  .unitReg 0x0000 (.range 0x100) .readWrite 0 <|
  .unitReg 0x00F0 (.range 0x20) .readWrite 1 <|
  .unitReg 0x2000 (.range 0x10) .readOnly 2 <|
  .unitReg 0x3000 (.range 0x10) .writeOnly 3 .empty

/-- The reset state over TESTMAP, with bytes in its units T1 to T4. -/
def onTestMap (r0 : Word) (t1 t2 t3 t4 : Memory) : State :=
  { State.reset with
    x := #v[r0, 0, 0, 0, 0, 0, 0, 0]
    map := testMap
    units := [.ram 0x100 t1, .ram 0x20 t2, .ram 0x10 t3, .ram 0x10 t4] }

/-- One tick of a program that is one slot. -/
def tick (S : Slot) (s : State) : Res State := step { s with prog := [.slot S] }

/-- What is looked at after a tick: some registers, FLAGS, and some bytes given as (unit, address). -/
def seen (r : Res State) (regs : List RegName) (bytes : List (Nat × Nat)) :
    Option (List Word × Word × List (Option Byte)) :=
  match r with
  | .next s => some (regs.map s.readReg, s.flags, bytes.map fun b => s.byteAt b.1 b.2)
  | .fault _ => none
  | .refused _ => none

/-- Registers in short. -/
def r0 : RegName := .gpr 0
def r1 : RegName := .gpr 1
def r2 : RegName := .gpr 2
def r7 : RegName := .gpr 7

/-! ## Well-formedness: an ill-formed term for each check (R18, R49, R73, R181) -/
theorem test_pc_is_no_operand : (Instr.mov (.reg .pc) (.const 0)).shapeError? =
    some .inadmissibleRegister := by decide

theorem test_flags_is_no_source : (Instr.push (.reg .flags)).shapeError? =
    some .inadmissibleRegister := by decide

theorem test_pc_in_an_address : (Instr.mov (.reg r0)
    (.memRel (.const 1) (.cons .add (.memAbs (.reg .pc)) .nil))).shapeError? =
    some .inadmissibleRegister := by decide

theorem test_memory_branch_target : (Instr.jmp (.memC 5)).shapeError? =
    some .memoryBranchTarget := by decide

theorem test_missing_operand : (Record.mk .add (some (.reg r0)) none).toInstr =
    .error .missingOperand := by decide

theorem test_extra_operand : (Record.mk .jmp (some (.const 1)) (some (.const 2))).toInstr =
    .error .extraOperand := by decide

theorem test_nop_takes_no_operand : (Record.mk .nop (some (.const 1)) none).toInstr =
    .error .extraOperand := by decide

theorem test_ill_formed_is_refused : exec (.jmp (.memC 5)) State.reset =
    .refused (.illFormedRecord .memoryBranchTarget) := rfl

theorem test_relative_needs_one_operator_less :
    mkRelative [.reg r1, .const 2] [] = .fault .malformedExpression ∧
    mkRelative [] [] = .fault .malformedExpression ∧
    mkRelative [.reg r1, .const 2] [.add] =
      .next (.memRel (.reg r1) (.cons .add (.const 2) .nil)) := ⟨rfl, rfl, rfl⟩

/-! ## Decoding: a slot of 95_test_vectors.md for each constructor -/
theorem test_decode_mov : decode 0x00A200002200A55A = .instr (.mov
    (.memRel (.reg (.gpr 1)) (.cons .add (.const 2) .nil)) (.const 0xA55A)) := by decide

theorem test_decode_push : decode 0x0860000400000000 = .instr (.push (.memC 0x40)) := by decide

theorem test_decode_pop : decode 0x1044000000000000 = .instr (.pop (some (.reg (.gpr 2)))) ∧
    decode 0x1000000000000000 = .instr (.pop none) := by decide

theorem test_decode_add : decode 0x1860000102000001 = .instr (.add (.memC 0x10) (.const 1)) := by
  decide

theorem test_decode_sub : decode 0x2042000002000001 = .instr (.sub (.reg (.gpr 1)) (.const 1)) := by
  decide

theorem test_decode_umul : decode 0x2840000004E00000 =
    .instr (.umul (.reg (.gpr 0)) (.reg (.gpr 7))) := by decide

theorem test_decode_smul : decode 0x3040000002008000 =
    .instr (.smul (.reg (.gpr 0)) (.const 0x8000)) := by decide

theorem test_decode_udiv : decode 0x3840000002000006 =
    .instr (.udiv (.reg (.gpr 0)) (.const 6)) := by decide

theorem test_decode_sdiv : decode 0x404000000200FFFA =
    .instr (.sdiv (.reg (.gpr 0)) (.const 0xFFFA)) := by decide

theorem test_decode_and : decode 0x4820000014000000 =
    .instr (.and (.const 1) (.reg (.gpr 0))) := by decide

theorem test_decode_or : decode 0x50400000020000FF =
    .instr (.or (.reg (.gpr 0)) (.const 0xFF)) := by decide

theorem test_decode_xor : decode 0x5840000004000000 =
    .instr (.xor (.reg (.gpr 0)) (.reg (.gpr 0))) := by decide

theorem test_decode_shl : decode 0x604000000200000F =
    .instr (.shl (.reg (.gpr 0)) (.const 15)) := by decide

theorem test_decode_shr : decode 0x6840000002000010 =
    .instr (.shr (.reg (.gpr 0)) (.const 16)) := by decide

theorem test_decode_not : decode 0x7040000000000000 = .instr (.not (.reg (.gpr 0)) none) ∧
    decode 0x7040000006005000 = .instr (.not (.reg (.gpr 0)) (some (.memC 0x5000))) := by decide

theorem test_decode_cmp : decode 0x7820000042000005 = .instr (.cmp (.const 4) (.const 5)) := by decide

theorem test_decode_jmp : decode 0x80200FFFF0000000 = .instr (.jmp (.const 0xFFFF)) := by decide

theorem test_decode_jeq : decode 0x8850000000000000 = .instr (.jeq (.reg .sp)) := by decide

theorem test_decode_jne : decode 0x9020000020000000 = .instr (.jne (.const 2)) := by decide

theorem test_decode_jlt : decode 0x98200000A0000000 = .instr (.jlt (.const 10)) := by decide

theorem test_decode_jle : decode 0xA020000050000000 = .instr (.jle (.const 5)) := by decide

theorem test_decode_jgt : decode 0xA820000050000000 = .instr (.jgt (.const 5)) := by decide

theorem test_decode_jge : decode 0xB020000050000000 = .instr (.jge (.const 5)) := by decide

theorem test_decode_nop : decode 0xB800000000000000 = .instr .nop := by decide

/-- The register-indirect mode, and the one relative form with a register term (M6, M5). -/
theorem test_decode_memory_modes :
    decode 0x0046000008200000 = .instr (.mov (.reg (.gpr 3)) (.memAbs (.reg (.gpr 1)))) ∧
    decode 0x00A380002200A55A = .instr (.mov
      (.memRel (.reg (.gpr 1)) (.cons .sub (.reg (.gpr 2)) .nil)) (.const 0xA55A)) := by decide

/-- The reserved slots that section 2.8 lists are refused, each by its name. -/
theorem test_reserved_slots :
    decode 0xC000000000000000 = .undecodable .reservedKind ∧
    decode 0x0100000000000000 = .undecodable .nonzeroSlotZero ∧
    decode 0x00C0000002000000 = .undecodable .reservedMode ∧
    decode 0x0052000002000000 = .undecodable .reservedSelector ∧
    decode 0x0040000102000000 = .undecodable .nonzeroUnused ∧
    decode 0x1840000000000000 = .illFormed .missingOperand ∧
    decode 0x8020000052000000 = .illFormed .extraOperand := by decide

theorem test_encode :
    encode (.umul (.reg r0) (.const 0x0102)) = some 0x2840000002000102 ∧
    encode (.mov (.memRel (.reg r1) (.cons .sub (.reg r2) .nil)) (.const 0xA55A)) =
      some 0x00A380002200A55A ∧
    encode (.push (.memAbs (.memAbs (.reg r1)))) = none := by decide

theorem test_table_word : decodeTableWord 64 0x2840000002000102 =
    some (.umul (.reg r0) (.const 0x0102)) := by decide

theorem test_withFetchWord : fetch (State.reset.withFetchWord 64 0x9020000020000000) =
    .next (.jne (.const 2)) := rfl

/-! ## One tick (95_test_vectors.md section 2) -/
theorem test_mov_M5 : seen (tick 0x00A380002200A55A (host 0 0x0100 0x0010 0 0 0 [])) [r1, r2]
    [(0, 0x00EF), (0, 0x00F0), (0, 0x00F1)] =
    some ([0x0100, 0x0010], 0, [some 0, some 0x5A, some 0xA5]) := by decide

/-- M9: the word a failed read hands over is the free value. -/
theorem test_mov_M9 : exec (.mov (.reg r2) (.memC 0xFFFF)) State.reset =
    .next { State.reset with
      x := #v[0, 0, Config.unresolvedReadValue 0, 0, 0, 0, 0, 0]
      flags := 0x0020
      draws := 1 } := rfl

theorem test_push_K4 : seen (tick 0x0820012340000000 (host 0 0 0 0x1111 0xFFFE 0 [])) [.sp, r7]
    [(0, 0xFFFE), (0, 0xFFFF)] = some ([0, 1], 1, [some 0x34, some 0x12]) := by decide

theorem test_push_K5 : seen (tick 0x0820012340000000 (host 0 0 0 0x1111 0xFFFF 0 [])) [.sp, r7]
    [(0, 0xFFFF), (0, 0)] = some ([1, 1], 0x21, [some 0, some 0]) := by decide

theorem test_pop_K11 : seen (tick 0x1050000000000000 (host 0 0 0 0x1111 0x0102 0 [(0x101, 0x02)]))
    [.sp, r7] [] = some ([0x0200, 0], 0, []) := by decide

theorem test_pop_K8 : seen (tick 0x1044000000000000
    (host 0 0 0 0x1111 2 0 [(0, 0xEF), (1, 0xBE)])) [.sp, r2, r7] [] =
    some ([0, 0xBEEF, 0], 2, []) := by decide

theorem test_add_A1 : seen (tick 0x1840000002000001 (host 0xFFFF 0 0 0x1111 0 0 [])) [r0, r7] [] =
    some ([0, 1], 1, []) := by decide

theorem test_add_A40 : seen (tick 0x1860000102000001
    (host 0 0 0 0x1111 0 0 [(0x10, 0xFF), (0x11, 0xFF)])) [r7] [(0, 0x10), (0, 0x11)] =
    some ([1], 1, [some 0, some 0]) := by decide

theorem test_sub_A5 : seen (tick 0x2040000002000001 (host 0 0 0 0x1111 0 0 [])) [r0, r7] [] =
    some ([0xFFFF, 0xFFFF], 1, []) := by decide

theorem test_umul_A11 : seen (tick 0x284000000200FFFF (host 0xFFFF 0 0 0x1111 0 0 [])) [r0, r7] [] =
    some ([1, 0xFFFE], 1, []) := by decide

theorem test_umul_A37 : seen (tick 0x284E000002000102 (host 0 0 0 0x0100 0 0 [])) [r7] [] =
    some ([1], 1, []) := by decide

theorem test_smul_A17 : seen (tick 0x3040000002000002 (host 0x8000 0 0 0x1111 0 0 [])) [r0, r7] [] =
    some ([0, 0xFFFF], 1, []) := by decide

theorem test_smul_A15 : seen (tick 0x304000000200FFFF (host 0xFFFF 0 0 0x1111 0 0 [])) [r0, r7] [] =
    some ([1, 0], 0, []) := by decide

theorem test_udiv_A24 : seen (tick 0x3840000002000007 (host 5 0 0 0x1111 0 0 [])) [r0, r7] [] =
    some ([0, 5], 1, []) := by decide

theorem test_udiv_A34 : seen (tick 0x3840000002000000 (host 7 0 0 0x1111 0 3 [])) [r0, r7] [] =
    some ([7, 0x1111], 7, []) := by decide

theorem test_sdiv_A26 : seen (tick 0x4040000002000006 (host 0xFFF0 0 0 0x1111 0 0 [])) [r0, r7] [] =
    some ([0xFFFE, 0xFFFC], 1, []) := by decide

theorem test_sdiv_A27 : seen (tick 0x404000000200FFFF (host 0x8000 0 0 0x1111 0 0 [])) [r0, r7] [] =
    some ([0x8000, 0], 0, []) := by decide

theorem test_and_B21 : seen (tick 0x48400000020000FF (host 0xFF00 0 0 0x1111 0 0x19 [])) [r0, r7] [] =
    some ([0, 0x1111], 0x1B, []) := by decide

theorem test_and_B22 : tick 0x4820000014000000 (host 1 0 0 0 0 0 []) = .fault .notWritable := rfl

theorem test_or_B3 : seen (tick 0x50400000020000FF (host 0xFF00 0 0 0x1111 0 0 [])) [r0, r7] [] =
    some ([0xFFFF, 0x1111], 0, []) := by decide

theorem test_xor_B17 : seen (tick 0x5840000004000000 (host 0x1234 0 0 0x1111 0 0 [])) [r0] [] =
    some ([0], 2, []) := by decide

theorem test_shl_B6 : seen (tick 0x6040000002000001 (host 0x8001 0 0 0x1111 0 0 [])) [r0, r7] [] =
    some ([2, 0x1111], 0, []) := by decide

theorem test_shl_B8 : seen (tick 0x6040000002000010 (host 0xFFFF 0 0 0x1111 0 0 [])) [r0] [] =
    some ([0], 2, []) := by decide

theorem test_shr_B11 : seen (tick 0x6840000002000001 (host 0x8001 0 0 0x1111 0 0 [])) [r0] [] =
    some ([0x4000], 0, []) := by decide

theorem test_shr_B14 : seen (tick 0x684000000200FFFF (host 0xFFFF 0 0 0x1111 0 0 [])) [r0] [] =
    some ([0], 2, []) := by decide

theorem test_not_L2 : seen (tick 0x70400000060000F8 (onTestMap 0x00FF [] [] [] [])) [r0] [] =
    some ([0xFF00], 0x40, []) := by decide

theorem test_not_B19 : seen (tick 0x7040000000000000 (host 0xFFFF 0 0 0x1111 0 0 [])) [r0, r7] [] =
    some ([0, 0x1111], 2, []) := by decide

theorem test_cmp_CP6 : seen (tick 0x7840000002007FFF (host 0x8000 0 0 0x1111 0 0 [])) [r0] [] =
    some ([0x8000], 0x10, []) := by decide

theorem test_cmp_CP7 : seen (tick 0x7820000052000004 (host 0 0 0 0 0 0x1B [])) [] [] =
    some ([], 3, []) := by decide

/-- The pc after one tick of a branch to 5, for no flag, EQUAL, LESS, and both (section 2.7). -/
def branchRow (S : Slot) : List (Option (List Word × Word × List (Option Byte))) :=
  [0x0000, 0x0008, 0x0010, 0x0018].map fun f => seen (tick S (host 0 0 0 0 0 f [])) [.pc] []

theorem test_jmp_row : branchRow 0x8020000050000000 = [some ([5], 0, []), some ([5], 8, []),
    some ([5], 0x10, []), some ([5], 0x18, [])] := by decide

theorem test_jeq_row : branchRow 0x8820000050000000 = [some ([1], 0, []), some ([5], 8, []),
    some ([1], 0x10, []), some ([5], 0x18, [])] := by decide

theorem test_jne_row : branchRow 0x9020000050000000 = [some ([5], 0, []), some ([1], 8, []),
    some ([5], 0x10, []), some ([1], 0x18, [])] := by decide

theorem test_jlt_row : branchRow 0x9820000050000000 = [some ([1], 0, []), some ([1], 8, []),
    some ([5], 0x10, []), some ([1], 0x18, [])] := by decide

theorem test_jle_row : branchRow 0xA020000050000000 = [some ([1], 0, []), some ([5], 8, []),
    some ([5], 0x10, []), some ([5], 0x18, [])] := by decide

theorem test_jgt_row : branchRow 0xA820000050000000 = [some ([5], 0, []), some ([1], 8, []),
    some ([1], 0x10, []), some ([1], 0x18, [])] := by decide

theorem test_jge_row : branchRow 0xB020000050000000 = [some ([5], 0, []), some ([5], 8, []),
    some ([1], 0x10, []), some ([5], 0x18, [])] := by decide

theorem test_jmp_J4 : seen (tick 0x80200FFFF0000000 State.reset) [.pc] [] =
    some ([0xFFFF], 0, []) := by decide

theorem test_nop_J5 : seen (tick 0xB800000000000000 State.reset) [.pc] [] =
    some ([1], 0x80, []) := by decide

/-! ## The locator (section 2.6) -/
theorem test_locator_L5 : seen (tick 0x0060020002000001 (onTestMap 0 [] [] [] [])) []
    [(2, 0), (2, 1)] = some ([], 0x20, [some 0, some 0]) := by decide

theorem test_locator_L9 : seen (tick 0x00400000060000FF
    (onTestMap 0 [(0xFF, 0x99)] [(0x0F, 0x11), (0x10, 0x22)] [] [])) [r0] [] =
    some ([0x2211], 0, []) := by decide

theorem test_locator_L1 : exec (.mov (.reg r0) (.memC 0x00F8)) (onTestMap 0x5555 [] [] [] []) =
    .next { onTestMap 0x5555 [] [] [] [] with
      x := #v[Config.unresolvedReadValue 0, 0, 0, 0, 0, 0, 0, 0]
      flags := 0x0060
      draws := 1 } := rfl

/-- A child node behind a write-only registrant, and one behind a read-write one: the offsets add up. -/
def nestedMap : Node :=
  .childReg 0x4000 (.range 0x100) .readWrite (.unitReg 0x0010 (.range 0x10) .readWrite 0 .empty)
    (.childReg 0x5000 (.range 0x100) .writeOnly (.unitReg 0 (.range 0x100) .readWrite 0 .empty) .empty)

theorem test_nested_routes :
    nestedMap.route .read 0x4012 = .hit 0 2 ∧ nestedMap.route .read 0x4000 = .miss false ∧
    nestedMap.route .read 0x5004 = .miss false ∧ nestedMap.route .write 0x5004 = .hit 0 4 := by decide

/-! ## The configuration (R26): the overflow register and the registry -/

/-- `add r0, 1` on 0xFFFF, with OVF_REG = 3: the carry goes to r3, and r7 stays (R20, R26). -/
theorem test_another_overflow_register :
    seen (tick 0x1840000002000001 { host 0xFFFF 0 0 0x1111 0 0 [] with ovfReg := 3 })
      [r0, .gpr 3, r7] [] = some ([0, 1, 0x1111], 1, []) := by decide

/-- The ALU registered twice: every accepting unit runs (R105). -/
def twoAlus : Registry :=
  wiring ++ [(.alu, .kinds ExecUnit.alu.family)]

theorem test_fan_out_runs_twice :
    seen (tick 0x1840000002000001 { host 5 0 0 0 0 0 [] with registry := twoAlus }) [r0] [] =
      some ([7], 0, []) ∧
    seen (tick 0x0820012340000000 { host 0 0 0 0 0x0100 0 [] with registry := twoAlus }) [.sp] [] =
      some ([0x0104], 0, []) := by decide

/-- No ALU: an `add` is dropped, and a `push` stores without moving sp (R105, R108). -/
theorem test_no_unit_drops :
    seen (tick 0x1840000002000001 { host 5 0 0 0 0 0 [] with registry := [] }) [r0, .pc] [] =
      some ([5, 1], 0, []) ∧
    seen (tick 0x0820012340000000
        { host 0 0 0 0 0x0100 0 [] with registry := [(.mmu, .kinds ExecUnit.mmu.family)] })
      [.sp] [(0, 0x0100), (0, 0x0101)] = some ([0x0100], 0, [some 0x34, some 0x12]) := by decide

/-- A filter that hands the ALU a `mov`: the unit reports it (R107). -/
theorem test_foreign_kind_stops :
    tick 0x0040000002000001 { State.reset with registry := [(.alu, .kinds [.mov])] } =
      .fault .unsupportedInstruction := rfl

/-! ## Linking and the host -/

theorem test_linking :
    resolveReferences [.record ⟨.mov, some (.memAbs (.regRef "r1")), some (.regRef "sp")⟩]
      dispatcherNames = .next [.record ⟨.mov, some (.memAbs (.reg r1)), some (.reg .sp)⟩] ∧
    resolveReferences [.slot 0, .record ⟨.push, some (.regRef "r9"), none⟩] dispatcherNames =
      .fault (.undefinedReference "r9" 1) := ⟨rfl, rfl⟩

/-- R233 loads before it links: the loader's refusal comes before the unmapped name. -/
theorem test_launch_loads_before_linking :
    launch defaultPlatform dispatcherNames
      [.record ⟨.push, some (.regRef "r9"), none⟩, .slot 0xC000000000000000] =
      .refused (.undecodableSlot .reservedKind) ∧
    launch defaultPlatform dispatcherNames [.record ⟨.push, some (.regRef "r9"), none⟩] =
      .fault (.undefinedReference "r9" 0) := ⟨rfl, rfl⟩

theorem test_loader_refuses :
    loadProgram [.slot 0xB800000000000000, .slot 0xC000000000000000] State.reset =
      .refused (.undecodableSlot .reservedKind) := rfl

/-! ## Witnesses: the hypotheses of each statement can be met together -/

/-- A state with r0 = 0x1234, r1 = 0x0040, sp = 0x0100 and the word 0xABCD at 0x0040. -/
def ready : State := host 0x1234 0x0040 0 0 0x0100 0 [(0x40, 0xCD), (0x41, 0xAB)]

theorem ready_inv : ready.Inv := ⟨by decide, by decide⟩

/-- The wiring of the block routes as `Wired` says, and so `Proper` holds of it. -/
theorem ready_wired : ready.Wired := wiring_units

theorem ready_proper : ready.registry.Proper := ready_wired.proper

theorem witness_DecodeOfEncodeIsIdentity :
    (Instr.umul (.reg r0) (.memRel (.reg .sp) (.cons .sub (.reg r7) .nil))).WellFormed ∧
    (Instr.umul (.reg r0) (.memRel (.reg .sp) (.cons .sub (.reg r7) .nil))).hasSlotForm = true := by
  decide

theorem witness_EncodeOfDecodeIsIdentity :
    decode 0x2840000002000102 = .instr (.umul (.reg r0) (.const 0x0102)) := by decide

/-- A reserved slot of each of the four kinds, in the cell that the next tick fetches; two slots whose
record is outside the shape table (R81, R82); an ill-formed record; a cell the loader rejects. -/
theorem witness_ReservedSlotsSpellNoInstruction :
    (24 ≤ ((0xC000000000000000 : Slot).extractLsb' 59 5).toNat) ∧
    ((0x0100000000000000 : Slot).extractLsb' 56 3 ≠ 0) ∧
    reservedDescriptor ((0x00C0000002000000 : Slot).extractLsb' 28 28) ∧
    reservedDescriptor ((0x0040000002010000 : Slot).extractLsb' 0 28) ∧
    ({ State.reset with prog := [.slot 0xC000000000000000] } : State).prog[0]? =
      some (.slot 0xC000000000000000) ∧
    decodeOperand ((0x8020000052000000 : Slot).extractLsb' 28 28) = .ok (some (.const 5)) ∧
    decodeOperand ((0x8020000052000000 : Slot).extractLsb' 0 28) = .ok (some (.const 0)) ∧
    ¬shapeOfTable ⟨.jmp, some (.const 5), some (.const 0)⟩ ∧
    decode 0xB820000052000000 = .illFormed .extraOperand ∧
    (Record.mk .add (some (.reg r0)) none).toInstr = .error .missingOperand ∧
    ∀ i, decodeCell (.slot 0x1840000000000000) ≠ .next i := by
  unfold reservedDescriptor shapeOfTable
  refine ⟨by decide, by decide, by decide, by decide, by decide, by decide, by decide, by decide,
    by decide, by decide, fun i h => ?_⟩
  cases h

theorem witness_RecordShapesAreTheTable : shapeOfTable ⟨.not, some (.reg r0), none⟩ ∧
    ¬shapeOfTable ⟨.jmp, some (.memC 5), none⟩ := by
  unfold shapeOfTable; decide

/-- The boundary addresses of the default map. -/
theorem witness_ResetStateIsPowerOn :
    State.reset.map.route .read 0 = .hit 0 0 ∧ State.reset.map.route .write 0xFFFE = .hit 0 0xFFFE ∧
    State.reset.map.route .read (-1) = .miss false ∧
    State.reset.map.route .write 0xFFFF = .miss false := by decide

theorem witness_StepKeepsInvariants : ready.Inv ∧ ready.CompareExclusive ∧ ready.Wired ∧
    ∃ t, step ready = .next t :=
  ⟨ready_inv, by unfold State.CompareExclusive; decide, ready_wired, _, rfl⟩

theorem witness_HostMovesKeepInvariantAndConfiguration : ready.Inv ∧
    (∃ t, hostMove .tick ready = .done t) ∧ ∃ t, hostMove (.writeMem 0x40 0x5555) ready = .done t :=
  ⟨ready_inv, ⟨_, rfl⟩, _, rfl⟩

theorem witness_FlagsAreSticky :
    ∃ t, step { ready with prog := [.slot 0x1840000002000001] } = .next t ∧
    fetch { ready with prog := [.slot 0x1840000002000001] } = .next (.add (.reg r0) (.const 1)) :=
  ⟨_, rfl, rfl⟩

theorem witness_OnlyBranchesRedirectThePc : (Instr.add (.reg r0) (.const 1)).kind.isBranch = false ∧
    fetch { ready with prog := [.slot 0x1840000002000001] } = .next (.add (.reg r0) (.const 1)) ∧
    ∃ t, step { ready with prog := [.slot 0x1840000002000001] } = .next t :=
  ⟨by decide, rfl, _, rfl⟩

theorem witness_UnreadFlagsNeverMatter : (0xFFE7 : Word) &&& 0x0018 = 0 ∧
    ∃ t, step { ready with prog := [.slot 0x8820000050000000] } = .next t :=
  ⟨by decide, _, rfl⟩

theorem witness_SafeProgramNeverStops : ready.registry.Proper ∧
    SafeProgram [.slot 0x0040000002000001, .record ⟨.pop, none, none⟩, .slot 0x8020000000000000] :=
  ⟨ready_proper, by unfold SafeProgram; decide⟩

/-- One instruction of every constructor that meets the hypotheses on it; `ready_proper` meets the
one on the state. -/
theorem witness_WellFormedLinkedWritableCompletes :
    ∀ i ∈ [Instr.mov (.reg r0) (.const 1), .push (.const 1), .pop none, .add (.reg r0) (.const 1),
      .sub (.reg r0) (.const 1), .umul (.reg r0) (.const 1), .smul (.reg r0) (.const 1),
      .udiv (.reg r0) (.const 1), .sdiv (.reg r0) (.const 1), .and (.reg r0) (.const 1),
      .or (.reg r0) (.const 1), .xor (.reg r0) (.const 1), .shl (.reg r0) (.const 1),
      .shr (.reg r0) (.const 1), .not (.reg r0) none, .cmp (.const 1) (.const 1), .jmp (.const 1),
      .jeq (.const 1), .jne (.const 1), .jlt (.const 1), .jle (.const 1), .jgt (.const 1),
      .jge (.const 1), .nop],
    i.WellFormed ∧ i.linked = true ∧ i.writable = true := by decide

theorem witness_InstructionsStopOnlyAsSaid :
    ((Instr.mov (.const 1) (.reg r0)).WellFormed ∧
      exec (.mov (.const 1) (.reg r0)) ready = .fault .notWritable) ∧
    exec (.push (.regRef "r1")) ready = .fault .unresolvedReference ∧
    exec (.push (.const 1)) { ready with registry := [(.ipu, .kinds [.add])] } =
      .fault .unsupportedInstruction ∧
    exec (.jeq (.memC 0)) ready = .refused (.illFormedRecord .memoryBranchTarget) := by
  repeat' apply And.intro
  all_goals rfl

/-- No unit, one unit (its own kind and a foreign one), two units; and a state with a proper
registry. -/
theorem witness_UnitsRejectForeignKinds :
    ready.registry.units .nop = [] ∧
    ready.registry.units (.jmp (.const 1)) = [.ipu] ∧
    Registry.units [(.alu, .kinds [.mov])] (.mov (.reg r0) (.const 1)) = [.alu] ∧
    Kind.mov ∉ ExecUnit.alu.family ∧
    Registry.units twoAlus (.add (.reg r0) (.const 1)) = [.alu, .alu] ∧
    (Instr.add (.reg r0) (.const 1)).kind ∈ ExecUnit.alu.family ∧
    (∃ t, exec (.add (.reg r0) (.const 1)) ready = .next t) ∧ ready.registry.Proper :=
  ⟨by decide, by decide, by decide, by decide, by decide, by decide, ⟨_, rfl⟩, ready_proper⟩

/-- The three cases: a slot, a record, and a pc past the end; and a wired state. -/
theorem witness_StepRunsTheDecodedInstruction : ready.Wired ∧
    (({ ready with prog := [.slot 0xB800000000000000] } : State).prog[0]? =
        some (.slot 0xB800000000000000) ∧ decode 0xB800000000000000 = .instr .nop) ∧
    (({ ready with prog := [.record ⟨.push, some (.reg .sp), none⟩] } : State).prog[0]? =
        some (.record ⟨.push, some (.reg .sp), none⟩) ∧
      (Record.mk .push (some (.reg .sp)) none).toInstr = .ok (.push (.reg .sp))) ∧
    ready.prog.length ≤ ready.pc.toNat := ⟨ready_wired, by decide⟩

/-- In range at the last index, out of range at the length, and an empty program. -/
theorem witness_NextIsTheCellOrNop :
    (1 < ({ ready with prog := [.slot 0, .slot 0], pc := 1 } : State).prog.length) ∧
    (({ ready with prog := [.slot 0, .slot 0], pc := 2 } : State).prog.length ≤ 2) ∧
    ready.prog = [] := by decide

theorem witness_TickPastTheEnd : ({ ready with pc := 0xFFFE } : State).registry.Proper ∧
    ({ ready with pc := 0xFFFE } : State).prog.length ≤
      ({ ready with pc := 0xFFFE } : State).pc.toNat ∧ (0xFFFE : Word) ≠ 0xFFFF :=
  ⟨ready_proper, by decide⟩

theorem witness_MovCopiesWord : (Instr.mov (.reg r0) (.memAbs (.reg r1))).WellFormed ∧
    ready.operand? (.memAbs (.reg r1)) = some 0xABCD ∧ ready.place? (.reg r0) = some (.reg r0) ∧
    ready.place? (.memC 0xFFFE) = some (.ram 0 0xFFFE) := by decide

/-- An absent, an ambiguous and a write-only address. -/
theorem witness_FailedReadHandsOverFreeValue :
    (Instr.mov (.reg r0) (.memC 0x5000)).WellFormed ∧ (Param.memC 0x5000).isMem = true ∧
    address (onTestMap 0 [] [] [] []) (.memC 0x5000) = .next 0x5000 ∧
    testMap.acceptors 0x5000 = [] ∧ 2 ≤ (testMap.acceptors 0x00F0).length ∧
    testMap.acceptors 0x300E = [⟨0x3000, .range 0x10, .writeOnly, .unit 3⟩] := by
  repeat' apply And.intro
  all_goals rfl

/-- An absent, an ambiguous and a read-only address. -/
theorem witness_FailedWriteStoresNothing :
    (Instr.mov (.memC 0x5000) (.const 1)).WellFormed ∧
    (onTestMap 0 [] [] [] []).operand? (.const 1) = some 1 ∧
    address (onTestMap 0 [] [] [] []) (.memC 0x5000) = .next 0x5000 ∧
    testMap.acceptors 0x010F = [] ∧ 2 ≤ (testMap.acceptors 0x00FE).length ∧
    testMap.acceptors 0x200E = [⟨0x2000, .range 0x10, .readOnly, .unit 2⟩] := by
  repeat' apply And.intro
  all_goals rfl

/-- A platform with one peripheral of 16 addresses. -/
def withPeripheral : State :=
  { State.reset with
    units := [.peripheral 0x10 4 0]
    map := .unitReg 0x8000 (.range 0x10) .readWrite 0 .empty }

theorem witness_PeripheralsAreAccessedOnce :
    address withPeripheral (.memC 0x800E) = .next 0x800E ∧
    withPeripheral.units[0]? = some (.peripheral 0x10 4 0) ∧
    (Instr.mov (.reg r0) (.memC 0x800E)).WellFormed ∧
    withPeripheral.map.route .read 0x800E = .hit 0 0x0E ∧
    (Instr.mov (.memC 0x800E) (.const 1)).WellFormed ∧
    withPeripheral.operand? (.const 1) = some 1 ∧
    withPeripheral.map.route .write 0x800E = .hit 0 0x0E := by
  repeat' apply And.intro
  all_goals rfl

/-- A mapped `[sp]`, the last mapped one, and the unmapped one. -/
theorem witness_PushStoresThenAdvances : ready.Wired ∧ (Instr.push (.reg r0)).WellFormed ∧
    ready.operand? (.reg r0) = some 0x1234 ∧
    ready.place? (.memAbs (.reg .sp)) = some (.ram 0 0x0100) ∧
    ({ ready with sp := 0xFFFE } : State).place? (.memAbs (.reg .sp)) = some (.ram 0 0xFFFE) ∧
    ready.map.acceptors 0xFFFF = [] := ⟨ready_wired, by decide⟩

/-- sp below 2 at 1, sp at 2, and a destination. -/
theorem witness_PopRetreatsThenCopies : ready.Wired ∧ (Instr.pop (some (.reg r2))).WellFormed ∧
    (Instr.pop (some (.reg r2))).writable = true ∧ (1 : Word).toNat < 2 ∧ 2 ≤ (2 : Word).toNat ∧
    ({ ready with sp := 0x0040 } : State).operand? (.memAbs (.reg .sp)) = some 0xABCD ∧
    ready.place? (.reg r2) = some (.reg r2) := ⟨ready_wired, by decide⟩

theorem witness_PushThenPopRestores : ready.Inv ∧ ready.Wired ∧ (Instr.push (.reg r0)).WellFormed ∧
    ready.operand? (.reg r0) = some 0x1234 ∧ ready.sp.toNat ≤ 0xFFFD ∧
    ready.map.route .write 0x0100 = .hit 0 0x0100 ∧ ready.map.route .read 0x0100 = .hit 0 0x0100 ∧
    (ready.ramWord? 0 0x0100).isSome = true ∧
    ready.map.route .write 0xFFFD = .hit 0 0xFFFD := ⟨ready_inv, ready_wired, by decide⟩

/-- Clean operands for every two-operand instruction: a register and a word of RAM. -/
theorem witness_two_operands : ready.operand? (.reg r0) = some 0x1234 ∧
    ready.operand? (.memC 0x40) = some 0xABCD ∧ ready.place? (.reg r0) = some (.reg r0) ∧
    ready.operand? (.const 0) = some 0 ∧ (0xABCD : Word) ≠ 0 := by decide

theorem witness_arithmetic_well_formed :
    (Instr.add (.reg r0) (.memC 0x40)).WellFormed ∧ (Instr.sub (.reg r0) (.memC 0x40)).WellFormed ∧
    (Instr.umul (.reg r0) (.memC 0x40)).WellFormed ∧ (Instr.smul (.reg r0) (.memC 0x40)).WellFormed ∧
    (Instr.udiv (.reg r0) (.memC 0x40)).WellFormed ∧ (Instr.sdiv (.reg r0) (.memC 0x40)).WellFormed ∧
    (Param.reg r0).isConst = false := by decide

theorem witness_bitwise_well_formed :
    (Instr.and (.reg r0) (.memC 0x40)).WellFormed ∧ (Instr.or (.reg r0) (.memC 0x40)).WellFormed ∧
    (Instr.xor (.reg r0) (.memC 0x40)).WellFormed ∧ (Instr.shl (.reg r0) (.memC 0x40)).WellFormed ∧
    (Instr.shr (.reg r0) (.memC 0x40)).WellFormed ∧ (Instr.not (.reg r0) none).WellFormed ∧
    (Instr.cmp (.reg r0) (.memC 0x40)).WellFormed := by decide

theorem witness_FailedOperandsGoOn : (Instr.add (.memC 0x5000) (.const 1)).WellFormed ∧
    (Instr.and (.memC 0x5000) (.const 1)).WellFormed ∧
    (Instr.cmp (.memC 0x5000) (.const 1)).WellFormed ∧ (Param.memC 0x5000).isMem = true ∧
    address (onTestMap 0 [] [] [] []) (.memC 0x5000) = .next 0x5000 ∧
    testMap.acceptors 0x5000 = [] ∧ (onTestMap 0 [] [] [] []).operand? (.const 1) = some 1 := by
  repeat' apply And.intro
  all_goals rfl

/-- A second operand that is no location, an absent one, and an ambiguous one. -/
theorem witness_NotLocatesItsSecondOperand :
    (Instr.not (.reg r0) (some (.memC 0x00F8))).WellFormed ∧
    (∃ t, exec (.not (.reg r0) none) (onTestMap 0x00FF [] [] [] []) = .next t) ∧
    (Param.const 1).isMem = false ∧ (Param.memC 0x00F8).isMem = true ∧
    2 ≤ (testMap.acceptors 0x00F8).length ∧ ¬2 ≤ (testMap.acceptors 0x5000).length :=
  ⟨by decide, ⟨_, rfl⟩, by decide, by decide, by decide, by decide⟩

theorem witness_branches : ready.Wired ∧
    (Instr.jmp (.reg r0)).WellFormed ∧ (Instr.jeq (.reg r0)).WellFormed ∧
    (Instr.jne (.const 5)).WellFormed ∧ (Instr.jlt (.const 5)).WellFormed ∧
    (Instr.jle (.const 5)).WellFormed ∧ (Instr.jgt (.const 5)).WellFormed ∧
    (Instr.jge (.reg .sp)).WellFormed ∧ ready.operand? (.reg r0) = some 0x1234 ∧
    (ready.flags.getLsbD 3 = false ∧ ready.flags.getLsbD 4 = false) ∧
    fetch { ready with prog := [.slot 0x8040000000000000] } = .next (.jmp (.reg r0)) := by
  refine ⟨ready_wired, ?_⟩
  repeat' apply And.intro
  all_goals rfl

theorem witness_NopOnlySetsIllegalAndCounts : ready.registry.Proper ∧ fetch ready = .next .nop :=
  ⟨ready_proper, rfl⟩

/-- An instruction of each frame that answers a next state, and what `pop` issues. -/
theorem witness_frames : ready.Wired ∧ (∃ t, issueSub ready = .next t) ∧
    (∃ t, exec (.sdiv (.reg r0) (.memC 0x40)) ready = .next t) ∧
    (∃ t, exec (.add (.memAbs (.reg r1)) (.reg r0)) ready = .next t) ∧
    (∃ t, exec (.shl (.memC 0x40) (.const 1)) ready = .next t) ∧
    (∃ t, exec (.cmp (.reg r0) (.memC 0x40)) ready = .next t) ∧
    (∃ t, exec (.mov (.memC 0x40) (.reg r0)) ready = .next t) ∧
    (∃ t, exec (.push (.reg r0)) ready = .next t) ∧
    (∃ t, exec (.pop (some (.memC 0x40))) ready = .next t) ∧ (∃ t, exec (.pop none) ready = .next t) ∧
    (∃ t, exec (.jge (.const 5)) ready = .next t) :=
  ⟨ready_wired, ⟨_, rfl⟩, ⟨_, rfl⟩, ⟨_, rfl⟩, ⟨_, rfl⟩, ⟨_, rfl⟩, ⟨_, rfl⟩, ⟨_, rfl⟩, ⟨_, rfl⟩, ⟨_, rfl⟩, _,
    rfl⟩

theorem witness_MemWriteStoresBothBytes :
    ready.units[0]? = some (.ram memSize [(0x40, 0xCD), (0x41, 0xAB)]) ∧
    Memory.wf [(0x40, 0xCD), (0x41, 0xAB)] = true ∧ 0xFFFE + 1 < memSize := by decide

/-- The unit target of a one-unit map is well-formed: the boundary words are inside the unit. -/
theorem witness_WellFormedMapNeverFailsBounds :
    Node.Ok [.ram 0x10 []] (.unitReg 0x2000 (.range 0x10) .readOnly 0 .empty) ∧
    Node.route .read (.unitReg 0x2000 (.range 0x10) .readOnly 0 .empty) 0x200E = .hit 0 0x0E := by
  refine ⟨⟨⟨.ram 0x10 [], rfl, fun a ha => ?_⟩, trivial⟩, by decide⟩
  simp only [Validator.accepts, decide_eq_true_eq] at ha
  have h : ((0x2000 : Word).toNat : Int) = 0x2000 := by decide
  simp only [h] at ha
  simp only [h, HwUnit.inBounds, HwUnit.size]
  exact decide_eq_true (by omega)

theorem witness_AmbiguityEagerAbsenceLazy : (Param.memC 0x00F8).isMem = true ∧
    address (onTestMap 0 [] [] [] []) (.memC 0x00F8) = .next 0x00F8 ∧
    2 ≤ (testMap.acceptors 0x00F8).length ∧ testMap.acceptors 0x5000 = [] := by
  repeat' apply And.intro
  all_goals rfl

theorem witness_NestedDelegationIsLazy :
    (Param.memC 0x5004).isMem = true ∧ address ready (.memC 0x5004) = .next 0x5004 ∧
    nestedMap.acceptors 0x5004 = [⟨0x5000, .range 0x100, .writeOnly,
      .child (.unitReg 0 (.range 0x100) .readWrite 0 .empty)⟩] ∧
    Capability.writeOnly ≠ .readOnly ∧ Capability.readWrite ≠ .writeOnly :=
  ⟨by decide, rfl, by decide⟩

theorem witness_HostResetClearsPcOnly :
    0 < ({ ready with prog := [.slot 0] } : State).prog.length := by decide

theorem witness_HostProbesHaveTheAccessEffects : ready.operand? (.memC 0x40) = some 0xABCD ∧
    ready.place? (.memC 0x40) = some (.ram 0 0x40) ∧ 2 ≤ (testMap.acceptors 0x00F8).length ∧
    ready.map.acceptors 0xFFFF = [] := by decide

/-- The boundary values of the host's register write. -/
theorem witness_HostWriteIsRangeChecked : (∃ t, hostMove (.writeReg .pc 0xFFFF) ready = .done t) ∧
    (∃ t, hostMove (.writeReg r0 0) ready = .done t) ∧
    hostMove (.writeReg .sp 0x10000) ready = .rejected .valueOutOfRange ready ∧
    hostMove (.writeReg .flags (-1)) ready = .rejected .valueOutOfRange ready :=
  ⟨⟨_, rfl⟩, ⟨_, rfl⟩, by decide, by decide⟩

/-- A program that links, with a slot, and one that does not. -/
theorem witness_LinkingRemovesEveryReference :
    (∃ p, resolveReferences [.slot 0, .record ⟨.push, some (.regRef "r1"), none⟩] dispatcherNames =
      .next p) ∧
    recordReferences ⟨.push, some (.memAbs (.regRef "x")), none⟩ = ["x"] ∧
    dispatcherNames.find "x" = none ∧
    ∃ f, resolveReferences [.record ⟨.push, some (.memAbs (.regRef "x")), none⟩] dispatcherNames =
      .fault f :=
  ⟨⟨_, rfl⟩, by decide, by decide, _, rfl⟩

end Sys2Proof.Tests
end

section
/-! PROOFS. The host's data accesses (R33): each ends where the route from the root says, and what that
comes to when the address is ambiguous or absent at the root. -/

namespace Sys2Proof.Machine

/-! ## A root that does not lead to one registrant (R52) -/

/-- Two accepting registrants: the route meets the ambiguity at once. -/
theorem Node.route_of_ambiguous {n : Node} {a : Int} (h : 2 ≤ (n.acceptors a).length) (k : Access) :
    n.route k a = .miss true := by
  rw [Node.route_eq]
  match n.acceptors a, h with
  | _ :: _ :: _, _ => rfl

/-- No accepting registrant: the route ends without an ambiguity. -/
theorem Node.route_of_absent {n : Node} {a : Int} (h : n.acceptors a = []) (k : Access) :
    n.route k a = .miss false := by
  rw [Node.route_eq, h]

/-- Locating an ambiguous address sets MULTISTATE before any access is made (R52 step 4, R55). -/
theorem locateAt_of_ambiguous {n : Node} {a : Int} (h : 2 ≤ (n.acceptors a).length) (s : State) :
    locateAt n a s = (.unresolved, s.setFlags fMultistate) := by
  unfold locateAt
  match n.acceptors a, h with
  | _ :: _ :: _, _ => rfl

/-! ## Accesses that end nowhere (R57, R58) -/

/-- The flags that an access ending nowhere sets: SEG, and MULTISTATE where it met an ambiguity. -/
def missFlags (multistate : Bool) : Word := if multistate then 0x0060 else 0x0020

/-- A write that ends nowhere only sets its flags: no byte is stored. -/
theorem writeRoute_miss (m : Bool) (v : Word) (s : State) :
    writeRoute (.miss m) v s = s.setFlags (missFlags m) := by
  cases m with
  | false => rfl
  | true => exact State.setFlags_setFlags s fMultistate fSeg

/-- A read that ends nowhere sets the flags that a write would. -/
theorem readRoute_miss_flags (m : Bool) (s : State) :
    (readRoute (.miss m) s).2.flags = s.flags ||| missFlags m := by
  cases m with
  | false => rfl
  | true => exact BitVec.or_assoc s.flags fMultistate fSeg

/-! ## The host's accesses -/

/-- A constant address is located at the root (R52, R56). -/
theorem locateRoot_memC (a : Int) (s : State) :
    locateRoot (.memC a) s = .next (locateAt s.map a s) := rfl

/-- The host's read answers, and ends where the route from the root says. -/
theorem hostReadMem_eq (s : State) (a : Int) :
    hostReadMem s a = .next (readRoute (s.map.route .read a) s) := by
  rw [hostReadMem, locateRoot_memC, andThen_next, rd_locateAt]

/-- The host's write answers, and ends where the route from the root says. -/
theorem hostWriteMem_eq (s : State) (a : Int) (v : Word) :
    hostWriteMem s a v = .next (writeRoute (s.map.route .write a) v s) := by
  rw [hostWriteMem, locateRoot_memC, andThen_next, wr_locateAt]

/-- A host's read that answers is a done move into the state it leaves. -/
theorem hostMove_readMem {s : State} {a : Int} {r : Word × State} (h : hostReadMem s a = .next r) :
    hostMove (.readMem a) s = .done r.2 := by
  rw [hostMove, h, andThen_next, HostReply.ofRes]

/-- A host's write that answers is a done move into the state it leaves. -/
theorem hostMove_writeMem {s t : State} {a : Int} {v : Word} (h : hostWriteMem s a v = .next t) :
    hostMove (.writeMem a v) s = .done t := by
  rw [hostMove, h, HostReply.ofRes]

/-- The host reads a mapped word with nothing changed. -/
theorem hostReadMem_of_operand {s : State} {a : Int} {w : Word} (h : s.operand? (.memC a) = some w) :
    hostReadMem s a = .next (w, s) := by
  obtain ⟨A, hA, hr⟩ := locateRoot_of_operand h
  rw [hostReadMem, hA, andThen_next, hr]

/-- The host writes a mapped word where the core would store it. -/
theorem hostWriteMem_of_place {s : State} {a : Int} {d : Place} (h : s.place? (.memC a) = some d)
    (v : Word) : hostWriteMem s a v = .next (s.store d v) := by
  obtain ⟨A, hA, hw⟩ := locateRoot_of_place h
  rw [hostWriteMem, hA, andThen_next, hw]

/-- A host's read whose route ends nowhere is done, with the flags of the miss. -/
theorem hostMove_readMem_of_miss {s : State} {a : Int} {m : Bool} (h : s.map.route .read a = .miss m) :
    ∃ t, hostMove (.readMem a) s = .done t ∧ t.flags = s.flags ||| missFlags m :=
  ⟨_, hostMove_readMem (hostReadMem_eq s a), by rw [h, readRoute_miss_flags]⟩

/-- A host's write whose route ends nowhere is done, and only sets the flags of the miss. -/
theorem hostMove_writeMem_of_miss {s : State} {a : Int} {m : Bool} (h : s.map.route .write a = .miss m)
    (v : Word) : hostMove (.writeMem a v) s = .done (s.setFlags (missFlags m)) := by
  rw [hostMove_writeMem (hostWriteMem_eq s a v), h, writeRoute_miss]

end Sys2Proof.Machine

namespace Sys2Proof.Proofs

open Sys2Proof.Machine

/-- Settles O58: the host's accesses follow the locator's route from the root, which is a clean word, an
ambiguity or an absence. -/
theorem hostProbesHaveTheAccessEffects : Obligations.HostProbesHaveTheAccessEffects := by
  intro s a v
  refine ⟨rfl, rfl, fun w hw => ?mappedRead, fun d hd => ?mappedWrite, fun h2 => ?ambiguous,
    fun h0 => ?absent⟩
  case mappedRead =>
    have hr := hostReadMem_of_operand hw
    exact ⟨hr, hostMove_readMem hr⟩
  case mappedWrite => exact hostMove_writeMem (hostWriteMem_of_place hd v)
  case ambiguous =>
    have hroute := Node.route_of_ambiguous h2
    have hlocate : locateRoot (.memC a) s = .next (.unresolved, s.setFlags fMultistate) := by
      rw [locateRoot_memC, locateAt_of_ambiguous h2]
    exact ⟨⟨_, hlocate⟩, hostMove_readMem_of_miss (hroute .read),
      hostMove_writeMem_of_miss (hroute .write) v⟩
  case absent =>
    have hroute := Node.route_of_absent h0
    exact ⟨hostMove_readMem_of_miss (hroute .read), hostMove_writeMem_of_miss (hroute .write) v⟩

end Sys2Proof.Proofs
end

section
/-! PROOFS. Ambiguity is met at `locate`, absence at the access (R55): at every locator node, `locate`
itself sets only the flag of an ambiguity, and an access whose route ends nowhere leaves the flags of its
miss, whatever `locate` has set of them before. -/

namespace Sys2Proof.Machine

/-- Locating an absent address sets no flag yet (R52 step 5, R55). -/
theorem locateAt_of_absent {n : Node} {a : Int} (h : n.acceptors a = []) (s : State) :
    locateAt n a s = (.unresolved, s) := by
  rw [locateAt, h]

/-- A MemoryLocation that has an address is located at that address (R48, R52). -/
theorem locate_of_address {p : Param} {s : State} {a : Int} (hp : p.isMem = true)
    (ha : address s p = .next a) (n : Node) : locate n p s = .next (locateAt n a s) := by
  rw [locate_of_isMem hp, ha, andThen_next]

/-- A read through what `locate` returned, on a route that ends nowhere, leaves the flags of the miss
(R53, R57). -/
theorem rd_of_locateAt_miss {n : Node} {a : Int} {s s' : State} {A : Accessor} {m : Bool}
    (hl : locateAt n a s = (A, s')) (hr : n.route .read a = .miss m) :
    ∃ w t, rd A s' = .next (w, t) ∧ t.flags = s.flags ||| missFlags m := by
  have hrd := rd_locateAt n a s
  rw [hl, hr] at hrd
  exact ⟨_, _, hrd, readRoute_miss_flags m s⟩

/-- A write through what `locate` returned, on a route that ends nowhere, only sets the flags of the
miss (R53, R58). -/
theorem wr_of_locateAt_miss {n : Node} {a : Int} {s s' : State} {A : Accessor} {m : Bool}
    (hl : locateAt n a s = (A, s')) (hr : n.route .write a = .miss m) (v : Word) :
    wr A v s' = .next (s.setFlags (missFlags m)) := by
  have hwr := wr_locateAt n a v s
  rwa [hl, hr, writeRoute_miss] at hwr

end Sys2Proof.Machine

namespace Sys2Proof.Proofs

open Sys2Proof.Machine

/-- Settles O54: the number of accepting registrants decides both what `locate` sets and, by the route
of the access, the flags that stand after it. -/
theorem ambiguityEagerAbsenceLazy : Obligations.AmbiguityEagerAbsenceLazy := by
  intro s n p a hp ha
  have hlocate := locate_of_address hp ha n
  refine ⟨fun h2 => ?ambiguous, fun h0 => ?absent⟩
  case ambiguous =>
    have hl := locateAt_of_ambiguous h2 s
    have hroute := Node.route_of_ambiguous h2
    rw [hl] at hlocate
    exact ⟨_, _, hlocate, rfl, rd_of_locateAt_miss hl (hroute .read),
      fun v => ⟨_, wr_of_locateAt_miss hl (hroute .write) v, rfl⟩⟩
  case absent =>
    have hl := locateAt_of_absent h0 s
    have hroute := Node.route_of_absent h0
    rw [hl] at hlocate
    exact ⟨_, hlocate, rd_of_locateAt_miss hl (hroute .read),
      fun v => ⟨_, wr_of_locateAt_miss hl (hroute .write) v, rfl⟩⟩

end Sys2Proof.Proofs
end

section
/-! PROOFS. The fetch and the tick (R101, R102): what `next()` returns for the program counter in range
and past the end, and the step of a fetched instruction as an update of the state's fields. -/

namespace Sys2Proof.Machine

/-! ## The fetch (R102) -/

/-- The fetch of a counter in range decodes the cell there. -/
theorem fetch_of_cell {s : State} {cell : ProgCell} (h : s.prog[s.pc.toNat]? = some cell) :
    fetch s = decodeCell cell := by
  rw [fetch, h]

/-- The fetch of a counter out of range returns the default no-op. -/
theorem fetch_of_past_end {s : State} (h : s.prog.length ≤ s.pc.toNat) : fetch s = .next .nop := by
  rw [fetch, List.getElem?_eq_none h]

/-- A slot that decodes to an instruction is that instruction's cell. -/
theorem decodeCell_slot {S : Slot} {i : Instr} (h : decode S = .instr i) :
    decodeCell (.slot S) = .next i := by
  rw [decodeCell, h]

/-- A record of an instruction is that instruction's cell. -/
theorem decodeCell_record {r : Record} {i : Instr} (h : r.toInstr = .ok i) :
    decodeCell (.record r) = .next i := by
  rw [decodeCell, h]

/-! ## The tick (R101) -/

/-- The increment changes the program counter only, modulo 2^16 (R16). -/
theorem advancePc_eq (s : State) : advancePc s = { s with pc := s.pc + 1 } := by
  rw [← advancePc_pc]
  rfl

/-- The ILLEGAL check changes the flags only, and only for the default no-op. -/
theorem noteIllegal_eq (i : Instr) (s : State) :
    noteIllegal i s = if i = .nop then { s with flags := s.flags ||| 0x0080 } else s := rfl

end Sys2Proof.Machine

namespace Sys2Proof.Proofs

open Sys2Proof.Machine

/-- Settles O17: in each of the three cases the fetch answers the instruction, and the tick ends as the
broadcast of it does, which with the wiring of R106 is its execution. -/
theorem stepRunsTheDecodedInstruction : Obligations.StepRunsTheDecodedInstruction := by
  intro s i hcell
  have hfetch : fetch s = .next i := by
    obtain ⟨S, hS, hi⟩ | ⟨r, hr, hi⟩ | ⟨hend, rfl⟩ := hcell
    · rw [fetch_of_cell hS, decodeCell_slot hi]
    · rw [fetch_of_cell hr, decodeCell_record hi]
    · exact fetch_of_past_end hend
  rw [← noteIllegal_eq]
  refine (and_iff_left_of_imp fun htick hw => ?wired).mpr ?tick
  case wired => rwa [dispatch_eq_exec (hw.noteIllegal i)] at htick
  case tick =>
    rw [step_of_fetch hfetch]
    cases dispatch i (noteIllegal i s) with
    | next t => rw [andThen_next, advancePc_eq]
    | fault f => rfl
    | refused e => rfl

/-- Settles O18: an empty program is past its end at every counter. -/
theorem nextIsTheCellOrNop : Obligations.NextIsTheCellOrNop := by
  intro s
  refine ⟨fun h => fetch_of_cell (List.getElem?_eq_getElem h), fetch_of_past_end, fun hempty => ?_⟩
  exact fetch_of_past_end (by simp [hempty])

end Sys2Proof.Proofs
end

section
/-! PROOFS. The branches (R180 to R188): one condition table for the seven kinds, what a branch to an
operand that reads clean does, and the fields of a slot that decodes. -/

namespace Sys2Proof.Machine

/-! ## The flags that a branch tests (R14) -/

/-- Testing the mask of a single bit reads that bit. -/
theorem State.isSet_twoPow (s : State) (k : Nat) (hk : k < 16) :
    s.isSet (BitVec.twoPow 16 k) = s.flags.getLsbD k := by
  rw [State.isSet, BitVec.and_twoPow]
  cases s.flags.getLsbD k with
  | false => rfl
  | true => interval_cases k <;> rfl

theorem State.isSet_fEqual (s : State) : s.isSet fEqual = s.flags.getLsbD 3 :=
  s.isSet_twoPow 3 (by decide)

theorem State.isSet_fLess (s : State) : s.isSet fLess = s.flags.getLsbD 4 :=
  s.isSet_twoPow 4 (by decide)

/-! ## The condition table (R181 to R188) -/

/-- Whether a branch of the kind is taken, from EQUAL and LESS; other kinds never branch. -/
def branchTaken (equal less : Bool) : Kind → Bool
  | .jmp => true
  | .jeq => equal
  | .jne => !equal
  | .jlt => less && !equal
  | .jle => less || equal
  | .jgt => !less && !equal
  | .jge => !less || equal
  | _ => false

/-- A branch runs by the condition table. -/
theorem exec_branch {i : Instr} (hb : i.kind.isBranch = true) {p : Param} (hp : i.p1? = some p)
    (s : State) : exec i s =
      checkShape i (branch (branchTaken (s.flags.getLsbD 3) (s.flags.getLsbD 4) i.kind) p s) := by
  rw [← s.isSet_fEqual, ← s.isSet_fLess]
  cases i
  case jmp | jeq | jne | jlt | jle | jgt | jge => cases hp; rfl
  all_goals cases hb

/-! ## The target (R47, R181) -/

/-- The target of a well-formed branch is no MemoryLocation (R181). -/
theorem not_isMem_of_branch_wellFormed {i : Instr} (h : i.WellFormed) (hb : i.kind.isBranch = true)
    {p : Param} (hp : i.p1? = some p) : p.isMem = false := by
  unfold Instr.WellFormed Instr.shapeError? at h
  split at h
  · cases h
  · split at h
    · cases h
    · rename_i hany
      simp only [hb, Bool.true_and, List.any_eq_true, not_exists, not_and, Bool.not_eq_true] at hany
      exact hany p (by simp [Instr.operands, hp])

/-- Outside memory, the value of an operand is the word that it reads as (R47). -/
theorem value_of_operand {s : State} {p : Param} {w : Word} (hm : p.isMem = false)
    (h : s.operand? p = some w) : value s p = .next (w.toNat : Int) := by
  cases p with
  | const c => cases h; rfl
  | reg r => cases h; rfl
  | regRef n => cases h
  | memC a => cases hm
  | memAbs q => cases hm
  | memRel t0 rest => cases hm

/-- The write of a taken branch: the word before the target, modulo 2^16 (R181). -/
theorem State.setPc_pred (s : State) (w : Word) :
    s.setPc ((w.toNat : Int) - 1) = { s with pc := w - 1 } := by
  have h : u16 ((w.toNat : Int) - 1) = w - 1 := by
    rw [u16, Int.sub_eq_add_neg, BitVec.ofInt_add, BitVec.ofInt_natCast, BitVec.ofNat_toNat,
      BitVec.setWidth_eq, sub_eq_add_neg]
    rfl
  rw [State.setPc, h]

/-- What a well-formed branch to a clean operand does: by the condition table it writes `pc` or
nothing, and changes no other field (R180, R181). -/
theorem exec_branch_of_operand {i : Instr} (hwf : i.WellFormed) (hb : i.kind.isBranch = true)
    {p : Param} (hp : i.p1? = some p) {s : State} {w : Word} (ho : s.operand? p = some w) :
    exec i s = .next (if branchTaken (s.flags.getLsbD 3) (s.flags.getLsbD 4) i.kind = true
      then { s with pc := w - 1 } else s) := by
  have hm := not_isMem_of_branch_wellFormed hwf hb hp
  rw [exec_branch hb hp, checkShape_wf hwf, branch, value_of_operand hm ho, andThen_next,
    State.setPc_pred]
  split <;> rfl

/-! ## The slot of a decoded instruction (R74, R79) -/

/-- The shape table keeps kind and operands (R73). -/
theorem toRecord_of_toInstrShape {r : Record} {i : Instr} (h : r.toInstrShape = .ok i) :
    i.toRecord = r := by
  unfold Record.toInstrShape at h
  split at h <;> cases h <;> rfl

/-- An instruction has the kind and operands of the record it is read from (R73). -/
theorem toRecord_of_toInstr {r : Record} {i : Instr} (h : r.toInstr = .ok i) : i.toRecord = r := by
  unfold Record.toInstr at h
  split at h
  · cases h
  · split at h
    · cases h
    · cases h
      exact toRecord_of_toInstrShape (by assumption)

/-- What a slot that decodes to an instruction holds: the code of its kind, three zero bits and the
descriptors of its operands (R79). -/
theorem fields_of_decode {S : Slot} {i : Instr} (h : decode S = .instr i) :
    S.extractLsb' 59 5 = BitVec.ofNat 5 i.kind.code ∧ S.extractLsb' 56 3 = 0 ∧
    decodeOperand (S.extractLsb' 28 28) = .ok i.p1? ∧
    decodeOperand (S.extractLsb' 0 28) = .ok i.p2? := by
  unfold decode at h
  repeat' split at h
  all_goals cases h
  rename_i k hk hzero _ p1 h1 _ p2 h2 _ hr
  have hi := toRecord_of_toInstr hr
  simp only [Instr.toRecord, Record.mk.injEq] at hi
  obtain ⟨rfl, rfl, rfl⟩ := hi
  refine ⟨?_, not_not.mp hzero, h1, h2⟩
  rw [code_of_kindOfCode hk, BitVec.ofNat_toNat, BitVec.setWidth_eq]

/-- Bits 63:56 of a slot that decodes are the kind code and three zero bits (R74, R75). -/
theorem topByte_of_decode {S : Slot} {i : Instr} (h : decode S = .instr i) :
    S.extractLsb' 56 8 = BitVec.ofNat 8 (i.kind.code * 8) := by
  obtain ⟨hcode, hzero, -, -⟩ := fields_of_decode h
  calc S.extractLsb' 56 8
    _ = S.extractLsb' 59 5 ++ S.extractLsb' 56 3 :=
      (BitVec.extractLsb'_append_extractLsb'_eq_extractLsb' (len₁ := 3) (len₂ := 5) rfl).symm
    _ = BitVec.ofNat 5 i.kind.code ++ (0 : BitVec 3) := by rw [hcode, hzero]
    _ = BitVec.ofNat 8 (i.kind.code * 8) := by cases i.kind <;> rfl

/-- The one descriptor of an absent operand is NONE, all zero (R76). -/
theorem eq_zero_of_decodeOperand_none {D : BitVec 28} (h : decodeOperand D = .ok none) : D = 0 := by
  unfold decodeOperand at h
  dsimp only at h
  repeat' split at h
  all_goals cases h
  rename_i hmbz _ hmode hfields
  obtain ⟨hreg, hrelop, ht1reg, himm⟩ := hfields
  have hzero : D.extractLsb' 16 3 = 0 := BitVec.eq_of_toNat_eq (not_not.mp hmbz)
  rw [eq_descriptor D hzero, hmode, hreg, hrelop, ht1reg, himm]
  rfl

end Sys2Proof.Machine

namespace Sys2Proof.Proofs

open Sys2Proof.Machine

/-- Settles O41: the tick's increment undoes the minus one of the write to pc. -/
theorem jmpGoesToItsTarget : Obligations.JmpGoesToItsTarget := by
  refine ⟨fun s p w hwf ho => ?exec, fun p hwf => not_isMem_of_branch_wellFormed hwf rfl rfl,
    fun s n => rfl, fun S p h => ?slot⟩
  case exec =>
    have hexec : exec (.jmp p) s = .next { s with pc := w - 1 } :=
      exec_branch_of_operand hwf rfl rfl ho
    refine ⟨hexec, fun hw hf => ?_, fun hend => fetch_of_past_end hend⟩
    have hill : noteIllegal (.jmp p) s = s := (noteIllegal_eq _ s).trans (if_neg nofun)
    rw [step_of_fetch_wired hw hf, hill, hexec, andThen_next, advancePc_eq]
    simp only [sub_add_cancel]
  case slot =>
    obtain ⟨-, -, -, hop2⟩ := fields_of_decode h
    exact ⟨topByte_of_decode h, eq_zero_of_decodeOperand_none hop2⟩

/-- Settles O42, by the rows of `jeq` and `jne` in the condition table. -/
theorem equalityBranches : Obligations.EqualityBranches := by
  refine ⟨fun s p w ho => ⟨fun hwf => ?jeq, fun hwf => ?jne⟩, ?operand,
    fun S p => ⟨fun h => topByte_of_decode h, fun h => topByte_of_decode h⟩⟩
  case jeq => exact exec_branch_of_operand hwf rfl rfl ho
  case jne => simpa [branchTaken, Instr.kind] using exec_branch_of_operand hwf rfl rfl ho
  case operand =>
    rintro p (hwf | hwf) <;> exact not_isMem_of_branch_wellFormed hwf rfl rfl

/-- Settles O43, by the rows of `jlt`, `jle`, `jgt` and `jge` in the condition table. -/
theorem orderBranches : Obligations.OrderBranches := by
  refine ⟨fun s p w e l ho he hl => ?taken, ?operand,
    fun S p => ⟨fun h => topByte_of_decode h, fun h => topByte_of_decode h,
      fun h => topByte_of_decode h, fun h => topByte_of_decode h⟩⟩
  case taken =>
    subst he hl
    refine ⟨fun hwf => ?_, fun hwf => ?_, fun hwf => ?_, fun hwf => ?_⟩ <;>
      simpa [branchTaken, Instr.kind] using exec_branch_of_operand hwf rfl rfl ho
  case operand =>
    rintro p (hwf | hwf | hwf | hwf) <;> exact not_isMem_of_branch_wellFormed hwf rfl rfl

end Sys2Proof.Proofs
end

section
/-! PROOFS. The host's `reset()` (R231): the program counter becomes zero, every other field stays, and
the next fetch is of the cell at index 0. -/

namespace Sys2Proof.Machine

/-- The `u16` of the write to the counter leaves zero as it is. -/
theorem hostReset_eq (s : State) : hostReset s = { s with pc := 0 } := by
  rw [hostReset, State.setPc, show u16 0 = 0 from rfl]

theorem hostMove_reset (s : State) : hostMove .reset s = .done (hostReset s) := rfl

/-- With a program loaded, the counter at zero is in range, so no default no-op is fetched (R102). -/
theorem fetch_pc_zero (s : State) (h : 0 < s.prog.length) :
    fetch { s with pc := 0 } = decodeCell s.prog[0] :=
  fetch_of_cell (List.getElem?_eq_getElem h)

end Sys2Proof.Machine

namespace Sys2Proof.Proofs

open Sys2Proof.Machine

/-- Settles O57: the reset is one write to the counter, and the fetch at zero finds the first cell. -/
theorem hostResetClearsPcOnly : Obligations.HostResetClearsPcOnly := by
  intro s
  have hreset : hostMove .reset s = .done { s with pc := 0 } := by
    rw [hostMove_reset, hostReset_eq]
  exact ⟨hreset, fetch_pc_zero s⟩

end Sys2Proof.Proofs
end

section
/-! PROOFS. The round trip of the encoding (R74 to R79, R83): the descriptor of an operand and the operand
of a descriptor are inverse to each other, and so are slots and the instructions that have one. -/

namespace Sys2Proof.Machine

/-! ## Operands (R76, R77) -/

/-- A register that an instruction can name has a selector (R78). -/
theorem exists_selector {r : RegName} (h : r.nameable = true) : ∃ n, r.selector? = some n :=
  Option.isSome_iff_exists.mp ((selector_isSome r).trans h)

theorem nameable_of_selector {r : RegName} {n : Nat} (h : r.selector? = some n) :
    r.nameable = true := by
  rw [← selector_isSome, h, Option.isSome_some]

theorem decodeSelector_of_selector {r : RegName} {n : Nat} (h : r.selector? = some n) :
    decodeSelector n = .ok r := by
  rw [decodeSelector, regOfSelector_selector h]

theorem selector_of_decodeSelector {r : RegName} {n : Nat} (h : decodeSelector n = .ok r) :
    r.selector? = some n := by
  unfold decodeSelector at h
  split at h
  · cases h
    exact selector_of_regOfSelector (by assumption)
  · cases h

/-- Every operand that the slot level can express has a descriptor (R83). -/
theorem exists_encodeOperand {p : Param} (h : p.hasSlotForm = true) :
    ∃ D, encodeOperand (some p) = some D := by
  unfold Param.hasSlotForm at h
  split at h
  case h_1 => exact ⟨_, rfl⟩
  case h_3 | h_6 | h_9 => cases h
  case h_4 => exact ⟨_, if_pos (of_decide_eq_true h)⟩
  case h_8 =>
    rw [Bool.and_eq_true] at h
    obtain ⟨n, hn⟩ := exists_selector h.1
    obtain ⟨n', hn'⟩ := exists_selector h.2
    simp [encodeOperand, hn, hn']
  all_goals
    obtain ⟨n, hn⟩ := exists_selector h
    simp [encodeOperand, hn]

/-- The descriptor of an operand decodes to it (R76, R77). -/
theorem decodeOperand_of_encodeOperand {p : Option Param} {D : BitVec 28}
    (h : encodeOperand p = some D) : decodeOperand D = .ok p := by
  unfold encodeOperand at h
  split at h
  case h_1 => cases h; rfl
  case h_2 => cases h; simp [decodeOperand, descriptor_fields]
  case h_4 =>
    split at h <;> cases h
    simp [decodeOperand, descriptor_fields, BitVec.toNat_ofInt]
    omega
  case h_8 => cases h
  case h_7 op r' =>
    simp only [Option.bind_eq_some_iff, Option.map_eq_some_iff] at h
    obtain ⟨n, hn, n', hn', rfl⟩ := h
    have hlt := selector_lt hn
    have hlt' := selector_lt hn'
    have hmod : n % 16 = n := by omega
    have hmod' : n' % 65536 = n' := by omega
    cases op <;>
      simp [decodeOperand, descriptor_fields, hmod, hmod', decodeSelector_of_selector hn,
        decodeSelector_of_selector hn', RelOp.bit, show ¬16 ≤ n' by omega]
  case h_6 op c =>
    simp only [Option.map_eq_some_iff] at h
    obtain ⟨n, hn, rfl⟩ := h
    have hlt := selector_lt hn
    have hmod : n % 16 = n := by omega
    cases op <;>
      simp [decodeOperand, descriptor_fields, hmod, decodeSelector_of_selector hn, RelOp.bit]
  all_goals
    simp only [Option.map_eq_some_iff] at h
    obtain ⟨n, hn, rfl⟩ := h
    have hlt := selector_lt hn
    have hmod : n % 16 = n := by omega
    simp [decodeOperand, descriptor_fields, hmod, decodeSelector_of_selector hn]

/-- A descriptor whose must-be-zero bits are zero is its fields, put together (R76). -/
theorem descriptor_of_fields {D : BitVec 28} (hmbz : ¬(D.extractLsb' 16 3).toNat ≠ 0)
    {mode reg relop t1reg : Nat} (hmode : (D.extractLsb' 25 3).toNat = mode)
    (hreg : (D.extractLsb' 21 4).toNat = reg) (hrelop : (D.extractLsb' 20 1).toNat = relop)
    (ht1reg : (D.extractLsb' 19 1).toNat = t1reg) :
    descriptor mode reg relop t1reg (D.extractLsb' 0 16) = D := by
  subst hmode hreg hrelop ht1reg
  exact (eq_descriptor D (BitVec.eq_of_toNat_eq (not_not.mp hmbz))).symm

/-- The bit of the operator that a `relop` field spells is the field (R76). -/
theorem RelOp.bit_of_field (b : BitVec 1) :
    (if b.toNat = 0 then RelOp.add else RelOp.sub).bit = b.toNat := by
  have := b.isLt
  split
  · simp [RelOp.bit, *]
  · rw [RelOp.bit]
    omega

/-- A descriptor that decodes is the one descriptor of its operand: every bit of it is read (R77, R81). -/
theorem encodeOperand_of_decodeOperand {D : BitVec 28} {p : Option Param}
    (h : decodeOperand D = .ok p) : encodeOperand p = some D := by
  unfold decodeOperand at h
  dsimp only at h
  have hop := RelOp.bit_of_field (D.extractLsb' 20 1)
  generalize (if (D.extractLsb' 20 1).toNat = 0 then RelOp.add else RelOp.sub) = op at h hop
  split at h
  · cases h
  rename_i hmbz
  split at h
  case h_1 hmode =>
    split at h <;> cases h
    rename_i hz
    obtain ⟨hreg, hrelop, ht1reg, himm⟩ := hz
    rw [encodeOperand, ← descriptor_of_fields hmbz hmode hreg hrelop ht1reg, himm]
  case h_2 hmode =>
    split at h <;> cases h
    rename_i hz
    obtain ⟨hreg, hrelop, ht1reg⟩ := hz
    rw [encodeOperand, descriptor_of_fields hmbz hmode hreg hrelop ht1reg]
  case h_4 hmode =>
    split at h <;> cases h
    rename_i hz
    obtain ⟨hreg, hrelop, ht1reg⟩ := hz
    have hlt := (D.extractLsb' 0 16).isLt
    rw [encodeOperand, if_pos (by omega), BitVec.ofInt_natCast, BitVec.ofNat_toNat,
      BitVec.setWidth_eq, descriptor_of_fields hmbz hmode hreg hrelop ht1reg]
  case h_6 hmode =>
    split at h
    · cases h
    rename_i r hr
    have hsel := selector_of_decodeSelector hr
    split at h
    · rename_i ht1reg
      cases h
      rw [encodeOperand, hsel, Option.map_some, descriptor_of_fields hmbz hmode rfl hop.symm ht1reg]
    · rename_i ht1reg
      split at h
      · cases h
      split at h <;> cases h
      rename_i r' hr'
      have ht1reg : (D.extractLsb' 19 1).toNat = 1 := by omega
      rw [encodeOperand, hsel, Option.bind_some, selector_of_decodeSelector hr', Option.map_some,
        BitVec.ofNat_toNat, BitVec.setWidth_eq,
        descriptor_of_fields hmbz hmode rfl hop.symm ht1reg]
  case h_7 => cases h
  all_goals
    rename_i hmode
    split at h
    · rename_i hz
      obtain ⟨hrelop, ht1reg, himm⟩ := hz
      split at h <;> cases h
      rename_i r hr
      have hD := descriptor_of_fields hmbz hmode rfl hrelop ht1reg
      rw [himm] at hD
      rw [encodeOperand, selector_of_decodeSelector hr, Option.map_some, hD]
    · cases h

/-- Only an operand that the slot level can express has a descriptor (R83). -/
theorem hasSlotForm_of_encodeOperand {p : Param} {D : BitVec 28}
    (h : encodeOperand (some p) = some D) : p.hasSlotForm = true := by
  unfold encodeOperand at h
  split at h <;> rename_i heq <;> cases heq
  case h_2 => rfl
  case h_4 =>
    split at h
    · exact decide_eq_true (by assumption)
    · cases h
  case h_7 op r' =>
    simp only [Option.bind_eq_some_iff, Option.map_eq_some_iff] at h
    obtain ⟨n, hn, n', hn', -⟩ := h
    simp [Param.hasSlotForm, nameable_of_selector hn, nameable_of_selector hn']
  case h_8 => cases h
  all_goals
    obtain ⟨n, hn, -⟩ := Option.map_eq_some_iff.mp h
    exact nameable_of_selector hn

/-! ## Slots (R74, R79) -/

/-- The record of a well-formed instruction reads back as the instruction (R73). -/
theorem toInstr_toRecord {i : Instr} (h : i.WellFormed) : i.toRecord.toInstr = .ok i :=
  Laws.recordRoundTrip_of_shape (by cases i <;> rfl) h

/-- What `encode` answers: the two descriptors, below the code of the kind. -/
theorem encode_eq_some {i : Instr} {S : Slot} : encode i = some S ↔
    ∃ d1 d2, encodeOperand i.p1? = some d1 ∧ encodeOperand i.p2? = some d2 ∧
      slotOf i.kind.code d1 d2 = S := by
  unfold encode
  split
  · rename_i d1 d2 h1 h2
    simp [h1, h2]
  · rename_i hn
    exact ⟨nofun, fun ⟨d1, d2, h1, h2, _⟩ => (hn d1 d2 h1 h2).elim⟩

/-- The decoder reads the fields of a slot that was put together (R74, R79). -/
theorem decode_slotOf {k : Kind} {d1 d2 : BitVec 28} {p1 p2 : Option Param}
    (h1 : decodeOperand d1 = .ok p1) (h2 : decodeOperand d2 = .ok p2) {i : Instr}
    (hi : (Record.mk k p1 p2).toInstr = .ok i) : decode (slotOf k.code d1 d2) = .instr i := by
  obtain ⟨hcode, hzero, hd1, hd2⟩ := slotOf_fields k.code d1 d2
  have hlt := code_lt k
  have hk : (BitVec.ofNat 5 k.code).toNat = k.code := by
    rw [BitVec.toNat_ofNat]
    omega
  simp [decode, hcode, hzero, hd1, hd2, hk, h1, h2, hi]

/-- An operand that is absent or that the slot level can express has a descriptor (R76, R83). -/
theorem exists_encodeOperand_of_all {p : Option Param} (h : p.toList.all Param.hasSlotForm = true) :
    ∃ D, encodeOperand p = some D := by
  cases p with
  | none => exact ⟨_, rfl⟩
  | some p => exact exists_encodeOperand (by simpa using h)

theorem all_hasSlotForm_of_encodeOperand {p : Option Param} {D : BitVec 28}
    (h : encodeOperand p = some D) : p.toList.all Param.hasSlotForm = true := by
  cases p with
  | none => rfl
  | some p => simpa using hasSlotForm_of_encodeOperand h

end Sys2Proof.Machine

namespace Sys2Proof.Proofs

open Sys2Proof.Machine

/-- Settles O1: the decoder reads back the two descriptors of the encoder, and the shape table reads
back the record. -/
theorem decodeOfEncodeIsIdentity : Obligations.DecodeOfEncodeIsIdentity := by
  intro i hwf hslot
  rw [Instr.hasSlotForm, Instr.operands, List.all_append, Bool.and_eq_true] at hslot
  obtain ⟨d1, h1⟩ := exists_encodeOperand_of_all hslot.1
  obtain ⟨d2, h2⟩ := exists_encodeOperand_of_all hslot.2
  exact ⟨_, encode_eq_some.mpr ⟨d1, d2, h1, h2, rfl⟩,
    decode_slotOf (decodeOperand_of_encodeOperand h1) (decodeOperand_of_encodeOperand h2)
      (toInstr_toRecord hwf)⟩

/-- Settles O2: each field of a slot that decodes is the field that the encoder puts there. -/
theorem encodeOfDecodeIsIdentity : Obligations.EncodeOfDecodeIsIdentity := by
  intro S i h
  obtain ⟨hcode, hzero, hp1, hp2⟩ := fields_of_decode h
  have h1 := encodeOperand_of_decodeOperand hp1
  have h2 := encodeOperand_of_decodeOperand hp2
  refine ⟨decode_wellFormed h, ?_, encode_eq_some.mpr ⟨_, _, h1, h2, ?_⟩⟩
  · rw [Instr.hasSlotForm, Instr.operands, List.all_append, all_hasSlotForm_of_encodeOperand h1,
      all_hasSlotForm_of_encodeOperand h2, Bool.and_self]
  · have hk : (S.extractLsb' 59 5).toNat = i.kind.code := by
      have hlt := code_lt i.kind
      rw [hcode, BitVec.toNat_ofNat]
      omega
    rw [← hk]
    exact (eq_slotOf S hzero).symm

end Sys2Proof.Proofs
end

section
/-! PROOFS. The shape table (R73) and the reserved encodings (R81): which records are instructions, which
descriptors and slots spell none, and what the fetch and the loader do with a cell that is none. -/

namespace Sys2Proof.Machine

/-! ## Well-formedness (R18, R73, R181) -/

/-- The two checks of an instruction's operands. -/
theorem Instr.wellFormed_iff {i : Instr} : i.WellFormed ↔
    (∀ p ∈ i.operands, p.admissible = true) ∧
    (i.kind.isBranch = true → ∀ p ∈ i.operands, p.isMem = false) := by
  unfold Instr.WellFormed Instr.shapeError?
  split
  · rename_i h
    obtain ⟨p, hp, hn⟩ : ∃ p ∈ i.operands, p.admissible = false := by simpa using h
    exact ⟨nofun, fun ⟨hadm, _⟩ => by simp [hadm p hp] at hn⟩
  · rename_i h
    have hadm : ∀ p ∈ i.operands, p.admissible = true := by simpa using h
    split
    · rename_i h'
      obtain ⟨hb, p, hp, hm⟩ : i.kind.isBranch = true ∧ ∃ p ∈ i.operands, p.isMem = true := by
        simpa using h'
      exact ⟨nofun, fun ⟨_, hmem⟩ => by simp [hmem hb p hp] at hm⟩
    · rename_i h'
      exact ⟨fun _ => ⟨hadm, by simpa using h'⟩, fun _ => rfl⟩

/-- The operands of an instruction are those of its record (R70). -/
theorem operands_of_toRecord {i : Instr} {r : Record} (h : i.toRecord = r) :
    i.operands = r.p1.toList ++ r.p2.toList := by
  subst h
  rfl

/-- The shape table answers a record whose instruction passes the check of its operands (R73). -/
theorem toInstr_of_shape {r : Record} {i : Instr} (h : r.toInstrShape = .ok i) (hwf : i.WellFormed) :
    r.toInstr = .ok i := by
  unfold Instr.WellFormed at hwf
  simp only [Record.toInstr, h, hwf]

/-- A record with the operands that the table gives its kind has a row in it (R73). -/
theorem exists_toInstrShape {r : Record} (h : shapeOfTable r) : ∃ i, r.toInstrShape = .ok i := by
  obtain ⟨k, p1, p2⟩ := r
  obtain ⟨-, ⟨hk, h1, h2⟩ | ⟨hk, h1, h2⟩ | ⟨hk, h2⟩ | ⟨hk, h1⟩ | ⟨hk, h2, p, h1, -⟩ | ⟨hk, h1, h2⟩⟩ := h
  case inl =>
    obtain ⟨a, rfl⟩ := Option.isSome_iff_exists.mp h1
    obtain ⟨b, rfl⟩ := Option.isSome_iff_exists.mp h2
    cases k
    case push | pop | not | jmp | jeq | jne | jlt | jle | jgt | jge | nop => simp at hk
    all_goals exact ⟨_, rfl⟩
  case inr.inl =>
    obtain ⟨a, rfl⟩ := Option.isSome_iff_exists.mp h1
    cases hk
    cases h2
    exact ⟨_, rfl⟩
  case inr.inr.inl =>
    cases hk
    cases h2
    cases p1 <;> exact ⟨_, rfl⟩
  case inr.inr.inr.inl =>
    obtain ⟨a, rfl⟩ := Option.isSome_iff_exists.mp h1
    cases hk
    exact ⟨_, rfl⟩
  case inr.inr.inr.inr.inl =>
    cases h1
    cases h2
    cases k
    case jmp | jeq | jne | jlt | jle | jgt | jge => exact ⟨_, rfl⟩
    all_goals simp at hk
  case inr.inr.inr.inr.inr =>
    cases hk
    cases h1
    cases h2
    exact ⟨_, rfl⟩

/-- A branch in the table has one operand, which is no MemoryLocation (R181). -/
theorem not_isMem_of_shapeOfTable {r : Record} (h : shapeOfTable r) (hb : r.kind.isBranch = true) :
    ∀ p ∈ r.p1.toList ++ r.p2.toList, p.isMem = false := by
  obtain ⟨k, p1, p2⟩ := r
  obtain ⟨-, ⟨hk, -⟩ | ⟨hk, -⟩ | ⟨hk, -⟩ | ⟨hk, -⟩ | ⟨-, h2, p, h1, hp⟩ | ⟨hk, -⟩⟩ := h
  case inr.inr.inr.inr.inl =>
    cases h1
    cases h2
    simpa using hp
  all_goals
    cases k
    case jmp | jeq | jne | jlt | jle | jgt | jge => simp at hk
    all_goals cases hb

/-- The record of a well-formed instruction stands in the table (R73). -/
theorem shapeOfTable_of_wellFormed {i : Instr} (h : i.WellFormed) : shapeOfTable i.toRecord := by
  refine ⟨fun p hp => admissible_of_wellFormed h hp, ?_⟩
  cases i
  case push => exact .inr (.inl ⟨rfl, rfl, rfl⟩)
  case pop => exact .inr (.inr (.inl ⟨rfl, rfl⟩))
  case not => exact .inr (.inr (.inr (.inl ⟨rfl, rfl⟩)))
  case jmp p | jeq p | jne p | jlt p | jle p | jgt p | jge p =>
    exact .inr (.inr (.inr (.inr (.inl ⟨by simp [Instr.toRecord, Instr.kind], rfl, p, rfl,
      not_isMem_of_branch_wellFormed h rfl rfl⟩))))
  case nop => exact .inr (.inr (.inr (.inr (.inr ⟨rfl, rfl, rfl⟩))))
  all_goals exact .inl ⟨by simp [Instr.toRecord, Instr.kind], rfl, rfl⟩

/-- A record in the table is an instruction (R73). -/
theorem toInstr_of_shapeOfTable {r : Record} (h : shapeOfTable r) :
    ∃ i, r.toInstr = .ok i ∧ i.toRecord = r := by
  obtain ⟨i, hi⟩ := exists_toInstrShape h
  have hrec := toRecord_of_toInstrShape hi
  have hkind : i.kind = r.kind := congrArg Record.kind hrec
  refine ⟨i, toInstr_of_shape hi (Instr.wellFormed_iff.mpr ?_), hrec⟩
  rw [operands_of_toRecord hrec, hkind]
  exact ⟨h.1, not_isMem_of_shapeOfTable h⟩

/-! ## Reserved encodings (R81) -/

/-- The descriptor of an operand is not reserved (R76, R81). -/
theorem not_reserved_of_encodeOperand {p : Option Param} {D : BitVec 28}
    (h : encodeOperand p = some D) : ¬reservedDescriptor D := by
  unfold encodeOperand at h
  split at h
  case h_1 | h_2 => cases h; simp [reservedDescriptor, descriptor_fields]
  case h_4 => split at h <;> cases h; simp [reservedDescriptor, descriptor_fields]
  case h_7 op r' =>
    simp only [Option.bind_eq_some_iff, Option.map_eq_some_iff] at h
    obtain ⟨n, hn, n', hn', rfl⟩ := h
    have hlt := selector_lt hn
    have hlt' := selector_lt hn'
    simp [reservedDescriptor, descriptor_fields]
    omega
  case h_8 => cases h
  all_goals
    obtain ⟨n, hn, rfl⟩ := Option.map_eq_some_iff.mp h
    have hlt := selector_lt hn
    simp [reservedDescriptor, descriptor_fields]
    omega

/-- A reserved descriptor is rejected by the decoder (R81). -/
theorem decodeOperand_of_reserved {D : BitVec 28} (h : reservedDescriptor D) :
    ∃ e, decodeOperand D = .error e := by
  cases hd : decodeOperand D with
  | error e => exact ⟨e, rfl⟩
  | ok p => exact (not_reserved_of_encodeOperand (encodeOperand_of_decodeOperand hd) h).elim

/-- A slot whose fields spell a record that is no instruction is ill-formed (R79). -/
theorem decode_of_record_error {S : Slot} {k : Kind} {p1 p2 : Option Param} {e : ShapeError}
    (hzero : S.extractLsb' 56 3 = 0) (hk : kindOfCode (S.extractLsb' 59 5).toNat = some k)
    (h1 : decodeOperand (S.extractLsb' 28 28) = .ok p1)
    (h2 : decodeOperand (S.extractLsb' 0 28) = .ok p2)
    (hr : (Record.mk k p1 p2).toInstr = .error e) : decode S = .illFormed e := by
  simp only [decode, hk, hzero, h1, h2, hr, ne_eq, not_true_eq_false, if_false]

/-- A slot with a reserved field is undecodable (R79, R81). -/
theorem decode_of_reserved {S : Slot} (h : 24 ≤ (S.extractLsb' 59 5).toNat ∨
    S.extractLsb' 56 3 ≠ 0 ∨ reservedDescriptor (S.extractLsb' 28 28) ∨
    reservedDescriptor (S.extractLsb' 0 28)) : ∃ e, decode S = .undecodable e := by
  unfold decode
  split
  · exact ⟨_, rfl⟩
  rename_i k hk
  have hcode := code_of_kindOfCode hk
  have hlt := code_lt k
  split
  · exact ⟨_, rfl⟩
  rename_i hzero
  split
  · exact ⟨_, rfl⟩
  rename_i p1 h1
  split
  · exact ⟨_, rfl⟩
  rename_i p2 h2
  obtain h | h | h | h := h
  · omega
  · exact (hzero h).elim
  · obtain ⟨e, he⟩ := decodeOperand_of_reserved h
    rw [he] at h1
    cases h1
  · obtain ⟨e, he⟩ := decodeOperand_of_reserved h
    rw [he] at h2
    cases h2

/-! ## Cells that are no instruction (R81; log 7) -/

/-- A tick that fetches no instruction is refused as the fetch is. -/
theorem step_of_refused_cell {s : State} {cell : ProgCell} {e : Refusal}
    (hcell : s.prog[s.pc.toNat]? = some cell) (h : decodeCell cell = .refused e) :
    step s = .refused e := by
  rw [step, onTick, fetch_of_cell hcell, h, andThen_refused]

theorem decodeCell_of_undecodable {S : Slot} {e : SlotError} (h : decode S = .undecodable e) :
    decodeCell (.slot S) = .refused (.undecodableSlot e) := by
  rw [decodeCell, h]

theorem decodeCell_of_illFormed {S : Slot} {e : ShapeError} (h : decode S = .illFormed e) :
    decodeCell (.slot S) = .refused (.illFormedRecord e) := by
  rw [decodeCell, h]

theorem decodeCell_of_record_error {r : Record} {e : ShapeError} (h : r.toInstr = .error e) :
    decodeCell (.record r) = .refused (.illFormedRecord e) := by
  rw [decodeCell, h]

/-- Decoding a cell meets no structural error. -/
theorem decodeCell_ne_fault (cell : ProgCell) (f : Fault) : decodeCell cell ≠ .fault f := by
  unfold decodeCell
  split <;> split <;> exact nofun

/-- The loader's check refuses a program that holds a cell which is no instruction (R81). -/
theorem checkCells_refused {prog : List ProgCell} {cell : ProgCell} (hmem : cell ∈ prog)
    (h : ∀ i, decodeCell cell ≠ .next i) : ∃ e, checkCells prog = .refused e := by
  induction prog with
  | nil => cases hmem
  | cons c rest ih =>
    rw [checkCells]
    cases hc : decodeCell c with
    | next i =>
      obtain rfl | hrest := List.mem_cons.mp hmem
      · exact (h i hc).elim
      · exact ih hrest
    | fault f => exact (decodeCell_ne_fault c f hc).elim
    | refused e => exact ⟨e, rfl⟩

end Sys2Proof.Machine

namespace Sys2Proof.Proofs

open Sys2Proof.Machine

/-- Settles O4: an instruction's record has the shape its kind is given, and a record with such a shape
has a row in the decoder's table. -/
theorem recordShapesAreTheTable : Obligations.RecordShapesAreTheTable := by
  refine fun r => ⟨?_, toInstr_of_shapeOfTable⟩
  rintro ⟨i, hi, rfl⟩
  exact shapeOfTable_of_wellFormed (Record.toInstr_wellFormed hi)

/-- Settles O3: a reserved field makes the slot undecodable, a shape outside the table makes it
ill-formed, and neither passes the fetch or the loader. -/
theorem reservedSlotsSpellNoInstruction : Obligations.ReservedSlotsSpellNoInstruction := by
  refine ⟨fun S hS => ?reserved, fun S k p1 p2 hzero hk h1 h2 hshape => ?shape,
    fun S e s hS hcell => step_of_refused_cell hcell (decodeCell_of_illFormed hS),
    fun r e s hr hcell => step_of_refused_cell hcell (decodeCell_of_record_error hr),
    fun prog cell s hmem hcell => ?loader⟩
  case reserved =>
    obtain ⟨e, he⟩ := decode_of_reserved hS
    refine ⟨fun i hi => ?_, fun s hcell =>
      ⟨e, step_of_refused_cell hcell (decodeCell_of_undecodable he)⟩⟩
    rw [he] at hi
    cases hi
  case shape =>
    cases hr : (Record.mk k p1 p2).toInstr with
    | error e => exact ⟨e, decode_of_record_error hzero hk h1 h2 hr⟩
    | ok i =>
      have htable := shapeOfTable_of_wellFormed (Record.toInstr_wellFormed hr)
      rw [toRecord_of_toInstr hr] at htable
      exact (hshape htable).elim
  case loader =>
    unfold loadProgram
    split
    · exact ⟨_, rfl⟩
    · obtain ⟨e, he⟩ := checkCells_refused hmem hcell
      exact ⟨e, by rw [he, andThen_refused]⟩

/-- Settles O5, by running the decoder on each slot. -/
theorem writtenOutSlotsDecode : Obligations.WrittenOutSlotsDecode := by
  refine ⟨?_, ?_, ?_, ?_, ?_, ?_⟩ <;> decide

end Sys2Proof.Proofs
end

section
/-! PROOFS. Frames: what each family of instructions leaves alone, as one relation `Framed` that the
accesses, the stores and the flag updates satisfy and that composes. -/

namespace Sys2Proof.Machine

/-! ## The relation -/

/-- From `s` to `t` only the registers `regs`, the bytes of the word at `target` and flags of `mask`,
which are only added, can change; the configuration stays and the invariant is kept. -/
structure Framed (regs : List RegName) (target : Option (Nat × Nat)) (mask : Word) (s t : State) :
    Prop where
  regs : RegsKept regs s t
  pc : t.pc = s.pc
  config : s.SameConfig t
  flags : ∃ m : Word, t.flags = s.flags ||| (m &&& mask)
  bytes : BytesKept target s t
  inv : s.Inv → t.Inv

theorem State.SameConfig.refl (s : State) : s.SameConfig s := ⟨rfl, rfl, rfl, rfl, rfl⟩

theorem State.SameConfig.trans {s t v : State} (h : s.SameConfig t) (h' : t.SameConfig v) :
    s.SameConfig v :=
  ⟨h'.prog.trans h.prog, h'.map.trans h.map, h'.layout.trans h.layout,
    h'.registry.trans h.registry, h'.ovfReg.trans h.ovfReg⟩

/-- Flags added twice from one mask are flags added from it. -/
theorem exists_or_masked_trans {mask a b c : Word} (h : ∃ m, b = a ||| (m &&& mask))
    (h' : ∃ m, c = b ||| (m &&& mask)) : ∃ m, c = a ||| (m &&& mask) := by
  obtain ⟨m, rfl⟩ := h
  obtain ⟨m', rfl⟩ := h'
  refine ⟨m ||| m', ?_⟩
  ext i hi
  simp [Bool.and_or_distrib_right, Bool.or_assoc]

section
variable {R R' : List RegName} {T : Option (Nat × Nat)} {M M' : Word} {s t v : State}

theorem Framed.refl (R : List RegName) (T : Option (Nat × Nat)) (M : Word) (s : State) :
    Framed R T M s s :=
  ⟨fun _ _ _ => rfl, rfl, .refl s, ⟨0, by simp⟩, fun _ _ _ => rfl, id⟩

theorem Framed.trans (h : Framed R T M s t) (h' : Framed R T M t v) : Framed R T M s v where
  regs r hr hn := (h'.regs r hr hn).trans (h.regs r hr hn)
  pc := h'.pc.trans h.pc
  config := h.config.trans h'.config
  flags := exists_or_masked_trans h.flags h'.flags
  bytes u a hn := (h'.bytes u a hn).trans (h.bytes u a hn)
  inv := h'.inv ∘ h.inv

/-- More registers and more flags may change. -/
theorem Framed.mono (h : Framed R T M s t) (hR : R ⊆ R') (hM : M &&& M' = M) : Framed R' T M' s t where
  regs r hr hn := h.regs r hr fun hm => hn (hR hm)
  pc := h.pc
  config := h.config
  flags := by
    obtain ⟨m, hm⟩ := h.flags
    exact ⟨m &&& M, by rw [hm, BitVec.and_assoc, hM]⟩
  bytes := h.bytes
  inv := h.inv

/-- What stores nothing stores nothing outside any target. -/
theorem Framed.withTarget (h : Framed R none M s t) : Framed R T M s t where
  regs := h.regs
  pc := h.pc
  config := h.config
  flags := h.flags
  bytes u a _ := h.bytes u a (inStored_none u a)
  inv := h.inv

/-- The flags outside the mask are unchanged. -/
theorem Framed.flagsKept (h : Framed R T M s t) : FlagsKept M s t := by
  obtain ⟨m, hm⟩ := h.flags
  rw [FlagsKept, hm]
  ext i hi
  simp
  cases M[i] <;> simp

/-- No flag is cleared. -/
theorem Framed.sticky (h : Framed R T M s t) : s.flags &&& ~~~t.flags = 0 := by
  obtain ⟨m, hm⟩ := h.flags
  rw [hm]
  ext i hi
  simp
  cases s.flags[i] <;> simp

end

/-! ## What accesses, stores and results satisfy -/

theorem Effect.framed {T : Option (Nat × Nat)} {s t : State} (h : Effect T s t) :
    Framed [] T accessFlags s t :=
  ⟨fun _ hr _ => State.readReg_congr hr h.x h.sp, h.pc,
    ⟨h.prog, h.map, h.layout, h.registry, h.ovfReg⟩, h.flags, h.bytes, h.inv⟩

/-- A word stored through an operand of a well-formed instruction. -/
theorem Stored.framed {p : Param} {v : Word} {s t : State} (hp : p.admissible = true)
    (h : Stored p v s t) : Framed p.asReg (s.storeTarget? p) accessFlags s t :=
  ⟨h.regs, h.pc hp, ⟨h.prog, h.map, h.layout, h.registry, h.ovfReg⟩, h.flags hp, h.bytes, h.inv⟩

theorem Framed.setFlags {R : List RegName} {T : Option (Nat × Nat)} {M m : Word} (s : State)
    (hm : m &&& M = m) : Framed R T M s (s.setFlags m) :=
  ⟨fun _ hr _ => State.readReg_setFlags s hr m, rfl, ⟨rfl, rfl, rfl, rfl, rfl⟩,
    ⟨m, by rw [hm, State.setFlags_flags]⟩, fun u a _ => State.byteAt_congr rfl u a,
    fun h => ⟨h.units_wf, h.prog_len⟩⟩

theorem Framed.writeOvf {R : List RegName} {T : Option (Nat × Nat)} {M : Word} (s : State) (v : Word)
    (hR : .gpr s.ovfReg ∈ R) : Framed R T M s (s.writeOvf v) :=
  ⟨fun r _ hn => State.readReg_writeReg_ne s (r := r) (by rintro rfl; exact hn hR) v, rfl,
    ⟨rfl, rfl, rfl, rfl, rfl⟩, ⟨0, by simp⟩, fun u a _ => State.byteAt_congr rfl u a,
    fun h => ⟨h.units_wf, h.prog_len⟩⟩

/-- The flags of an overflow-tracked result are OVERFLOW and ZERO (R142). -/
theorem trackedFlags_masked (lo hi : Word) : trackedFlags lo hi &&& 0x0003 = trackedFlags lo hi := by
  unfold trackedFlags fOverflow fZero
  split <;> split <;> rfl

/-- The flag of a non-overflow result is ZERO (R162). -/
theorem plainFlags_masked (v : Word) : plainFlags v &&& 0x0002 = plainFlags v := by
  unfold plainFlags fZero
  split <;> rfl

/-- A masked word is masked by every larger mask. -/
theorem masked_mono {m M M' : Word} (hm : m &&& M = m) (hM : M &&& M' = M) : m &&& M' = m := by
  rw [← hm, BitVec.and_assoc, hM]

/-- The overflow word and the flags of a result (R142). -/
theorem Framed.trackedResult {R : List RegName} {T : Option (Nat × Nat)} {M : Word} (s : State)
    (lo hi : Word) (hR : .gpr s.ovfReg ∈ R) (hM : trackedFlags lo hi &&& M = trackedFlags lo hi) :
    Framed R T M s (trackedResult s lo hi) :=
  (Framed.writeOvf s hi hR).trans (Framed.setFlags _ hM)

/-- What the instructions that `push` and `pop` issue can do, with any registry. -/
theorem Issued.framed {T : Option (Nat × Nat)} {s t : State} (h : Issued s t) :
    Framed [.sp, .gpr s.ovfReg] T 0x0003 s t where
  regs r hr hn := by
    cases r with
    | gpr g => exact h.x g fun hg => hn (by simp [hg])
    | sp => simp at hn
    | pc => cases hr
    | flags => cases hr
  pc := h.pc
  config := ⟨h.prog, h.map, by rw [h.units], h.registry, h.ovfReg⟩
  flags := h.flags
  bytes u a _ := State.byteAt_congr h.units u a
  inv hi := ⟨by rw [h.units]; exact hi.units_wf, by rw [h.prog]; exact hi.prog_len⟩

/-! ## The shapes of the ALU and `mov` -/

/-- A stored word with an overflow-tracked result (R142). -/
theorem Stored.framed_tracked {p : Param} {v lo hi : Word} {s t : State} (hp : p.admissible = true)
    (h : Stored p v s t) :
    Framed (.gpr s.ovfReg :: p.asReg) (s.storeTarget? p) 0x0063 s (trackedResult t lo hi) :=
  ((h.framed hp).mono (List.subset_cons_self _ _) (by decide)).trans
    (.trackedResult t lo hi (by simp [h.ovfReg]) (masked_mono (trackedFlags_masked lo hi) (by decide)))

/-- A stored word with a non-overflow result (R162). -/
theorem Stored.framed_plain {p : Param} {v w : Word} {s t : State} (hp : p.admissible = true)
    (h : Stored p v s t) :
    Framed p.asReg (s.storeTarget? p) 0x0062 s (t.setFlags (plainFlags w)) :=
  ((h.framed hp).mono (List.Subset.refl _) (by decide)).trans
    (.setFlags t (masked_mono (plainFlags_masked w) (by decide)))

theorem trackedOp_framed {W : Word → Word → Int} {p1 p2 : Param} {s t : State}
    (hp : p1.admissible = true) (h : trackedOp W p1 p2 s = .next t) :
    Framed (.gpr s.ovfReg :: p1.asReg) (s.storeTarget? p1) 0x0063 s t := by
  obtain ⟨a, b, s', hs, rfl⟩ := trackedOp_cases h
  exact hs.framed_tracked hp

theorem divideOp_framed {W : Word → Word → Int} {p1 p2 : Param} {s t : State}
    (hp : p1.admissible = true) (h : divideOp W p1 p2 s = .next t) :
    Framed (.gpr s.ovfReg :: p1.asReg) (s.storeTarget? p1) 0x0067 s t := by
  obtain ⟨s', he, rfl⟩ | ⟨a, b, s', hs, rfl⟩ := divideOp_cases h
  · exact (he.framed.withTarget.mono (List.nil_subset _) (by decide)).trans
      (.setFlags s' (by decide))
  · exact (hs.framed_tracked hp).mono (List.Subset.refl _) (by decide)

theorem plainOp_framed {f : Word → Word → Word} {p1 p2 : Param} {s t : State}
    (hp : p1.admissible = true) (h : plainOp f p1 p2 s = .next t) :
    Framed p1.asReg (s.storeTarget? p1) 0x0062 s t := by
  obtain ⟨a, b, s', hs, rfl⟩ := plainOp_cases h
  exact hs.framed_plain hp

/-- Parameter-1 of a well-formed instruction is admissible (R18). -/
theorem admissible_p1 {i : Instr} (h : i.WellFormed) {p : Param} (hp : i.p1? = some p) :
    p.admissible = true :=
  admissible_of_wellFormed h (by simp [Instr.operands, hp])

/-- What the six overflow-tracked instructions can do; only a division sets DIV_ZERO (R142, R143). -/
theorem exec_tracked_framed {i : Instr} {p1 p2 : Param} {s t : State}
    (hi : i ∈ [Instr.add p1 p2, .sub p1 p2, .umul p1 p2, .smul p1 p2, .udiv p1 p2, .sdiv p1 p2])
    (h : exec i s = .next t) :
    Framed (.gpr s.ovfReg :: p1.asReg) (s.storeTarget? p1)
      (if i.kind = .udiv ∨ i.kind = .sdiv then 0x0067 else 0x0063) s t := by
  simp only [List.mem_cons, List.not_mem_nil, or_false] at hi
  obtain rfl | rfl | rfl | rfl | rfl | rfl := hi <;>
    obtain ⟨hwf, h⟩ := checkShape_eq_next.mp h
  case inr.inr.inr.inr.inl | inr.inr.inr.inr.inr => exact divideOp_framed (admissible_p1 hwf rfl) h
  all_goals exact trackedOp_framed (admissible_p1 hwf rfl) h

/-- What the six non-overflow instructions can do (R162, R167). -/
theorem exec_plain_framed {i : Instr} {p1 p2 : Param} {o2 : Option Param} {s t : State}
    (hi : i ∈ [Instr.and p1 p2, .or p1 p2, .xor p1 p2, .shl p1 p2, .shr p1 p2, .not p1 o2])
    (h : exec i s = .next t) : Framed p1.asReg (s.storeTarget? p1) 0x0062 s t := by
  simp only [List.mem_cons, List.not_mem_nil, or_false] at hi
  obtain rfl | rfl | rfl | rfl | rfl | rfl := hi
  case inr.inr.inr.inr.inr =>
    obtain ⟨hwf, a, s', hs, rfl⟩ := execNot_cases h
    exact hs.framed_plain (admissible_p1 hwf rfl)
  all_goals
    obtain ⟨hwf, h⟩ := checkShape_eq_next.mp h
    exact plainOp_framed (admissible_p1 hwf rfl) h

theorem execMov_framed {p1 p2 : Param} {s t : State} (h : execMov p1 p2 s = .next t) :
    Framed p1.asReg (s.storeTarget? p1) 0x0060 s t := by
  obtain ⟨hwf, v, hs⟩ := execMov_cases h
  exact hs.framed (admissible_p1 hwf rfl)

/-! ## `push` and `pop` -/

/-- What `push` can do, for a mask that holds the flags of the issued `add` (R124). -/
theorem execPush_framed {p1 : Param} {s t : State} {M : Word} (hM : accessFlags &&& M = accessFlags)
    (hadd : ∀ s', s.SameConfig s' → issueAdd s' = .next t →
      Framed [.sp, .gpr s'.ovfReg] (s.storeTarget? stackHead) M s' t)
    (h : execPush p1 s = .next t) :
    Framed [.sp, .gpr s.ovfReg] (s.storeTarget? stackHead) M s t := by
  obtain ⟨-, s', he, hi⟩ := execPush_cases h
  have hconfig := he.framed.config
  have hissued := hadd s' hconfig hi
  rw [hconfig.ovfReg] at hissued
  exact (he.framed.mono (List.nil_subset _) hM).trans hissued

/-- The issued `add` sets no ZERO: where `sp` becomes zero, it wrapped (R124, R142). -/
theorem pushedPointer_framed (T : Option (Nat × Nat)) (s : State) :
    Framed [.sp, .gpr s.ovfReg] T 0x0001 s (pushedPointer s) where
  regs := (Issued.trackedResult s (s.sp + 2) _ _).framed (T := T) |>.regs
  pc := rfl
  config := ⟨rfl, rfl, rfl, rfl, rfl⟩
  flags := by
    refine ⟨if 0xFFFE ≤ s.sp.toNat then 1 else 0, ?_⟩
    have hz : s.sp + 2 = 0 → 0xFFFE ≤ s.sp.toNat := by
      intro h
      have := congrArg BitVec.toNat h
      simp [BitVec.toNat_add] at this
      omega
    simp only [pushedPointer, trackedResult, State.setFlags_flags, State.writeOvf_flags, trackedFlags]
    congr 1
    by_cases hw : 0xFFFE ≤ s.sp.toNat
    · simp [hw, fOverflow]
    · rw [if_neg hw, if_neg (not_not.mpr rfl), if_neg fun h => hw (hz h.1)]
      rfl
  bytes _ _ _ := rfl
  inv h := ⟨h.units_wf, h.prog_len⟩

/-- The issued `sub` of a `pop` that is not refused sets no OVERFLOW (R126, R142). -/
theorem poppedPointer_framed (T : Option (Nat × Nat)) (s : State) :
    Framed [.sp, .gpr s.ovfReg] T 0x0002 s (poppedPointer s) where
  regs := (Issued.trackedResult s (s.sp - 2) _ _).framed (T := T) |>.regs
  pc := rfl
  config := ⟨rfl, rfl, rfl, rfl, rfl⟩
  flags := by
    refine ⟨trackedFlags (s.sp - 2) 0, ?_⟩
    have hmask : trackedFlags (s.sp - 2) 0 &&& 0x0002 = trackedFlags (s.sp - 2) 0 := by
      rw [trackedFlags, if_neg (not_not.mpr rfl)]
      split <;> rfl
    rw [hmask]
    rfl
  bytes _ _ _ := rfl
  inv h := ⟨h.units_wf, h.prog_len⟩

/-- What `pop` can do, for a mask that holds the flags of the issued `sub`: it stores nothing without a
destination or below 2, and through the destination otherwise (R126). -/
theorem execPop_framed {p1 : Option Param} {s t : State} {M : Word}
    (hM : accessFlags &&& M = accessFlags)
    (hsub : 2 ≤ s.sp.toNat → ∀ s', issueSub s = .next s' →
      ∀ T, Framed [.sp, .gpr s.ovfReg] T M s s')
    (h : execPop p1 s = .next t) :
    ∃ T, Framed (.sp :: .gpr s.ovfReg :: (p1.map Param.asReg).getD []) T M s t ∧
      (p1 = none ∨ s.sp.toNat < 2 → T = none) ∧
      ∀ p, p1 = some p → 2 ≤ s.sp.toNat → ∀ s', issueSub s = .next s' → T = s'.storeTarget? p := by
  obtain ⟨hwf, ⟨hsp, rfl⟩ | ⟨hsp, s', hs, hnone, hsome⟩⟩ := execPop_cases h
  · exact ⟨none, .setFlags s (masked_mono (by decide) hM), fun _ => rfl, fun _ _ h => by omega⟩
  · have hissued := fun T => (hsub hsp s' hs T).mono
      (R' := .sp :: .gpr s.ovfReg :: (p1.map Param.asReg).getD []) (by simp) (BitVec.and_self (x := M))
    cases p1 with
    | none =>
      rw [hnone rfl]
      exact ⟨none, hissued none, fun _ => rfl, nofun⟩
    | some p =>
      obtain ⟨v, hstored⟩ := popCopy_cases (admissible_p1 hwf rfl) (hsome p rfl)
      have hcopy := (hstored.framed (admissible_p1 hwf rfl)).mono
        (R' := .sp :: .gpr s.ovfReg :: p.asReg) (by simp) hM
      refine ⟨s'.storeTarget? p, (hissued _).trans hcopy, fun h => ?_, ?_⟩
      · obtain h | h := h
        · cases h
        · omega
      · rintro q ⟨⟩ - s1 hs1
        rw [hs] at hs1
        cases hs1
        rfl

/-! ## `cmp` and the branches -/

/-- A compare sets EQUAL or LESS or neither (R168). -/
theorem compareFlags_masked (a b : Word) : compareFlags a b &&& cmpClearMask = compareFlags a b := by
  unfold compareFlags
  split
  · rfl
  · split <;> rfl

/-- Bits replaced inside a mask are not seen outside it. -/
theorem replaced_and_not {x k m M : Word} (hm : m &&& M = m) :
    ((x &&& ~~~m) ||| (k &&& m)) &&& ~~~M = x &&& ~~~M := by
  ext i hi
  have hbit : (m[i] && M[i]) = m[i] := by rw [← BitVec.getElem_and, hm]
  simp only [BitVec.getElem_and, BitVec.getElem_or, BitVec.getElem_not]
  cases hM : M[i] <;> simp_all

/-- `cmp` replaces EQUAL and LESS after accesses that store nothing (R168). -/
theorem execCmp_framed {p1 p2 : Param} {s t : State} (h : execCmp p1 p2 s = .next t) :
    ∃ s' a b, Framed [] none accessFlags s s' ∧
      t = { s' with flags := (s'.flags &&& ~~~cmpClearMask) ||| compareFlags a b } := by
  obtain ⟨-, a, b, s', he, rfl⟩ := execCmp_cases h
  exact ⟨s', a, b, he.framed, rfl⟩

/-- A branch has a target (R181). -/
theorem exists_p1_of_isBranch {i : Instr} (h : i.kind.isBranch = true) : ∃ p, i.p1? = some p := by
  cases i
  case jmp p | jeq p | jne p | jlt p | jle p | jgt p | jge p => exact ⟨p, rfl⟩
  all_goals cases h

/-- A branch that answers changes nothing but `pc` (R180). -/
theorem exec_branch_frame {i : Instr} {s t : State} (hb : i.kind.isBranch = true)
    (h : exec i s = .next t) : t = { s with pc := t.pc } := by
  obtain ⟨p, hp⟩ := exists_p1_of_isBranch hb
  rw [exec_branch hb hp] at h
  obtain ⟨-, rfl⟩ | ⟨-, target, -, rfl⟩ := branch_cases (checkShape_eq_next.mp h).2
  · rfl
  · rfl

end Sys2Proof.Machine

namespace Sys2Proof.Proofs

open Sys2Proof.Machine

/-- Settles O45, by the frame of the six tracked instructions. -/
theorem trackedFrame : Obligations.TrackedFrame := by
  intro i p1 p2 s t hi h
  have hf := exec_tracked_framed hi h
  exact ⟨hf.regs, hf.pc, hf.config, hf.flagsKept, hf.sticky, hf.bytes⟩

/-- Settles O46, by the frame of the six non-overflow instructions. -/
theorem plainFrame : Obligations.PlainFrame := by
  intro i p1 p2 o2 s t hi h
  have hf := exec_plain_framed hi h
  exact ⟨hf.regs, hf.pc, hf.config, hf.flagsKept, hf.sticky, hf.bytes⟩

/-- Settles O47: the accesses add SEG and MULTISTATE, the compare replaces EQUAL and LESS. -/
theorem cmpFrame : Obligations.CmpFrame := by
  intro p1 p2 s t h
  obtain ⟨s', a, b, hf, rfl⟩ := execCmp_framed h
  refine ⟨fun r hr hn => ?regs, hf.pc, hf.config.trans ⟨rfl, rfl, rfl, rfl, rfl⟩, ?flags, hf.bytes⟩
  case regs =>
    rw [← hf.regs r hr hn]
    exact State.readReg_congr hr rfl rfl
  case flags =>
    rw [FlagsKept, ← compareFlags_masked a b, replaced_and_not (by decide)]
    exact (hf.mono (List.Subset.refl _) (by decide)).flagsKept

/-- Settles O48, by the frame of a stored word. -/
theorem movFrame : Obligations.MovFrame := by
  intro p1 p2 s t h
  have hf := execMov_framed h
  exact ⟨hf.regs, hf.pc, hf.config, hf.flagsKept, hf.sticky, hf.bytes⟩

/-- Settles O49: with any registry the issued `add` is framed as `Issued` says; with the wiring it runs
once. -/
theorem pushFrame : Obligations.PushFrame := by
  intro p1 s t h
  have hf := execPush_framed (M := 0x0063) (by decide)
    (fun s' _ hi => (issueAdd_cases hi).framed.mono (List.Subset.refl _) (by decide)) h
  refine ⟨hf.regs, hf.pc, hf.config, hf.flagsKept, hf.sticky, fun hw => ⟨?_, ?_⟩, hf.bytes⟩
  · obtain ⟨-, s', he, hi⟩ := execPush_cases h
    rw [issueAdd_wired (hw.congr he.registry)] at hi
    cases hi
    rw [← he.sp]
    rfl
  · refine (execPush_framed (M := 0x0061) (by decide) (fun s' hs hi => ?_) h).flagsKept
    rw [issueAdd_wired (hw.congr hs.registry)] at hi
    cases hi
    exact (pushedPointer_framed _ s').mono (List.Subset.refl _) (by decide)

/-- Settles O50: as `push`, with the destination's target evaluated after the issued `sub`. -/
theorem popFrame : Obligations.PopFrame := by
  intro p1 s t h
  obtain ⟨T, hf, hnone, hsome⟩ := execPop_framed (M := 0x0063) (by decide)
    (fun _ s' hs T => (issueSub_cases hs).framed.mono (List.Subset.refl _) (by decide)) h
  refine ⟨hf.regs, hf.pc, hf.config, hf.flagsKept, hf.sticky, fun hw => ?wired,
    fun hn => hnone hn ▸ hf.bytes, fun p hp hsp => ?target⟩
  case wired =>
    obtain ⟨_, hf', -⟩ := execPop_framed (M := 0x0062) (by decide) (fun hsp s' hs T => by
      rw [issueSub_wired hw hsp] at hs
      cases hs
      exact (poppedPointer_framed T s).mono (List.Subset.refl _) (by decide)) h
    exact hf'.flagsKept
  case target =>
    have hbytes : ∀ s1, issueSub s = .next s1 → BytesKept (s1.storeTarget? p) s t :=
      fun s1 hs => hsome p hp hsp s1 hs ▸ hf.bytes
    refine ⟨hbytes, fun hw => ?_⟩
    have hadm : p.admissible = true := admissible_p1 (execPop_cases h).1 hp
    have htarget : (poppedPointer s).storeTarget? p =
        (({ s with sp := s.sp - 2 } : State).writeReg (.gpr s.ovfReg) 0).storeTarget? p :=
      storeTarget_congr (by rfl) (by rfl) (by rfl) hadm
    rw [← htarget]
    exact hbytes _ (issueSub_wired hw hsp)

/-- Settles O51: not taken it does nothing, taken it writes `pc`. -/
theorem branchFrame : Obligations.BranchFrame := fun _ _ _ hb h => exec_branch_frame hb h

end Sys2Proof.Proofs
end

section
/-! PROOFS. What every instruction keeps, and with it every tick, whatever the registry: the invariant, the
configuration, the exclusion of EQUAL and LESS, the flags that stick, and `pc` unless it branches. -/

namespace Sys2Proof.Machine

/-! ## One instruction -/

/-- What an instruction can do: a branch moves `pc`, `cmp` replaces EQUAL and LESS after accesses, every
other instruction is framed with its flags among OVERFLOW, ZERO, DIV_ZERO, SEG and MULTISTATE. -/
theorem exec_cases {i : Instr} {s t : State} (h : exec i s = .next t) :
    (i.kind.isBranch = true ∧ t = { s with pc := t.pc }) ∨
    (i.kind = .cmp ∧ ∃ s' a b, Framed [] none accessFlags s s' ∧
      t = { s' with flags := (s'.flags &&& ~~~cmpClearMask) ||| compareFlags a b }) ∨
    (i.kind ≠ .cmp ∧ ∃ R T, Framed R T 0x0067 s t) := by
  by_cases hb : i.kind.isBranch = true
  · exact .inl ⟨hb, exec_branch_frame hb h⟩
  by_cases hc : i.kind = .cmp
  · cases i
    case cmp => exact .inr (.inl ⟨rfl, execCmp_framed h⟩)
    all_goals cases hc
  refine .inr (.inr ⟨hc, ?_⟩)
  cases i
  case jmp | jeq | jne | jlt | jle | jgt | jge => exact (hb rfl).elim
  case cmp => exact (hc rfl).elim
  case nop => cases h; exact ⟨[], none, .refl _ _ _ _⟩
  case mov => exact ⟨_, _, (execMov_framed h).mono (List.Subset.refl _) (by decide)⟩
  case push =>
    exact ⟨_, _, execPush_framed (by decide) (fun s' _ hi =>
      (issueAdd_cases hi).framed.mono (List.Subset.refl _) (by decide)) h⟩
  case pop =>
    obtain ⟨T, hf, -⟩ := execPop_framed (M := 0x0067) (by decide) (fun _ s' hs T =>
      (issueSub_cases hs).framed.mono (List.Subset.refl _) (by decide)) h
    exact ⟨_, T, hf⟩
  case add p1 p2 | sub p1 p2 | umul p1 p2 | smul p1 p2 | udiv p1 p2 | sdiv p1 p2 =>
    exact ⟨_, _, (exec_tracked_framed (p1 := p1) (p2 := p2) (by simp) h).mono
      (List.Subset.refl _) (by split <;> decide)⟩
  case and p1 p2 | or p1 p2 | xor p1 p2 | shl p1 p2 | shr p1 p2 =>
    exact ⟨_, _, (exec_plain_framed (p1 := p1) (p2 := p2) (o2 := none) (by simp) h).mono
      (List.Subset.refl _) (by decide)⟩
  case not p1 o2 =>
    exact ⟨_, _, (exec_plain_framed (p1 := p1) (p2 := p1) (o2 := o2) (by simp) h).mono
      (List.Subset.refl _) (by decide)⟩

theorem State.Inv.congr {s t : State} (h : s.Inv) (hu : t.units = s.units) (hp : t.prog = s.prog) :
    t.Inv := ⟨by rw [hu]; exact h.units_wf, by rw [hp]; exact h.prog_len⟩

theorem State.SameConfig.of_eq {s t : State} (hu : t.units = s.units) (hp : t.prog = s.prog)
    (hm : t.map = s.map) (hr : t.registry = s.registry) (ho : t.ovfReg = s.ovfReg) : s.SameConfig t :=
  ⟨hp, hm, by rw [hu], hr, ho⟩

/-- Every instruction keeps the configuration and the invariant. -/
theorem exec_config_inv {i : Instr} {s t : State} (h : exec i s = .next t) :
    s.SameConfig t ∧ (s.Inv → t.Inv) := by
  obtain ⟨-, ht⟩ | ⟨-, s', a, b, hf, rfl⟩ | ⟨-, R, T, hf⟩ := exec_cases h
  · rw [ht]
    exact ⟨.of_eq rfl rfl rfl rfl rfl, fun hi => hi.congr rfl rfl⟩
  · exact ⟨hf.config.trans (.of_eq rfl rfl rfl rfl rfl), fun hi => (hf.inv hi).congr rfl rfl⟩
  · exact ⟨hf.config, hf.inv⟩

/-- An instruction that is no branch leaves `pc` alone. -/
theorem exec_pc {i : Instr} {s t : State} (hb : i.kind.isBranch = false) (h : exec i s = .next t) :
    t.pc = s.pc := by
  obtain ⟨hb', -⟩ | ⟨-, s', a, b, hf, rfl⟩ | ⟨-, R, T, hf⟩ := exec_cases h
  · rw [hb] at hb'
    cases hb'
  · exact hf.pc
  · exact hf.pc

/-! ## The flags (R13, R168) -/

/-- Flags are added among the seven that are not EQUAL or LESS, as these are seen outside EQUAL and
LESS. -/
def FlagsAdded (s t : State) : Prop :=
  ∃ m : Word, t.flags &&& 0xFFE7 = (s.flags &&& 0xFFE7) ||| (m &&& 0x00E7)

theorem FlagsAdded.refl (s : State) : FlagsAdded s s := ⟨0, by simp⟩

theorem FlagsAdded.trans {s t v : State} (h : FlagsAdded s t) (h' : FlagsAdded t v) :
    FlagsAdded s v := exists_or_masked_trans h h'

/-- Adding flags is seen through a mask as adding those of the mask. -/
theorem or_masked_and (a m M N : Word) (hM : M &&& N = M) :
    (a ||| (m &&& M)) &&& N = (a &&& N) ||| (m &&& M) := by
  ext i hi
  have hbit : (M[i] && N[i]) = M[i] := by rw [← BitVec.getElem_and, hM]
  simp only [BitVec.getElem_and, BitVec.getElem_or]
  cases hN : N[i] <;> simp_all

theorem Framed.flagsAdded {R : List RegName} {T : Option (Nat × Nat)} {M : Word} {s t : State}
    (h : Framed R T M s t) (hM : M &&& 0x00E7 = M) : FlagsAdded s t := by
  obtain ⟨m, hm⟩ := (h.mono (M' := 0x00E7) (List.Subset.refl _) hM).flags
  exact ⟨m, by rw [hm, or_masked_and _ _ _ _ (by decide)]⟩

/-- Flags added inside a mask: none of the mask is cleared. -/
theorem and_not_eq_zero_of_added {s t N k : Word} (h : t &&& N = (s &&& N) ||| k) :
    s &&& ~~~t &&& N = 0 := by
  ext i hi
  have hbit : (t[i] && N[i]) = (s[i] && N[i] || k[i]) := by
    rw [← BitVec.getElem_and, h, BitVec.getElem_or, BitVec.getElem_and]
  simp only [BitVec.getElem_and, BitVec.getElem_not]
  cases hs : s[i] <;> cases ht : t[i] <;> simp_all

/-- Flags added inside a mask: those of it that cannot be added are as before. -/
theorem and_eq_of_added {s t N N' k : Word} (h : t &&& N = (s &&& N) ||| k) (hN : N &&& N' = N')
    (hk : k &&& N' = 0) : t &&& N' = s &&& N' := by
  calc t &&& N'
    _ = t &&& N &&& N' := by rw [BitVec.and_assoc, hN]
    _ = (s &&& N) &&& N' ||| k &&& N' := by
      rw [h]
      ext i hi
      simp [Bool.and_or_distrib_right]
    _ = s &&& N' := by simp [hk, BitVec.and_assoc, hN]

/-- EQUAL and LESS are as before. -/
def CompareKept (s t : State) : Prop := t.flags &&& cmpClearMask = s.flags &&& cmpClearMask

theorem Framed.compareKept {R : List RegName} {T : Option (Nat × Nat)} {M : Word} {s t : State}
    (h : Framed R T M s t) (hM : M &&& 0xFFE7 = M) : CompareKept s t :=
  (h.mono (M' := ~~~cmpClearMask) (List.Subset.refl _) hM).flagsKept

/-- No instruction clears a flag other than EQUAL and LESS, or sets an unnamed one. -/
theorem exec_flagsAdded {i : Instr} {s t : State} (h : exec i s = .next t) : FlagsAdded s t := by
  obtain ⟨-, ht⟩ | ⟨-, s', a, b, hf, rfl⟩ | ⟨-, R, T, hf⟩ := exec_cases h
  · rw [ht]
    exact .refl s
  · refine (hf.flagsAdded (by decide)).trans ⟨0, ?_⟩
    rw [← compareFlags_masked a b, show (0 : Word) &&& 0x00E7 = 0#16 from rfl, BitVec.or_zero]
    exact replaced_and_not (M := cmpClearMask) (by decide)
  · exact hf.flagsAdded (by decide)

/-- Only `cmp` changes EQUAL and LESS. -/
theorem exec_compareKept {i : Instr} (hi : i.kind ≠ .cmp) {s t : State} (h : exec i s = .next t) :
    CompareKept s t := by
  obtain ⟨-, ht⟩ | ⟨hc, -⟩ | ⟨-, R, T, hf⟩ := exec_cases h
  · rw [ht]
    rfl
  · exact (hi hc).elim
  · exact hf.compareKept (by decide)

/-- The exclusion of EQUAL and LESS, by the word of the two flags. -/
theorem State.compareExclusive_iff (s : State) :
    s.CompareExclusive ↔ ¬((s.flags &&& cmpClearMask).getLsbD 3 = true ∧
      (s.flags &&& cmpClearMask).getLsbD 4 = true) := by
  have h3 : cmpClearMask.getLsbD 3 = true := rfl
  have h4 : cmpClearMask.getLsbD 4 = true := rfl
  rw [State.CompareExclusive, s.isSet_fEqual, s.isSet_fLess, BitVec.getLsbD_and, BitVec.getLsbD_and,
    h3, h4, Bool.and_true, Bool.and_true]

theorem State.CompareExclusive.congr {s t : State} (h : s.CompareExclusive) (hk : CompareKept s t) :
    t.CompareExclusive := by
  rw [State.compareExclusive_iff] at h ⊢
  rwa [hk]

/-- A compare sets at most one of EQUAL and LESS, having cleared both (R168). -/
theorem compareExclusive_of_compare (s : State) (a b : Word) :
    State.CompareExclusive { s with flags := (s.flags &&& ~~~cmpClearMask) ||| compareFlags a b } := by
  have hflags : ∀ x : Word, (x &&& ~~~cmpClearMask ||| compareFlags a b) &&& cmpClearMask =
      compareFlags a b := by
    intro x
    rw [← compareFlags_masked a b]
    ext i hi
    simp only [BitVec.getElem_and, BitVec.getElem_or, BitVec.getElem_not]
    cases cmpClearMask[i] <;> simp
  rw [State.compareExclusive_iff]
  simp only [hflags]
  unfold compareFlags
  split
  · decide
  · split <;> decide

/-- Every instruction keeps the exclusion of EQUAL and LESS. -/
theorem exec_compareExclusive {i : Instr} {s t : State} (hs : s.CompareExclusive)
    (h : exec i s = .next t) : t.CompareExclusive := by
  by_cases hc : i.kind = .cmp
  · obtain ⟨hb, -⟩ | ⟨-, s', a, b, -, rfl⟩ | ⟨hn, -⟩ := exec_cases h
    · rw [hc] at hb
      cases hb
    · exact compareExclusive_of_compare s' a b
    · exact (hn hc).elim
  · exact hs.congr (exec_compareKept hc h)

/-! ## One tick -/

/-- A property of a state that the ILLEGAL check, every execution of the fetched instruction and the
increment keep holds after a tick, whatever the registry (R101, R105). -/
theorem step_induct {P : State → Prop} {s t : State} (h : step s = .next t)
    (hillegal : ∀ i, fetch s = .next i → P (noteIllegal i s))
    (hexec : ∀ i, fetch s = .next i → ∀ s' t', P s' → exec i s' = .next t' → P t')
    (hadvance : ∀ s', P s' → P (advancePc s')) : P t := by
  obtain ⟨i, s', hi, -, hd, rfl⟩ := step_cases h
  exact hadvance s' (dispatch_induct (hexec i hi) hd (hillegal i hi))

/-- A tick keeps the configuration and the invariant. -/
theorem step_config_inv {s t : State} (h : step s = .next t) :
    s.SameConfig t ∧ (s.Inv → t.Inv) := by
  refine step_induct (P := fun t => s.SameConfig t ∧ (s.Inv → t.Inv)) h (fun i _ => ?_)
    (fun i _ s' t' hs he => ?_) fun s' hs => ?_
  · exact ⟨.of_eq (by simp) (by simp) (by simp) (by simp) (by simp),
      fun hi => hi.congr (by simp) (by simp)⟩
  · obtain ⟨hc, hi⟩ := exec_config_inv he
    exact ⟨hs.1.trans hc, hi ∘ hs.2⟩
  · exact ⟨hs.1.trans (.of_eq rfl rfl rfl rfl rfl), fun hi => (hs.2 hi).congr rfl rfl⟩

/-- The ILLEGAL check adds a flag other than EQUAL and LESS. -/
theorem noteIllegal_framed (i : Instr) (s : State) : Framed [] none fIllegal s (noteIllegal i s) := by
  unfold noteIllegal
  split
  · exact .setFlags s (BitVec.and_self)
  · exact .refl _ _ _ s

theorem step_compareExclusive {s t : State} (h : step s = .next t) (hs : s.CompareExclusive) :
    t.CompareExclusive :=
  step_induct h (fun i _ => hs.congr ((noteIllegal_framed i s).compareKept (by decide)))
    (fun _ _ _ _ hs' he => exec_compareExclusive hs' he) fun _ hs' => hs'

theorem step_flagsAdded {s t : State} (h : step s = .next t) : FlagsAdded s t :=
  step_induct h (fun i _ => (noteIllegal_framed i s).flagsAdded (by decide))
    (fun _ _ _ _ hs he => hs.trans (exec_flagsAdded he)) fun _ hs => hs

/-- A tick of an instruction other than `cmp` leaves EQUAL and LESS alone. -/
theorem step_compareKept {s t : State} {i : Instr} (hi : fetch s = .next i) (hc : i.kind ≠ .cmp)
    (h : step s = .next t) : CompareKept s t := by
  refine step_induct h (fun j _ => (noteIllegal_framed j s).compareKept (by decide))
    (fun j hj s' t' hs he => ?_) fun _ hs => hs
  rw [hi] at hj
  cases hj
  exact (exec_compareKept hc he).trans hs

/-- A tick of an instruction that is no branch counts `pc` on. -/
theorem step_pc {s t : State} {i : Instr} (hi : fetch s = .next i) (hb : i.kind.isBranch = false)
    (h : step s = .next t) : t.pc = s.pc + 1 := by
  obtain ⟨j, s', hj, -, hd, rfl⟩ := step_cases h
  rw [hi] at hj
  cases hj
  have hpc : s'.pc = s.pc := dispatch_induct (P := fun t => t.pc = s.pc)
    (fun s1 t1 hs he => (exec_pc hb he).trans hs) hd (noteIllegal_pc i s)
  rw [advancePc_pc, hpc]

/-! ## The host's moves (R30 to R33) -/

/-- The host's access to memory is an effect. -/
theorem exists_effect_hostAccess (s : State) (a : Int) (v : Word) :
    (∃ t, hostMove (.readMem a) s = .done t ∧ Effect none s t) ∧
    ∃ t T, hostMove (.writeMem a v) s = .done t ∧ Effect T s t :=
  ⟨⟨_, hostMove_readMem (hostReadMem_eq s a), Effect.readRoute _ s⟩,
    _, _, hostMove_writeMem (hostWriteMem_eq s a v), Effect.writeRoute _ v s⟩

/-- A value of 16 bits is written (R11). -/
theorem hostMove_writeReg_of_range {v : Int} (h : 0 ≤ v ∧ v ≤ 0xFFFF) (s : State) (r : RegName) :
    hostMove (.writeReg r v) s = .done (s.writeReg r (u16 v)) := by
  simp only [hostMove, hostWriteReg, if_pos h]

/-- Every other value is rejected (R11). -/
theorem hostMove_writeReg_of_not_range {v : Int} (h : ¬(0 ≤ v ∧ v ≤ 0xFFFF)) (s : State)
    (r : RegName) : hostMove (.writeReg r v) s = .rejected .valueOutOfRange s := by
  simp only [hostMove, hostWriteReg, if_neg h, raiseStructuralError]

/-- A host's register write that is done wrote the register. -/
theorem hostMove_writeReg_done {s t : State} {r : RegName} {v : Int}
    (h : hostMove (.writeReg r v) s = .done t) : t = s.writeReg r (u16 v) := by
  by_cases hv : 0 ≤ v ∧ v ≤ 0xFFFF
  · rw [hostMove_writeReg_of_range hv] at h
    cases h
    rfl
  · rw [hostMove_writeReg_of_not_range hv] at h
    cases h

/-- Every move of the host that is done keeps the configuration and the invariant. -/
theorem hostMove_config_inv {m : HostMove} {s t : State} (h : hostMove m s = .done t) :
    s.SameConfig t ∧ (s.Inv → t.Inv) := by
  cases m
  case tick =>
    cases hs : step s <;> rw [hostMove, hs] at h <;> cases h
    exact step_config_inv hs
  case readMem a =>
    obtain ⟨⟨t', ht, he⟩, -⟩ := exists_effect_hostAccess s a 0
    rw [ht] at h
    cases h
    exact ⟨he.framed.config, he.inv⟩
  case writeMem a v =>
    obtain ⟨-, t', T, ht, he⟩ := exists_effect_hostAccess s a v
    rw [ht] at h
    cases h
    exact ⟨he.framed.config, he.inv⟩
  case writeReg r v =>
    rw [hostMove_writeReg_done h]
    exact ⟨.of_eq (by simp) (by simp) (by simp) (by simp) (by simp),
      fun hi => hi.congr (by simp) (by simp)⟩
  all_goals
    cases h
    exact ⟨.of_eq rfl rfl rfl rfl rfl, fun hi => hi.congr rfl rfl⟩

end Sys2Proof.Machine

namespace Sys2Proof.Proofs

open Sys2Proof.Machine

/-- Settles O8: each part is kept by every execution, so by every dispatch and tick. -/
theorem stepKeepsInvariants : Obligations.StepKeepsInvariants := by
  intro s t h
  obtain ⟨hconfig, hinv⟩ := step_config_inv h
  exact ⟨hinv, step_compareExclusive h, fun hw => hw.congr hconfig.registry⟩

/-- Settles O9, move by move. -/
theorem hostMovesKeepInvariantAndConfiguration :
    Obligations.HostMovesKeepInvariantAndConfiguration :=
  fun _ _ _ h => (hostMove_config_inv h).symm

/-- Settles O10: outside EQUAL and LESS flags are only added, among the named ones. -/
theorem flagsAreSticky : Obligations.FlagsAreSticky := by
  intro s t h
  obtain ⟨m, hm⟩ := step_flagsAdded h
  refine ⟨and_not_eq_zero_of_added hm, and_eq_of_added hm (by decide) ?_,
    fun i hi hc => step_compareKept hi hc h⟩
  rw [BitVec.and_assoc]
  exact BitVec.and_zero

/-- Settles O11: no execution of the instruction moves `pc`, so the increment alone does. -/
theorem onlyBranchesRedirectThePc : Obligations.OnlyBranchesRedirectThePc :=
  fun _ _ _ hi hb h => step_pc hi hb h

end Sys2Proof.Proofs
end

section
/-! PROOFS. Where an instruction stops (R202, R203): one relation `StopsOnly` that composes along the
operations of a meaning; what completes is what has no reason to stop. -/

namespace Sys2Proof.Machine

/-! ## The relation -/

/-- An outcome that is no refusal, and a structural error only where `P` allows it. -/
def StopsOnly {α : Type} (P : Fault → Prop) (r : Res α) : Prop :=
  (∀ f, r = .fault f → P f) ∧ ∀ e, r ≠ .refused e

theorem StopsOnly.next {α : Type} {P : Fault → Prop} (a : α) : StopsOnly P (.next a) :=
  ⟨nofun, nofun⟩

theorem StopsOnly.raise {α : Type} {P : Fault → Prop} {f : Fault} (h : P f) :
    StopsOnly P (raiseStructuralError f : Res α) := by
  refine ⟨fun g hg => ?_, nofun⟩
  cases hg
  exact h

theorem StopsOnly.andThen {α β : Type} {P : Fault → Prop} {r : Res α} {k : α → Res β}
    (hr : StopsOnly P r) (hk : ∀ a, r = .next a → StopsOnly P (k a)) :
    StopsOnly P (Machine.andThen r k) := by
  cases r with
  | next a => exact hk a rfl
  | fault f => exact .raise (hr.1 f rfl)
  | refused e => exact (hr.2 e rfl).elim

theorem StopsOnly.mono {α : Type} {P Q : Fault → Prop} {r : Res α} (h : StopsOnly P r)
    (hPQ : ∀ f, P f → Q f) : StopsOnly Q r := ⟨fun f hf => hPQ f (h.1 f hf), h.2⟩

/-- What has no reason to stop completes. -/
theorem StopsOnly.completes {α : Type} {P : Fault → Prop} {r : Res α} (h : StopsOnly P r)
    (hP : ∀ f, ¬P f) : ∃ a, r = .next a := by
  cases r with
  | next a => exact ⟨a, rfl⟩
  | fault f => exact (hP f (h.1 f rfl)).elim
  | refused e => exact (h.2 e rfl).elim

/-! ## Operands (R47, R57, R58) -/

section
variable {P : Fault → Prop}

mutual

/-- Evaluating a Parameter stops only at a RegisterReference (R47). -/
theorem value_stopsOnly (s : State) : ∀ p : Param, (p.linked = false → P .unresolvedReference) →
    StopsOnly P (value s p)
  | .const _, _ => .next _
  | .reg _, _ => .next _
  | .regRef _, h => .raise (h rfl)
  | .memC _, _ => .next _
  | .memAbs q, h => value_stopsOnly s q h
  | .memRel t0 rest, h =>
    (value_stopsOnly s t0 fun ht => h (by rw [Param.linked, ht, Bool.false_and])).andThen fun acc _ =>
      foldTerms_stopsOnly s rest acc fun hr => h (by rw [Param.linked, hr, Bool.and_false])

/-- `value_stopsOnly` for the fold of a relative location (R49). -/
theorem foldTerms_stopsOnly (s : State) : ∀ (rest : RelTail) (acc : Int),
    (rest.linked = false → P .unresolvedReference) → StopsOnly P (foldTerms s acc rest)
  | .nil, _, _ => .next _
  | .cons op t rest, acc, h =>
    (value_stopsOnly s t fun ht => h (by rw [RelTail.linked, ht, Bool.false_and])).andThen fun v _ =>
      foldTerms_stopsOnly s rest (RelOp.apply op acc v) fun hr =>
        h (by rw [RelTail.linked, hr, Bool.and_false])

end

/-- Locating an operand stops only at a RegisterReference inside an address (R52). -/
theorem locateRoot_stopsOnly {p : Param} (h : p.linked = false → P .unresolvedReference) (s : State) :
    StopsOnly P (locateRoot p s) := by
  by_cases hm : p.isMem = true
  · rw [locateRoot, locate_of_isMem hm]
    exact (value_stopsOnly s p h).andThen fun a _ => .next _
  · cases p
    case const | reg | regRef => exact .next _
    all_goals exact (hm rfl).elim

/-- Reading a located operand stops only where it is a RegisterReference (R57). -/
theorem rd_stopsOnly {p : Param} (h : p.linked = false → P .unresolvedReference) {s : State}
    {r : Accessor × State} (hl : locateRoot p s = .next r) (s' : State) : StopsOnly P (rd r.1 s') := by
  obtain ⟨c, rfl, rfl⟩ | ⟨g, rfl, rfl⟩ | ⟨n, rfl, rfl⟩ | ⟨-, a, -, rfl⟩ := locateRoot_cases hl
  · exact .next _
  · exact .next _
  · exact .raise (h rfl)
  · obtain ⟨g, a', hA, -⟩ | ⟨hA, -⟩ := locateAt_accessor s.map a s <;> rw [hA] <;> exact .next _

/-- Writing a located operand stops only where it is a RegisterReference or a Constant (R58). -/
theorem wr_stopsOnly {p : Param} (h : p.linked = false → P .unresolvedReference)
    (hc : p.isConst = true → P .notWritable) {s : State} {r : Accessor × State}
    (hl : locateRoot p s = .next r) (v : Word) (s' : State) : StopsOnly P (wr r.1 v s') := by
  obtain ⟨c, rfl, rfl⟩ | ⟨g, rfl, rfl⟩ | ⟨n, rfl, rfl⟩ | ⟨-, a, -, rfl⟩ := locateRoot_cases hl
  · exact .raise (hc rfl)
  · exact .next _
  · exact .raise (h rfl)
  · obtain ⟨g, a', hA, -⟩ | ⟨hA, -⟩ := locateAt_accessor s.map a s <;> rw [hA] <;> exact .next _

/-- The capability check stops at a Constant (R205). -/
theorem checkWritable_stopsOnly {p : Param} (hc : p.isConst = true → P .notWritable) {k : Res State}
    (hk : StopsOnly P k) : StopsOnly P (checkWritable p k) := by
  unfold checkWritable
  split
  · exact .raise (hc (by assumption))
  · exact hk

/-- A well-formed instruction passes the shape check (R73). -/
theorem checkShape_stopsOnly {i : Instr} (hwf : i.WellFormed) {k : Res State} (hk : StopsOnly P k) :
    StopsOnly P (checkShape i k) := by
  rwa [checkShape_wf hwf]

/-! ## The shapes of the meanings -/

theorem readOperands_stopsOnly {p1 p2 : Param} (h1 : p1.linked = false → P .unresolvedReference)
    (h2 : p2.linked = false → P .unresolvedReference) (s : State) :
    StopsOnly P (readOperands p1 p2 s) :=
  (locateRoot_stopsOnly h1 s).andThen fun A hA => (locateRoot_stopsOnly h2 A.2).andThen fun B hB =>
    (rd_stopsOnly h1 hA B.2).andThen fun a _ => (rd_stopsOnly h2 hB a.2).andThen fun _ _ => .next _

section
variable {p1 p2 : Param} (hc : p1.isConst = true → P .notWritable)
  (h1 : p1.linked = false → P .unresolvedReference) (h2 : p2.linked = false → P .unresolvedReference)
  (s : State)
include hc h1

/-- Writing a result through the first of the operands read. -/
theorem wr_operands_stopsOnly {o : Operands} (ho : readOperands p1 p2 s = .next o) (v : Word) :
    StopsOnly P (wr o.A v o.s) := by
  obtain ⟨-, r, hr, hA⟩ := readOperands_effect ho
  rw [← hA]
  exact wr_stopsOnly h1 hc hr v o.s

include h2

theorem trackedOp_stopsOnly (W : Word → Word → Int) : StopsOnly P (trackedOp W p1 p2 s) :=
  checkWritable_stopsOnly hc <| (readOperands_stopsOnly h1 h2 s).andThen fun _ ho =>
    (wr_operands_stopsOnly hc h1 s ho _).andThen fun _ _ => .next _

theorem divideOp_stopsOnly (W : Word → Word → Int) : StopsOnly P (divideOp W p1 p2 s) := by
  refine checkWritable_stopsOnly hc <| (readOperands_stopsOnly h1 h2 s).andThen fun o ho => ?_
  split
  · exact .next _
  · exact (wr_operands_stopsOnly hc h1 s ho _).andThen fun _ _ => .next _

theorem plainOp_stopsOnly (f : Word → Word → Word) : StopsOnly P (plainOp f p1 p2 s) :=
  checkWritable_stopsOnly hc <| (readOperands_stopsOnly h1 h2 s).andThen fun _ ho =>
    (wr_operands_stopsOnly hc h1 s ho _).andThen fun _ _ => .next _

theorem execMov_stopsOnly (hwf : (Instr.mov p1 p2).WellFormed) : StopsOnly P (execMov p1 p2 s) :=
  checkShape_stopsOnly hwf <| checkWritable_stopsOnly hc <| (locateRoot_stopsOnly h1 s).andThen fun D hD =>
    (locateRoot_stopsOnly h2 D.2).andThen fun S hS => (rd_stopsOnly h2 hS S.2).andThen fun v _ =>
      wr_stopsOnly h1 hc hD v.1 v.2

end

theorem execCmp_stopsOnly {p1 p2 : Param} (h1 : p1.linked = false → P .unresolvedReference)
    (h2 : p2.linked = false → P .unresolvedReference) (hwf : (Instr.cmp p1 p2).WellFormed) (s : State) :
    StopsOnly P (execCmp p1 p2 s) :=
  checkShape_stopsOnly hwf <| (readOperands_stopsOnly h1 h2 s).andThen fun _ _ => .next _

/-- Locating the ignored operand of `not` stops as locating it does (R167). -/
theorem locateIgnored_stopsOnly {p2 : Option Param}
    (h2 : ∀ p, p2 = some p → p.linked = false → P .unresolvedReference) (s : State) :
    StopsOnly P (locateIgnored p2 s) := by
  cases p2 with
  | none => exact .next _
  | some p => exact (locateRoot_stopsOnly (h2 p rfl) s).andThen fun _ _ => .next _

theorem execNot_stopsOnly {p1 : Param} {p2 : Option Param} (hc : p1.isConst = true → P .notWritable)
    (h1 : p1.linked = false → P .unresolvedReference)
    (h2 : ∀ p, p2 = some p → p.linked = false → P .unresolvedReference)
    (hwf : (Instr.not p1 p2).WellFormed) (s : State) : StopsOnly P (execNot p1 p2 s) :=
  checkShape_stopsOnly hwf <| checkWritable_stopsOnly hc <| (locateRoot_stopsOnly h1 s).andThen fun A hA =>
    (locateIgnored_stopsOnly h2 A.2).andThen fun s' _ => (rd_stopsOnly h1 hA s').andThen fun a _ =>
      (wr_stopsOnly h1 hc hA _ a.2).andThen fun _ _ => .next _

theorem branch_stopsOnly {p : Param} (h : p.linked = false → P .unresolvedReference) (taken : Bool)
    (s : State) : StopsOnly P (branch taken p s) := by
  unfold branch
  split
  · exact (value_stopsOnly s p h).andThen fun _ _ => .next _
  · exact .next _

/-! ## `push` and `pop` (R107, R108) -/

/-- A dispatch of what always completes stops only where a unit is handed a foreign kind (R107). -/
theorem dispatchRun_stopsOnly {i : Instr} {run : State → Res State} {s : State}
    (hrun : ∀ s, ∃ t, run s = .next t) (h : ¬s.registry.Proper → P .unsupportedInstruction) :
    StopsOnly P (dispatchRun i run s) := by
  refine ⟨fun f hf => ?_, fun e he => ?_⟩
  · obtain ⟨s', hs'⟩ | ⟨rfl, u, hu, hk⟩ := dispatchRun_fault hf
    · obtain ⟨t, ht⟩ := hrun s'
      rw [ht] at hs'
      cases hs'
    · exact h fun hp => hk (hp i u hu)
  · obtain ⟨s', hs'⟩ := dispatchRun_refused he
    obtain ⟨t, ht⟩ := hrun s'
    rw [ht] at hs'
    cases hs'

theorem execPush_stopsOnly {p1 : Param} (h1 : p1.linked = false → P .unresolvedReference) {s : State}
    (hu : ¬s.registry.Proper → P .unsupportedInstruction) (hwf : (Instr.push p1).WellFormed) :
    StopsOnly P (execPush p1 s) := by
  refine checkShape_stopsOnly hwf <| (locateRoot_stopsOnly h1 s).andThen fun V hV =>
    (rd_stopsOnly h1 hV V.2).andThen fun v hv =>
    (locateRoot_stopsOnly nofun v.2).andThen fun L hL =>
      (wr_stopsOnly nofun nofun hL v.1 L.2).andThen fun s' hw => ?_
  have hregistry : s'.registry = s.registry := calc
    s'.registry = v.2.registry := (stored_of_wr hL (Effect.locateRoot hL) hw).registry
    _ = V.2.registry := (Effect.rd hv).registry
    _ = s.registry := (Effect.locateRoot hV).registry
  exact dispatchRun_stopsOnly (fun s => ⟨_, execAdd_sp s⟩) (by rwa [hregistry])

theorem popCopy_stopsOnly {p : Param} (hc : p.isConst = true → P .notWritable)
    (h : p.linked = false → P .unresolvedReference) (s : State) : StopsOnly P (popCopy p s) :=
  (locateRoot_stopsOnly nofun s).andThen fun L hL => (locateRoot_stopsOnly h L.2).andThen fun D hD =>
    (rd_stopsOnly nofun hL D.2).andThen fun v _ => wr_stopsOnly h hc hD v.1 v.2

theorem popBody_stopsOnly {p1 : Option Param} {s : State}
    (hu : ¬s.registry.Proper → P .unsupportedInstruction)
    (hcopy : ∀ p, p1 = some p → ∀ s, StopsOnly P (popCopy p s)) : StopsOnly P (popBody p1 s) := by
  unfold popBody
  split
  · exact .next _
  · refine (dispatchRun_stopsOnly (fun s => ⟨_, execSub_sp s⟩) hu).andThen fun s' _ => ?_
    cases p1 with
    | none => exact .next _
    | some p => exact hcopy p rfl s'

theorem execPop_stopsOnly {p1 : Option Param}
    (hc : ∀ p, p1 = some p → p.isConst = true → P .notWritable)
    (h : ∀ p, p1 = some p → p.linked = false → P .unresolvedReference) {s : State}
    (hu : ¬s.registry.Proper → P .unsupportedInstruction) (hwf : (Instr.pop p1).WellFormed) :
    StopsOnly P (execPop p1 s) := by
  have hbody := popBody_stopsOnly hu fun p hp => popCopy_stopsOnly (hc p hp) (h p hp)
  cases p1 with
  | none => exact checkShape_stopsOnly hwf hbody
  | some p => exact checkShape_stopsOnly hwf (checkWritable_stopsOnly (hc p rfl) hbody)

end

/-! ## Every instruction (R202, R205) -/

/-- The reasons for which the structural error `f` stops an instruction (R107, R202, R205). -/
def StopReason (i : Instr) (s : State) (f : Fault) : Prop :=
  (f = .notWritable ∧ i.writable = false) ∨ (f = .unresolvedReference ∧ i.linked = false) ∨
  (f = .unsupportedInstruction ∧ i.kind ∈ [Kind.push, .pop] ∧ ¬s.registry.Proper)

theorem Instr.writable_of_const {i : Instr} {p : Param} (hw : i.kind.writesP1 = true)
    (hp : i.p1? = some p) (hc : p.isConst = true) : i.writable = false := by
  simp [Instr.writable, hw, hp, hc]

theorem Instr.not_linked_of_mem {i : Instr} {p : Param} (hp : p ∈ i.operands) (h : p.linked = false) :
    i.linked = false := by
  rw [Instr.linked, List.all_eq_false]
  exact ⟨p, hp, by simp [h]⟩

theorem Instr.p1_mem_operands {i : Instr} {p : Param} (h : i.p1? = some p) : p ∈ i.operands := by
  simp [Instr.operands, h]

theorem Instr.p2_mem_operands {i : Instr} {p : Param} (h : i.p2? = some p) : p ∈ i.operands := by
  simp [Instr.operands, h]

/-- A well-formed instruction stops for these reasons only. -/
theorem exec_stopsOnly {i : Instr} (hwf : i.WellFormed) (s : State) :
    StopsOnly (StopReason i s) (exec i s) := by
  have hconst : ∀ p, i.kind.writesP1 = true → i.p1? = some p → p.isConst = true →
      StopReason i s .notWritable := fun p hw hp hc => .inl ⟨rfl, Instr.writable_of_const hw hp hc⟩
  have hlink1 : ∀ p, i.p1? = some p → p.linked = false → StopReason i s .unresolvedReference :=
    fun p hp h => .inr (.inl ⟨rfl, Instr.not_linked_of_mem (Instr.p1_mem_operands hp) h⟩)
  have hlink2 : ∀ p, i.p2? = some p → p.linked = false → StopReason i s .unresolvedReference :=
    fun p hp h => .inr (.inl ⟨rfl, Instr.not_linked_of_mem (Instr.p2_mem_operands hp) h⟩)
  have hunit : i.kind ∈ [Kind.push, .pop] → ¬s.registry.Proper →
      StopReason i s .unsupportedInstruction := fun hk hn => .inr (.inr ⟨rfl, hk, hn⟩)
  cases i
  case nop => exact .next _
  case mov p1 p2 =>
    exact execMov_stopsOnly (hconst p1 rfl rfl) (hlink1 p1 rfl) (hlink2 p2 rfl) s hwf
  case push p1 => exact execPush_stopsOnly (hlink1 p1 rfl) (hunit (by simp [Instr.kind])) hwf
  case pop p1 =>
    exact execPop_stopsOnly (fun p hp => hconst p rfl hp) hlink1 (hunit (by simp [Instr.kind])) hwf
  case not p1 p2 => exact execNot_stopsOnly (hconst p1 rfl rfl) (hlink1 p1 rfl) hlink2 hwf s
  case cmp p1 p2 => exact execCmp_stopsOnly (hlink1 p1 rfl) (hlink2 p2 rfl) hwf s
  case add p1 p2 | sub p1 p2 | umul p1 p2 | smul p1 p2 =>
    exact checkShape_stopsOnly hwf
      (trackedOp_stopsOnly (hconst p1 rfl rfl) (hlink1 p1 rfl) (hlink2 p2 rfl) s _)
  case udiv p1 p2 | sdiv p1 p2 =>
    exact checkShape_stopsOnly hwf
      (divideOp_stopsOnly (hconst p1 rfl rfl) (hlink1 p1 rfl) (hlink2 p2 rfl) s _)
  case and p1 p2 | or p1 p2 | xor p1 p2 | shl p1 p2 | shr p1 p2 =>
    exact checkShape_stopsOnly hwf
      (plainOp_stopsOnly (hconst p1 rfl rfl) (hlink1 p1 rfl) (hlink2 p2 rfl) s _)
  case jmp p | jeq p | jne p | jlt p | jle p | jgt p | jge p =>
    exact checkShape_stopsOnly hwf (branch_stopsOnly (hlink1 p rfl) _ s)

/-- An instruction of R205 with a Constant as its destination stops before anything else. -/
theorem exec_of_not_writable {i : Instr} (hwf : i.WellFormed) (hw : i.writable = false) (s : State) :
    exec i s = .fault .notWritable := by
  have hconst : i.kind.writesP1 = true ∧ ∃ p, i.p1? = some p ∧ p.isConst = true := by
    simpa [Instr.writable, Option.any_eq_true] using hw
  obtain ⟨hk, p, hp, hc⟩ := hconst
  have hcheck : ∀ k : Res State, checkShape i (checkWritable p k) = .fault .notWritable := fun k => by
    rw [checkShape_wf hwf, checkWritable, if_pos hc, raiseStructuralError]
  cases i
  case push | cmp | jmp | jeq | jne | jlt | jle | jgt | jge | nop => cases hk
  all_goals
    cases hp
    exact hcheck _

/-- An ill-formed instruction is refused (R73; log 7). -/
theorem exec_of_not_wellFormed {i : Instr} (h : ¬i.WellFormed) (s : State) :
    ∃ e, exec i s = .refused e := by
  obtain ⟨e, he⟩ := Option.ne_none_iff_exists'.mp h
  have hcheck : ∀ k : Res State, checkShape i k = .refused (.illFormedRecord e) := fun k => by
    rw [checkShape, he]
  cases i
  case nop => exact (h rfl).elim
  all_goals exact ⟨_, hcheck _⟩

/-- With units that take their own families only, what is linked and writable has no reason to stop. -/
theorem not_stopReason {i : Instr} {s : State} (hp : s.registry.Proper) (hl : i.linked = true)
    (hw : i.writable = true) (f : Fault) : ¬StopReason i s f := by
  rintro (⟨-, h⟩ | ⟨-, h⟩ | ⟨-, -, h⟩)
  · rw [hw] at h
    cases h
  · rw [hl] at h
    cases h
  · exact h hp

/-! ## The dispatch and the tick (R105, R107) -/

/-- A dispatch to units that all hold the kind stops only where an execution in the same configuration
does. -/
theorem dispatch_stopsOnly {P : Fault → Prop} {i : Instr} {s : State} (hp : s.registry.Proper)
    (hexec : ∀ s', s.SameConfig s' → StopsOnly P (exec i s')) : StopsOnly P (dispatch i s) := by
  have hforward : ∀ units : List ExecUnit, (∀ u ∈ units, i.kind ∈ u.family) → ∀ s', s.SameConfig s' →
      StopsOnly P (forwardTo (fun u => executeAt u i (exec i)) units s') := by
    intro units
    induction units with
    | nil => exact fun _ s' _ => .next s'
    | cons u rest ih =>
      intro hu s' hs'
      rw [forwardTo_cons, executeAt_own (hu u List.mem_cons_self)]
      exact (hexec s' hs').andThen fun t ht => ih (fun v hv => hu v (List.mem_cons_of_mem _ hv)) t
        (hs'.trans (exec_config_inv ht).1)
  exact hforward _ (hp i) s (.refl s)

/-- A tick that fetches an instruction stops only where an execution of it in the same configuration
does, if no unit is handed a foreign kind. -/
theorem step_stopsOnly {P : Fault → Prop} {i : Instr} {s : State} (hi : fetch s = .next i)
    (hp : s.registry.Proper) (hexec : ∀ s', s.SameConfig s' → StopsOnly P (exec i s')) :
    StopsOnly P (step s) := by
  rw [step_of_fetch hi]
  have hsame := (noteIllegal_framed i s).config
  refine (dispatch_stopsOnly (by rwa [noteIllegal_registry]) fun s' hs' => ?_).andThen
    fun _ _ => .next _
  exact hexec s' (hsame.trans hs')

/-- The cell of a safe program, or the default no-op past its end, is a linked instruction that writes no
Constant. -/
theorem fetch_of_safeProgram {s : State} (h : SafeProgram s.prog) :
    ∃ i, fetch s = .next i ∧ i.linked = true ∧ i.writable = true := by
  unfold fetch
  split
  · rename_i cell hcell
    have hsafe := h cell (List.mem_of_getElem? hcell)
    unfold cellSafe at hsafe
    split at hsafe
    · rename_i i hi
      rw [Bool.and_eq_true] at hsafe
      exact ⟨i, hi, hsafe⟩
    · cases hsafe
    · cases hsafe
  · exact ⟨.nop, rfl, rfl, rfl⟩

/-- A tick of a safe program completes (R203). -/
theorem step_completes {s : State} (hp : s.registry.Proper) (h : SafeProgram s.prog) :
    ∃ t, step s = .next t := by
  obtain ⟨i, hi, hl, hw⟩ := fetch_of_safeProgram h
  refine (step_stopsOnly (P := fun _ => False) hi hp fun s' hs' => ?_).completes fun _ => id
  exact (exec_stopsOnly (fetch_wellFormed hi) s').mono
    (not_stopReason (by rwa [hs'.registry]) hl hw)

/-! ## The families (R72, R106) -/

/-- The unit that holds a kind is the one unit of its family. -/
theorem familyUnits_of_mem {u : ExecUnit} {k : Kind} (h : k ∈ u.family) : Kind.familyUnits k = [u] := by
  revert h
  cases u <;> cases k <;> decide

/-- The families are disjoint, and `nop` is in none. -/
theorem family_disjoint {u u' : ExecUnit} {k : Kind} (h : k ∈ u.family) (h' : k ∈ u'.family) :
    u = u' ∧ k ≠ .nop := by
  have hunits := familyUnits_of_mem h
  constructor
  · rw [familyUnits_of_mem h'] at hunits
    exact (List.cons.inj hunits).1.symm
  · rintro rfl
    cases hunits

/-- What a unit does with an instruction (R107). -/
theorem executeAt_eq (u : ExecUnit) (i : Instr) (run : State → Res State) (s : State) :
    executeAt u i run s = if i.kind ∈ u.family then run s else .fault .unsupportedInstruction := rfl

/-- The last of the accepting units ends the dispatch. -/
theorem forwardTo_singleton (execute : ExecUnit → State → Res State) (u : ExecUnit) (s : State) :
    forwardTo execute [u] s = execute u s := by
  rw [forwardTo_cons]
  cases execute u s <;> rfl

end Sys2Proof.Machine

namespace Sys2Proof.Proofs

open Sys2Proof.Machine

/-- Settles O13: program and registry stay, so every tick of the run completes as the first does. -/
theorem safeProgramNeverStops : Obligations.SafeProgramNeverStops := by
  intro s hp hsafe n
  induction n generalizing s with
  | zero => exact ⟨s, rfl⟩
  | succ n ih =>
    obtain ⟨s', hs'⟩ := step_completes hp hsafe
    have hconfig := (step_config_inv hs').1
    obtain ⟨t, ht⟩ := ih s' (by rwa [hconfig.registry]) (by rwa [hconfig.prog])
    exact ⟨t, s', hs', ht⟩

/-- Settles O14: no reason to stop is left. -/
theorem wellFormedLinkedWritableCompletes : Obligations.WellFormedLinkedWritableCompletes :=
  fun _ s hp hwf hl hw => (exec_stopsOnly hwf s).completes (not_stopReason hp hl hw)

/-- Settles O15: the reasons of a well-formed instruction, and the refusal of an ill-formed one. -/
theorem instructionsStopOnlyAsSaid : Obligations.InstructionsStopOnlyAsSaid := by
  intro i s
  refine ⟨fun hwf => ⟨fun h => ?notWritable, fun hw => exec_of_not_writable hwf hw s⟩,
    fun f hf => ?reasons, fun ⟨e, he⟩ hwf => (exec_stopsOnly hwf s).2 e he,
    fun h => exec_of_not_wellFormed h s⟩
  case notWritable =>
    obtain ⟨-, hw⟩ | ⟨hf, -⟩ | ⟨hf, -⟩ := (exec_stopsOnly hwf s).1 _ h
    · exact hw
    · cases hf
    · cases hf
  case reasons =>
    by_cases hwf : i.WellFormed
    · exact ((exec_stopsOnly hwf s).1 f hf).imp_left And.left
    · obtain ⟨e, he⟩ := exec_of_not_wellFormed hwf s
      rw [he] at hf
      cases hf

/-- Settles O16: the accepting units run in order, and a tick's instruction, being well-formed, never
meets a unit of another family. -/
theorem unitsRejectForeignKinds : Obligations.UnitsRejectForeignKinds := by
  refine ⟨fun i s h => ?none, fun i s u h => ?one, fun i s t u u' h hk ht => ?two,
    fun u u' k h h' => family_disjoint h h', fun s hp hs => ?tick⟩
  case none => rw [dispatch, dispatchRun, h, forwardTo_nil]
  case one => rw [dispatch, dispatchRun, h, forwardTo_singleton, executeAt_eq]
  case two =>
    rw [dispatch, dispatchRun, h, forwardTo_cons, executeAt_own hk, ht, andThen_next,
      forwardTo_singleton, executeAt_eq]
  case tick =>
    cases hi : fetch s with
    | next i =>
      have hstop := step_stopsOnly (P := (· ≠ .unsupportedInstruction)) hi hp fun s' hs' =>
        (exec_stopsOnly (fetch_wellFormed hi) s').mono fun f hf hu => ?_
      · exact hstop.1 _ hs rfl
      · obtain ⟨h, -⟩ | ⟨h, -⟩ | ⟨-, -, h⟩ := hf
        · rw [hu] at h
          cases h
        · rw [hu] at h
          cases h
        · exact h (by rwa [hs'.registry])
    | fault f =>
      unfold fetch at hi
      split at hi
      · exact decodeCell_ne_fault _ f hi
      · cases hi
    | refused e =>
      rw [step, onTick, hi] at hs
      cases hs

end Sys2Proof.Proofs
end

section
/-! PROOFS. Noninterference of the flags that nothing reads (the table of readers in 10_state.md section 1):
states that agree on everything but those flags stay so along every operation, and stop alike. -/

namespace Sys2Proof.Machine

/-! ## The relation -/

/-- Two states that differ at most in flags other than EQUAL and LESS. -/
def Alike (s s' : State) : Prop :=
  ∃ f : Word, s' = { s with flags := f } ∧ f &&& cmpClearMask = s.flags &&& cmpClearMask

/-- Two outcomes that stop alike, or answer values that are related. -/
def ResAlike {α : Type} (R : α → α → Prop) : Res α → Res α → Prop
  | .next a, .next b => R a b
  | .fault f, .fault g => f = g
  | .refused e, .refused e' => e = e'
  | _, _ => False

/-- The same value, in states that are alike. -/
def PairAlike {α : Type} (a b : α × State) : Prop := a.1 = b.1 ∧ Alike a.2 b.2

theorem Alike.refl (s : State) : Alike s s := ⟨s.flags, rfl, rfl⟩

theorem ResAlike.rfl_of {α : Type} {R : α → α → Prop} (hR : ∀ a, R a a) (r : Res α) :
    ResAlike R r r := by
  cases r with
  | next a => exact hR a
  | fault f => exact Eq.refl f
  | refused e => exact Eq.refl e

/-- What is alike to an answer is an answer. -/
theorem ResAlike.exists_next {α : Type} {R : α → α → Prop} {a : α} {r : Res α}
    (h : ResAlike R (.next a) r) : ∃ b, r = .next b ∧ R a b := by
  cases r with
  | next b => exact ⟨b, rfl, h⟩
  | fault f => exact h.elim
  | refused e => exact h.elim

theorem ResAlike.andThen {α β : Type} {R : α → α → Prop} {Q : β → β → Prop} {r r' : Res α}
    {k k' : α → Res β} (h : ResAlike R r r') (hk : ∀ a b, R a b → ResAlike Q (k a) (k' b)) :
    ResAlike Q (Machine.andThen r k) (Machine.andThen r' k') := by
  cases r with
  | next a =>
    obtain ⟨b, rfl, hab⟩ := h.exists_next
    exact hk a b hab
  | fault f =>
    cases r' with
    | fault g => exact h
    | next b | refused e => exact h.elim
  | refused e =>
    cases r' with
    | refused e' => exact h
    | next b | fault f => exact h.elim

/-! ## Updates -/

/-- Flags set on both sides. -/
theorem Alike.setFlags {s s' : State} (h : Alike s s') (m : Word) :
    Alike (s.setFlags m) (s'.setFlags m) := by
  obtain ⟨f, rfl, hf⟩ := h
  refine ⟨f ||| m, rfl, ?_⟩
  calc (f ||| m) &&& cmpClearMask
    _ = f &&& cmpClearMask ||| m &&& cmpClearMask := by
      ext i hi; simp [Bool.and_or_distrib_right]
    _ = (s.flags ||| m) &&& cmpClearMask := by
      rw [hf]; ext i hi; simp [Bool.and_or_distrib_right]

/-- Flags cleared on both sides. -/
theorem Alike.unsetFlags {s s' : State} (h : Alike s s') (m : Word) :
    Alike (s.unsetFlags m) (s'.unsetFlags m) := by
  obtain ⟨f, rfl, hf⟩ := h
  refine ⟨f &&& ~~~m, rfl, ?_⟩
  calc f &&& ~~~m &&& cmpClearMask
    _ = (f &&& cmpClearMask) &&& ~~~m := by ac_rfl
    _ = (s.flags &&& ~~~m) &&& cmpClearMask := by rw [hf]; ac_rfl

theorem Alike.setUnit {s s' : State} (h : Alike s s') (u : Nat) (unit : HwUnit) :
    Alike (s.setUnit u unit) (s'.setUnit u unit) := by
  obtain ⟨f, rfl, hf⟩ := h
  exact ⟨f, rfl, hf⟩

theorem Alike.setPc {s s' : State} (h : Alike s s') (target : Int) :
    Alike (s.setPc target) (s'.setPc target) := by
  obtain ⟨f, rfl, hf⟩ := h
  exact ⟨f, rfl, hf⟩

theorem Alike.writeReg {s s' : State} (h : Alike s s') {r : RegName} (hr : r.nameable = true)
    (v : Word) : Alike (s.writeReg r v) (s'.writeReg r v) := by
  obtain ⟨f, rfl, hf⟩ := h
  cases r with
  | gpr i => exact ⟨f, rfl, hf⟩
  | sp => exact ⟨f, rfl, hf⟩
  | pc => cases hr
  | flags => cases hr

theorem Alike.writeOvf {s s' : State} (h : Alike s s') (v : Word) :
    Alike (s.writeOvf v) (s'.writeOvf v) := by
  obtain ⟨f, rfl, hf⟩ := h
  exact ⟨f, rfl, hf⟩

theorem Alike.readReg {s s' : State} (h : Alike s s') {r : RegName} (hr : r.nameable = true) :
    s.readReg r = s'.readReg r := by
  obtain ⟨f, rfl, -⟩ := h
  exact State.readReg_congr hr rfl rfl

theorem Alike.noteAmbiguity {s s' : State} (h : Alike s s') (m : Bool) :
    Alike (s.noteAmbiguity m) (s'.noteAmbiguity m) := by
  cases m with
  | false => exact h
  | true => exact h.setFlags fMultistate

/-- EQUAL and LESS are the same bits. -/
theorem Alike.getLsbD {s s' : State} (h : Alike s s') {n : Nat}
    (hn : cmpClearMask.getLsbD n = true) : s'.flags.getLsbD n = s.flags.getLsbD n := by
  obtain ⟨f, rfl, hf⟩ := h
  have hbit := congrArg (BitVec.getLsbD · n) hf
  simpa [hn] using hbit

/-! ## Accesses (R52 to R58) -/

/-- A drawn value counts on both sides. -/
theorem Alike.draw {s s' : State} (h : Alike s s') :
    Alike { s with draws := s.draws + 1 } { s' with draws := s'.draws + 1 } := by
  obtain ⟨f, rfl, hf⟩ := h
  exact ⟨f, rfl, hf⟩

theorem Alike.failRead {s s' : State} (h : Alike s s') : PairAlike s.failRead s'.failRead := by
  refine ⟨?_, (h.setFlags fSeg).draw⟩
  obtain ⟨f, rfl, -⟩ := h
  rfl

theorem Alike.units {s s' : State} (h : Alike s s') : s'.units = s.units := by
  obtain ⟨f, rfl, -⟩ := h
  rfl

theorem Alike.map {s s' : State} (h : Alike s s') : s'.map = s.map := by
  obtain ⟨f, rfl, -⟩ := h
  rfl

theorem Alike.registry {s s' : State} (h : Alike s s') : s'.registry = s.registry := by
  obtain ⟨f, rfl, -⟩ := h
  rfl

theorem Alike.sp {s s' : State} (h : Alike s s') : s'.sp = s.sp := by
  obtain ⟨f, rfl, -⟩ := h
  rfl

theorem Alike.value {s s' : State} (h : Alike s s') {p : Param} (hp : p.admissible = true) :
    value s' p = value s p := by
  obtain ⟨f, rfl, -⟩ := h
  exact value_congr (by rfl) (by rfl) p hp

theorem Alike.memRead {s s' : State} (h : Alike s s') (u : Nat) (addr : Int) :
    PairAlike (s.memRead u addr) (s'.memRead u addr) := by
  unfold State.memRead
  rw [h.units]
  split
  · exact h.failRead
  · split
    · split
      · exact ⟨rfl, h⟩
      · exact ⟨rfl, h.setUnit _ _⟩
    · exact h.failRead

theorem Alike.memWrite {s s' : State} (h : Alike s s') (u : Nat) (addr : Int) (v : Word) :
    Alike (s.memWrite u addr v) (s'.memWrite u addr v) := by
  unfold State.memWrite
  rw [h.units]
  split
  · exact h.setFlags fSeg
  · split
    · split
      · exact h.setUnit _ _
      · exact h.setUnit _ _
    · exact h.setFlags fSeg

theorem Alike.readRoute {s s' : State} (h : Alike s s') (r : Route) :
    PairAlike (readRoute r s) (readRoute r s') := by
  cases r with
  | hit u addr => exact h.memRead u addr
  | miss m => exact (h.noteAmbiguity m).failRead

theorem Alike.writeRoute {s s' : State} (h : Alike s s') (r : Route) (v : Word) :
    Alike (writeRoute r v s) (writeRoute r v s') := by
  cases r with
  | hit u addr => exact h.memWrite u addr v
  | miss m => exact (h.noteAmbiguity m).setFlags fSeg

/-- An accessor that names no register but those an instruction can name (R18). -/
def Accessor.Nameable (A : Accessor) : Prop := ∀ r, A = .reg r → r.nameable = true

/-- One accessor, in states that are alike. -/
def Located (a b : Accessor × State) : Prop := PairAlike a b ∧ a.1.Nameable

theorem Alike.locateAt {s s' : State} (h : Alike s s') (n : Node) (a : Int) :
    Located (locateAt n a s) (locateAt n a s') := by
  unfold Machine.locateAt
  split
  · exact ⟨⟨rfl, h⟩, nofun⟩
  · exact ⟨⟨rfl, h⟩, nofun⟩
  · exact ⟨⟨rfl, h.setFlags fMultistate⟩, nofun⟩

/-- An operand of a well-formed instruction is located alike (R52). -/
theorem Alike.locateRoot {s s' : State} (h : Alike s s') {p : Param} (hp : p.admissible = true) :
    ResAlike Located (locateRoot p s) (locateRoot p s') := by
  by_cases hm : p.isMem = true
  · rw [Machine.locateRoot, Machine.locateRoot, locate_of_isMem hm, locate_of_isMem hm, address,
      address, h.value hp, h.map]
    exact (ResAlike.rfl_of (R := (· = ·)) (fun _ => rfl) _).andThen fun a b hab =>
      hab ▸ h.locateAt s.map a
  · cases p with
    | const c => exact ⟨⟨rfl, h⟩, nofun⟩
    | reg r => exact ⟨⟨rfl, h⟩, fun r' hr' => by cases hr'; exact hp⟩
    | regRef n => exact ⟨⟨rfl, h⟩, nofun⟩
    | memC a => exact (hm rfl).elim
    | memAbs q => exact (hm rfl).elim
    | memRel t rest => exact (hm rfl).elim

theorem Alike.rd {s s' : State} (h : Alike s s') {A : Accessor} (hA : A.Nameable) :
    ResAlike PairAlike (rd A s) (rd A s') := by
  cases A with
  | const c => exact ⟨rfl, h⟩
  | reg r => exact ⟨h.readReg (hA r rfl), h⟩
  | regRef n => exact Eq.refl Fault.unresolvedReference
  | resolved g a => exact h.readRoute _
  | unresolved => exact h.failRead

theorem Alike.wr {s s' : State} (h : Alike s s') {A : Accessor} (hA : A.Nameable) (v : Word) :
    ResAlike Alike (wr A v s) (wr A v s') := by
  cases A with
  | const c => exact Eq.refl Fault.notWritable
  | reg r => exact h.writeReg (hA r rfl) v
  | regRef n => exact Eq.refl Fault.unresolvedReference
  | resolved g a => exact h.writeRoute _ v
  | unresolved => exact h.setFlags fSeg

/-! ## Instructions -/

/-- The same accessor and words, in states that are alike. -/
def OperandsAlike (o o' : Operands) : Prop :=
  o.A.Nameable ∧ ∃ s', o' = { o with s := s' } ∧ Alike o.s s'

theorem ResAlike.checkShape {i : Instr} {k k' : Res State} (hk : ResAlike Alike k k') :
    ResAlike Alike (checkShape i k) (checkShape i k') := by
  unfold Machine.checkShape
  split
  · exact Eq.refl (Refusal.illFormedRecord _)
  · exact hk

theorem ResAlike.checkWritable {p : Param} {k k' : Res State} (hk : ResAlike Alike k k') :
    ResAlike Alike (checkWritable p k) (checkWritable p k') := by
  unfold Machine.checkWritable
  split
  · exact Eq.refl Fault.notWritable
  · exact hk

/-- A dispatch of what runs alike runs alike: the registry is the same. -/
theorem Alike.dispatchRun {s s' : State} (h : Alike s s') {i : Instr} {run : State → Res State}
    (hrun : ∀ s s', Alike s s' → ResAlike Alike (run s) (run s')) :
    ResAlike Alike (dispatchRun i run s) (dispatchRun i run s') := by
  unfold Machine.dispatchRun
  rw [h.registry]
  generalize s.registry.units i = units
  induction units generalizing s s' with
  | nil => exact h
  | cons u rest ih =>
    rw [forwardTo_cons, forwardTo_cons]
    refine ResAlike.andThen (R := Alike) ?_ fun _ _ e => ih e
    unfold executeAt
    split
    · exact hrun s s' h
    · exact Eq.refl Fault.unsupportedInstruction

section
variable {s s' : State} (h : Alike s s') {p1 p2 : Param} (h1 : p1.admissible = true)
  (h2 : p2.admissible = true)
include h h1

theorem Alike.branch {taken taken' : Bool} (ht : taken = taken') :
    ResAlike Alike (branch taken p1 s) (branch taken' p1 s') := by
  subst ht
  unfold Machine.branch
  split
  · rw [h.value h1]
    exact (ResAlike.rfl_of (R := (· = ·)) (fun _ => rfl) _).andThen fun a b hab =>
      hab ▸ h.setPc _
  · exact h

theorem Alike.popCopy : ResAlike Alike (popCopy p1 s) (popCopy p1 s') := by
  refine (h.locateRoot (p := stackHead) rfl).andThen fun ⟨L, s1⟩ ⟨_, s1'⟩ ⟨⟨hL, e1⟩, nL⟩ => ?_
  cases hL
  refine (e1.locateRoot h1).andThen fun ⟨D, s2⟩ ⟨_, s2'⟩ ⟨⟨hD, e2⟩, nD⟩ => ?_
  cases hD
  refine (e2.rd nL).andThen fun ⟨v, s3⟩ ⟨_, s3'⟩ ⟨hv, e3⟩ => ?_
  cases hv
  exact e3.wr nD v

theorem Alike.execNot {o2 : Option Param} (ho : ∀ p, o2 = some p → p.admissible = true) :
    ResAlike Alike (execNot p1 o2 s) (execNot p1 o2 s') := by
  refine ResAlike.checkShape <| ResAlike.checkWritable <| (h.locateRoot h1).andThen
    fun ⟨A, s1⟩ ⟨_, s1'⟩ ⟨⟨hA, e1⟩, nA⟩ => ?_
  cases hA
  have hignored : ResAlike Alike (locateIgnored o2 s1) (locateIgnored o2 s1') := by
    cases o2 with
    | none => exact e1
    | some p => exact (e1.locateRoot (ho p rfl)).andThen fun _ _ hB => hB.1.2
  refine hignored.andThen fun s2 s2' e2 => (e2.rd nA).andThen fun ⟨a, s3⟩ ⟨_, s3'⟩ ⟨ha, e3⟩ => ?_
  cases ha
  exact (e3.wr nA _).andThen fun _ _ e => e.setFlags _

include h2

theorem Alike.readOperands :
    ResAlike OperandsAlike (readOperands p1 p2 s) (readOperands p1 p2 s') := by
  refine (h.locateRoot h1).andThen fun ⟨A, s1⟩ ⟨_, s1'⟩ ⟨⟨hA, e1⟩, nA⟩ => ?_
  cases hA
  refine (e1.locateRoot h2).andThen fun ⟨B, s2⟩ ⟨_, s2'⟩ ⟨⟨hB, e2⟩, nB⟩ => ?_
  cases hB
  refine (e2.rd nA).andThen fun ⟨a, s3⟩ ⟨_, s3'⟩ ⟨ha, e3⟩ => ?_
  cases ha
  refine (e3.rd nB).andThen fun ⟨b, s4⟩ ⟨_, s4'⟩ ⟨hb, e4⟩ => ?_
  cases hb
  exact ⟨nA, s4', rfl, e4⟩

theorem Alike.trackedOp (W : Word → Word → Int) :
    ResAlike Alike (trackedOp W p1 p2 s) (trackedOp W p1 p2 s') := by
  refine ResAlike.checkWritable <| (h.readOperands h1 h2).andThen ?_
  rintro o _ ⟨nA, s1', rfl, e⟩
  exact (e.wr nA _).andThen fun _ _ e => (e.writeOvf _).setFlags _

theorem Alike.divideOp (W : Word → Word → Int) :
    ResAlike Alike (divideOp W p1 p2 s) (divideOp W p1 p2 s') := by
  refine ResAlike.checkWritable <| (h.readOperands h1 h2).andThen ?_
  rintro o _ ⟨nA, s1', rfl, e⟩
  dsimp only
  split
  · exact e.setFlags fDivZero
  · exact (e.wr nA _).andThen fun _ _ e => (e.writeOvf _).setFlags _

theorem Alike.plainOp (f : Word → Word → Word) :
    ResAlike Alike (plainOp f p1 p2 s) (plainOp f p1 p2 s') := by
  refine ResAlike.checkWritable <| (h.readOperands h1 h2).andThen ?_
  rintro o _ ⟨nA, s1', rfl, e⟩
  exact (e.wr nA _).andThen fun _ _ e => e.setFlags _

theorem Alike.execCmp : ResAlike Alike (execCmp p1 p2 s) (execCmp p1 p2 s') := by
  refine ResAlike.checkShape <| (h.readOperands h1 h2).andThen ?_
  rintro o _ ⟨-, s1', rfl, e⟩
  exact (e.unsetFlags cmpClearMask).setFlags _

theorem Alike.execMov : ResAlike Alike (execMov p1 p2 s) (execMov p1 p2 s') := by
  refine ResAlike.checkShape <| ResAlike.checkWritable <| (h.locateRoot h1).andThen
    fun ⟨D, s1⟩ ⟨_, s1'⟩ ⟨⟨hD, e1⟩, nD⟩ => ?_
  cases hD
  refine (e1.locateRoot h2).andThen fun ⟨S, s2⟩ ⟨_, s2'⟩ ⟨⟨hS, e2⟩, nS⟩ => ?_
  cases hS
  refine (e2.rd nS).andThen fun ⟨v, s3⟩ ⟨_, s3'⟩ ⟨hv, e3⟩ => ?_
  cases hv
  exact e3.wr nD v

end

theorem Alike.issueAdd {s s' : State} (h : Alike s s') : ResAlike Alike (issueAdd s) (issueAdd s') :=
  h.dispatchRun fun _ _ e => ResAlike.checkShape (e.trackedOp rfl rfl wideAdd)

theorem Alike.issueSub {s s' : State} (h : Alike s s') : ResAlike Alike (issueSub s) (issueSub s') :=
  h.dispatchRun fun _ _ e => ResAlike.checkShape (e.trackedOp rfl rfl wideSub)

theorem Alike.execPush {s s' : State} (h : Alike s s') {p1 : Param} (h1 : p1.admissible = true) :
    ResAlike Alike (execPush p1 s) (execPush p1 s') := by
  refine ResAlike.checkShape <| (h.locateRoot h1).andThen
    fun ⟨V, s1⟩ ⟨_, s1'⟩ ⟨⟨hV, e1⟩, nV⟩ => ?_
  cases hV
  refine (e1.rd nV).andThen fun ⟨v, s2⟩ ⟨_, s2'⟩ ⟨hv, e2⟩ => ?_
  cases hv
  refine (e2.locateRoot (p := stackHead) rfl).andThen fun ⟨L, s3⟩ ⟨_, s3'⟩ ⟨⟨hL, e3⟩, nL⟩ => ?_
  cases hL
  exact (e3.wr nL v).andThen fun _ _ e => e.issueAdd

theorem Alike.execPop {s s' : State} (h : Alike s s') {p1 : Option Param}
    (h1 : ∀ p, p1 = some p → p.admissible = true) :
    ResAlike Alike (execPop p1 s) (execPop p1 s') := by
  have hbody : ResAlike Alike (popBody p1 s) (popBody p1 s') := by
    unfold popBody
    rw [h.sp]
    split
    · exact h.setFlags fSeg
    · refine h.issueSub.andThen fun s1 s1' e => ?_
      cases p1 with
      | none => exact e
      | some p => exact e.popCopy (h1 p rfl)
  cases p1 with
  | none => exact ResAlike.checkShape hbody
  | some p => exact ResAlike.checkShape (ResAlike.checkWritable hbody)

/-- A well-formed instruction reads no flag but EQUAL and LESS (R18, R181). -/
theorem Alike.exec {s s' : State} (h : Alike s s') {i : Instr} (hwf : i.WellFormed) :
    ResAlike Alike (exec i s) (exec i s') := by
  have h1 : ∀ p, i.p1? = some p → p.admissible = true := fun p hp =>
    admissible_of_wellFormed hwf (Instr.p1_mem_operands hp)
  have h2 : ∀ p, i.p2? = some p → p.admissible = true := fun p hp =>
    admissible_of_wellFormed hwf (Instr.p2_mem_operands hp)
  cases i
  case nop => exact h
  case mov p1 p2 => exact h.execMov (h1 p1 rfl) (h2 p2 rfl)
  case push p1 => exact h.execPush (h1 p1 rfl)
  case pop p1 => exact h.execPop h1
  case not p1 o2 => exact h.execNot (h1 p1 rfl) h2
  case cmp p1 p2 => exact h.execCmp (h1 p1 rfl) (h2 p2 rfl)
  case add p1 p2 | sub p1 p2 | umul p1 p2 | smul p1 p2 =>
    exact ResAlike.checkShape (h.trackedOp (h1 p1 rfl) (h2 p2 rfl) _)
  case udiv p1 p2 | sdiv p1 p2 =>
    exact ResAlike.checkShape (h.divideOp (h1 p1 rfl) (h2 p2 rfl) _)
  case and p1 p2 | or p1 p2 | xor p1 p2 | shl p1 p2 | shr p1 p2 =>
    exact ResAlike.checkShape (h.plainOp (h1 p1 rfl) (h2 p2 rfl) _)
  case jmp p | jeq p | jne p | jlt p | jle p | jgt p | jge p =>
    rw [exec_branch rfl rfl, exec_branch rfl rfl, h.getLsbD (n := 3) rfl, h.getLsbD (n := 4) rfl]
    exact ResAlike.checkShape (h.branch (h1 p rfl) rfl)

/-! ## The tick -/

theorem Alike.fetch {s s' : State} (h : Alike s s') : fetch s' = fetch s := by
  obtain ⟨f, rfl, -⟩ := h
  rfl

theorem Alike.noteIllegal {s s' : State} (h : Alike s s') (i : Instr) :
    Alike (noteIllegal i s) (noteIllegal i s') := by
  unfold Machine.noteIllegal
  split
  · exact h.setFlags fIllegal
  · exact h

theorem Alike.advancePc {s s' : State} (h : Alike s s') : Alike (advancePc s) (advancePc s') := by
  obtain ⟨f, rfl, hf⟩ := h
  exact ⟨f, rfl, hf⟩

/-- States that are alike tick alike. -/
theorem Alike.step {s s' : State} (h : Alike s s') : ResAlike Alike (step s) (step s') := by
  cases hi : Machine.fetch s with
  | next i =>
    rw [step_of_fetch hi, step_of_fetch (h.fetch.trans hi)]
    exact ((h.noteIllegal i).dispatchRun fun _ _ e => e.exec (fetch_wellFormed hi)).andThen
      fun _ _ e => e.advancePc
  | fault f =>
    rw [Machine.step, Machine.step, onTick, onTick, h.fetch, hi]
    exact Eq.refl f
  | refused e =>
    rw [Machine.step, Machine.step, onTick, onTick, h.fetch, hi]
    exact Eq.refl e

end Sys2Proof.Machine

namespace Sys2Proof.Proofs

open Sys2Proof.Machine

/-- Settles O12: the two states are alike, and so are the states after the tick. -/
theorem unreadFlagsNeverMatter : Obligations.UnreadFlagsNeverMatter := by
  intro s t m hm h
  have halike : Alike s { s with flags := s.flags ^^^ m } := by
    refine ⟨_, rfl, ?_⟩
    calc (s.flags ^^^ m) &&& 0x0018
      _ = s.flags &&& 0x0018 ^^^ m &&& 0x0018 := by ext i hi; simp [Bool.and_xor_distrib_right]
      _ = s.flags &&& 0x0018 := by rw [hm]; exact BitVec.xor_zero
  have hstep := halike.step
  rw [h] at hstep
  obtain ⟨t', ht', f, rfl, hf⟩ := hstep.exists_next
  exact ⟨_, ht', rfl, hf⟩

end Sys2Proof.Proofs
end

section
/-! PROOFS. `mov` (R122): on clean operands it copies a word; from or to a MemoryLocation it makes the one
access that the route of the address leads to, whatever that comes to. -/

namespace Sys2Proof.Machine

/-! ## Operands of a state with other flags -/

/-- The word of an admissible operand depends on the nameable registers, the map and the units. -/
theorem State.operand_congr {s t : State} (hx : t.x = s.x) (hsp : t.sp = s.sp) (hmap : t.map = s.map)
    (hunits : t.units = s.units) {p : Param} (hp : p.admissible = true) :
    t.operand? p = s.operand? p := by
  have haddress : address t p = address s p := value_congr hx hsp p hp
  have hword : ∀ u addr, t.ramWord? u addr = s.ramWord? u addr := fun u addr => by
    rw [State.ramWord?, State.ramWord?, hunits]
  cases p with
  | const c => rfl
  | reg r => exact congrArg some (State.readReg_congr hp hx hsp)
  | regRef n => rfl
  | memC a | memAbs q | memRel t0 rest => simp only [State.operand?, haddress, hmap, hword]

/-- Locating an address is seen by no operand of a well-formed instruction. -/
theorem State.operand_locateAt (s : State) (n : Node) (a : Int) {p : Param}
    (hp : p.admissible = true) : (locateAt n a s).2.operand? p = s.operand? p := by
  unfold locateAt
  split
  · rfl
  · rfl
  · exact State.operand_congr (by rfl) (by rfl) (by rfl) (by rfl) hp

/-- A MemoryLocation that has an address is located at that address, from the root (R56). -/
theorem locateRoot_of_address {p : Param} {s : State} {a : Int} (hp : p.isMem = true)
    (ha : address s p = .next a) : locateRoot p s = .next (locateAt s.map a s) :=
  locate_of_address hp ha s.map

theorem isConst_of_isMem {p : Param} (h : p.isMem = true) : p.isConst = false := by
  cases p
  case const => cases h
  all_goals rfl

/-- Parameter-2 of a well-formed instruction is admissible (R18). -/
theorem admissible_p2 {i : Instr} (h : i.WellFormed) {p : Param} (hp : i.p2? = some p) :
    p.admissible = true := admissible_of_wellFormed h (Instr.p2_mem_operands hp)

/-! ## `mov` -/

/-- What a `mov` does on clean operands (R122). -/
theorem execMov_clean {p1 p2 : Param} {s : State} {v : Word} {d : Place}
    (hwf : (Instr.mov p1 p2).WellFormed) (hv : s.operand? p2 = some v) (hd : s.place? p1 = some d) :
    execMov p1 p2 s = .next (s.store d v) := by
  obtain ⟨D, hD, hw⟩ := locateRoot_of_place hd
  obtain ⟨S, hS, hr⟩ := locateRoot_of_operand hv
  simp only [execMov, checkShape_wf hwf, checkWritable_ok (isConst_of_place hd), hD, hS, hr, hw,
    andThen_next]

/-- A `mov` from memory to a register hands over what the access along the route answers. -/
theorem execMov_from_mem {r : RegName} {p : Param} {s : State} {a : Int}
    (hwf : (Instr.mov (.reg r) p).WellFormed) (hp : p.isMem = true) (ha : address s p = .next a) :
    execMov (.reg r) p s = .next ((readRoute (s.map.route .read a) s).2.writeReg r
      (readRoute (s.map.route .read a) s).1) := by
  have hD : locateRoot (.reg r) s = .next (.reg r, s) := rfl
  simp only [execMov, checkShape_wf hwf, checkWritable_ok (show (Param.reg r).isConst = false from rfl),
    hD, locateRoot_of_address hp ha, rd_locateAt, andThen_next, wr]

/-- A `mov` of a clean word to memory makes the access along the route. -/
theorem execMov_to_mem {p1 p2 : Param} {s : State} {v : Word} {a : Int}
    (hwf : (Instr.mov p1 p2).WellFormed) (hv : s.operand? p2 = some v) (hp : p1.isMem = true)
    (ha : address s p1 = .next a) :
    execMov p1 p2 s = .next (writeRoute (s.map.route .write a) v s) := by
  rw [← State.operand_locateAt s s.map a (admissible_p2 hwf rfl)] at hv
  obtain ⟨S, hS, hr⟩ := locateRoot_of_operand hv
  simp only [execMov, checkShape_wf hwf, checkWritable_ok (isConst_of_isMem hp),
    locateRoot_of_address hp ha, hS, hr, wr_locateAt, andThen_next]

/-- A read that ends nowhere hands over the next free value (R57). -/
theorem readRoute_miss (m : Bool) (s : State) : readRoute (.miss m) s =
    (Config.unresolvedReadValue s.draws,
      { s with flags := s.flags ||| missFlags m, draws := s.draws + 1 }) := by
  refine Prod.ext ?_ ?_
  · cases m <;> rfl
  · rw [← readRoute_miss_flags]
    cases m <;> rfl

/-- Behind the one registrant that accepts, an access that its capability forbids ends there (R54). -/
theorem Node.route_of_forbidden {n : Node} {a : Int} {g : Registrant} {k : Access}
    (h : n.acceptors a = [g]) (hk : g.cap.permits k = false) : n.route k a = .miss false := by
  simp [Node.route_eq, h, Registrant.route, hk]

/-- A read of a peripheral inside its bounds is one access of it (R41, R59). -/
theorem State.memRead_peripheral {s : State} {u size device st : Nat} {addr : Int}
    (hu : s.units[u]? = some (.peripheral size device st)) (h0 : 0 ≤ addr) (h1 : addr + 1 < size) :
    s.memRead u addr = ((Config.peripheralRead device st addr.toNat).1,
      s.setUnit u (.peripheral size device (Config.peripheralRead device st addr.toNat).2)) := by
  have hb : (HwUnit.peripheral size device st).inBounds addr = true :=
    HwUnit.inBounds_iff.mpr ⟨h0, h1⟩
  simp only [State.memRead, hu, hb, if_true]

/-- A write of a peripheral inside its bounds is one access of it (R42, R59). -/
theorem State.memWrite_peripheral {s : State} {u size device st : Nat} {addr : Int}
    (hu : s.units[u]? = some (.peripheral size device st)) (h0 : 0 ≤ addr) (h1 : addr + 1 < size)
    (v : Word) : s.memWrite u addr v =
      s.setUnit u (.peripheral size device (Config.peripheralWrite device st addr.toNat v)) := by
  have hb : (HwUnit.peripheral size device st).inBounds addr = true :=
    HwUnit.inBounds_iff.mpr ⟨h0, h1⟩
  simp only [State.memWrite, hu, hb, if_true]

end Sys2Proof.Machine

namespace Sys2Proof.Proofs

open Sys2Proof.Machine

/-- Settles O20: clean operands are located and accessed with nothing changed. -/
theorem movCopiesWord : Obligations.MovCopiesWord :=
  fun _ _ _ _ _ hwf hv hd => execMov_clean hwf hv hd

/-- Settles O21: in each case the route of the read ends nowhere. -/
theorem failedReadHandsOverFreeValue : Obligations.FailedReadHandsOverFreeValue := by
  intro s r p a hwf hp ha
  have hmiss : ∀ m, s.map.route .read a = .miss m → exec (.mov (.reg r) p) s =
      .next (({ s with flags := s.flags ||| missFlags m, draws := s.draws + 1 }).writeReg r
        (Config.unresolvedReadValue s.draws)) := fun m hm => by
    have h := execMov_from_mem hwf hp ha
    rwa [hm, readRoute_miss] at h
  exact ⟨fun h0 => hmiss false (Node.route_of_absent h0 .read),
    fun h2 => hmiss true (Node.route_of_ambiguous h2 .read),
    fun g hg hcap => hmiss false (Node.route_of_forbidden hg (by rw [hcap]; rfl))⟩

/-- Settles O22: in each case the route of the write ends nowhere. -/
theorem failedWriteStoresNothing : Obligations.FailedWriteStoresNothing := by
  intro s p1 p2 v a hwf hv hp ha
  have hmiss : ∀ m, s.map.route .write a = .miss m →
      exec (.mov p1 p2) s = .next (s.setFlags (missFlags m)) := fun m hm => by
    have h := execMov_to_mem hwf hv hp ha
    rwa [hm, writeRoute_miss] at h
  exact ⟨fun h0 => hmiss false (Node.route_of_absent h0 .write),
    fun h2 => hmiss true (Node.route_of_ambiguous h2 .write),
    fun g hg hcap => hmiss false (Node.route_of_forbidden hg (by rw [hcap]; rfl))⟩

/-- Settles O23: the route ends at the peripheral, and the access there is the only one. -/
theorem peripheralsAreAccessedOnce : Obligations.PeripheralsAreAccessedOnce := by
  intro s p a addr u size device st hp ha hu h0 h1
  refine ⟨fun r hwf hroute => ?read, fun p2 v hwf hv hroute => ?write⟩
  case read =>
    have h := execMov_from_mem hwf hp ha
    rwa [hroute, readRoute, State.memRead_peripheral hu h0 h1] at h
  case write =>
    have h := execMov_to_mem hwf hv hp ha
    rwa [hroute, writeRoute, State.memWrite_peripheral hu h0 h1] at h

end Sys2Proof.Proofs
end

section
/-! PROOFS. Words in a RAM (R41, R42) and the stack (R124, R126, R128): a stored word lies low byte first and
reads back, and with the wiring a `pop` undoes a `push`. -/

namespace Sys2Proof.Machine

/-! ## A word in a RAM (R41, R42) -/

/-- A word written inside a RAM replaces that unit's bytes. -/
theorem State.memWrite_ram {s : State} {u size a : Nat} {mem : Memory}
    (hu : s.units[u]? = some (.ram size mem)) (ha : a + 1 < size) (v : Word) :
    s.memWrite u (a : Int) v = s.setUnit u (.ram size (mem.writeWord a v)) := by
  have hb : (HwUnit.ram size mem).inBounds (a : Int) = true :=
    HwUnit.inBounds_iff.mpr ⟨by omega, by simp only [HwUnit.size]; omega⟩
  simp only [State.memWrite, hu, hb, if_true, Int.toNat_natCast]

/-- The low byte of a written word (R42). -/
theorem Memory.read_writeWord_low {m : Memory} (h : m.wf = true) (a : Nat) (v : Word) :
    (m.writeWord a v).read a = v.extractLsb' 0 8 := by
  rw [Memory.writeWord, Memory.read_write_ne (by omega), Memory.read_write_same h]

/-- The high byte of a written word (R42). -/
theorem Memory.read_writeWord_high {m : Memory} (h : m.wf = true) (a : Nat) (v : Word) :
    (m.writeWord a v).read (a + 1) = v.extractLsb' 8 8 := by
  rw [Memory.writeWord, Memory.read_write_same (Memory.wf_write h _ _)]

/-- A RAM word is a word of a RAM, inside it. -/
theorem State.exists_of_ramWord {s : State} {u : Nat} {addr : Int}
    (h : (s.ramWord? u addr).isSome = true) :
    ∃ size mem a, s.units[u]? = some (.ram size mem) ∧ addr = (a : Nat) ∧ a + 1 < size := by
  unfold State.ramWord? at h
  split at h
  · rename_i size mem hu
    split at h
    · rename_i hb
      rw [HwUnit.inBounds_iff, HwUnit.size] at hb
      exact ⟨size, mem, addr.toNat, hu, by omega, by omega⟩
    · cases h
  · cases h
  · cases h

/-- The word of a RAM that a unit number names. -/
theorem State.ramWord_of_ram {s : State} {u size a : Nat} {mem : Memory}
    (hu : s.units[u]? = some (.ram size mem)) (ha : a + 1 < size) :
    s.ramWord? u (a : Int) = some (mem.readWord a) := by
  have hb : (HwUnit.ram size mem).inBounds (a : Int) = true :=
    HwUnit.inBounds_iff.mpr ⟨by omega, by simp only [HwUnit.size]; omega⟩
  simp only [State.ramWord?, hu, hb, if_true, Int.toNat_natCast]

/-- A word written to a RAM reads back. -/
theorem State.ramWord_memWrite {s : State} {u size a : Nat} {mem : Memory}
    (hu : s.units[u]? = some (.ram size mem)) (hwf : mem.wf = true) (ha : a + 1 < size) (v : Word) :
    (s.memWrite u (a : Int) v).ramWord? u (a : Int) = some v := by
  rw [State.memWrite_ram hu ha, State.ramWord_of_ram (State.getElem?_setUnit hu) ha,
    Memory.readWord_writeWord hwf]

/-- In a state that meets the invariant the RAMs are in canonical form. -/
theorem State.Inv.ram_wf {s : State} (h : s.Inv) {u size : Nat} {mem : Memory}
    (hu : s.units[u]? = some (.ram size mem)) : mem.wf = true := by
  have hunit := h.units_wf _ (List.mem_of_getElem? hu)
  rw [HwUnit.wf, Bool.and_eq_true] at hunit
  exact hunit.1

/-! ## The stack pointer (R124, R126) -/

/-- What a write of memory leaves of the fields that the stack uses. -/
theorem State.memWrite_effect (s : State) (u a : Nat) (v : Word) :
    Effect (some (u, a)) s (s.memWrite u (a : Int) v) := by
  simpa using Effect.memWrite s u (a : Int) v

/-- The place of a MemoryLocation is a word of a RAM. -/
theorem exists_ram_of_place {s : State} {p : Param} {d : Place} (hp : p.isMem = true)
    (h : s.place? p = some d) : ∃ u a, d = .ram u a := by
  cases p
  case const | reg | regRef => cases hp
  all_goals
    unfold State.place? at h
    dsimp only at h
    repeat' split at h
    all_goals cases h
    exact ⟨_, _, rfl⟩

/-- The issued `add` of a `push`, by the fields that it writes; ZERO is not among its flags (R124). -/
theorem pushedPointer_eq {s s' : State} (hsp : s'.sp = s.sp) (hovf : s'.ovfReg = s.ovfReg) :
    pushedPointer s' = (({ s' with sp := s.sp + 2 }).writeReg (.gpr s.ovfReg)
      (if 0xFFFE ≤ s.sp.toNat then 1 else 0)).setFlags
      (if 0xFFFE ≤ s.sp.toNat then 0x0001 else 0) := by
  have hflags : trackedFlags (s.sp + 2) (if 0xFFFE ≤ s.sp.toNat then 1 else 0) =
      if 0xFFFE ≤ s.sp.toNat then 0x0001 else 0 := by
    split
    · simp [trackedFlags, fOverflow]
    · rename_i hw
      have hne : s.sp + 2 ≠ 0 := fun h => by
        have := congrArg BitVec.toNat h
        simp [BitVec.toNat_add] at this
        omega
      rw [trackedFlags, if_neg (not_not.mpr rfl), if_neg fun h => hne h.1]
      rfl
  rw [pushedPointer, trackedResult, hsp, hflags, ← hovf]
  rfl

/-- The issued `sub` of a `pop`, by the fields that it writes (R126). -/
theorem poppedPointer_eq (s : State) : poppedPointer s =
    (({ s with sp := s.sp - 2 }).writeReg (.gpr s.ovfReg) 0).setFlags
      (if s.sp = 2 then 0x0002 else 0) := by
  have hflags : trackedFlags (s.sp - 2) 0 = if s.sp = 2 then 0x0002 else 0 := by
    have hzero : s.sp - 2 = 0 ↔ s.sp = 2 := sub_eq_zero
    rw [trackedFlags, if_neg (not_not.mpr rfl)]
    simp only [hzero, and_true]
    split <;> rfl
  rw [poppedPointer, trackedResult, hflags]
  rfl

/-! ## `push` (R124) -/

/-- What a `push` of a clean word does once the store through `[sp]` answers. -/
theorem execPush_of_wr {p : Param} {s s' : State} {v : Word} {L : Accessor × State} (hw : s.Wired)
    (hwf : (Instr.push p).WellFormed) (hv : s.operand? p = some v)
    (hL : locateRoot stackHead s = .next L) (hstore : wr L.1 v L.2 = .next s') :
    execPush p s = .next (pushedPointer s') := by
  obtain ⟨V, hV, hr⟩ := locateRoot_of_operand hv
  have hregistry := (stored_of_wr hL (Effect.locateRoot hL) hstore).registry
  simp only [execPush, checkShape_wf hwf, hV, hr, hL, hstore, andThen_next,
    issueAdd_wired (hw.congr hregistry)]

/-- What a `push` does when `[sp]` names a place. -/
theorem execPush_clean {p : Param} {s : State} {v : Word} {d : Place} (hw : s.Wired)
    (hwf : (Instr.push p).WellFormed) (hv : s.operand? p = some v)
    (hd : s.place? stackHead = some d) : execPush p s = .next (pushedPointer (s.store d v)) := by
  obtain ⟨L, hL, hstore⟩ := locateRoot_of_place hd
  exact execPush_of_wr hw hwf hv hL (hstore v)

/-- What a `push` does when no registrant accepts `[sp]`. -/
theorem execPush_absent {p : Param} {s : State} {v : Word} (hw : s.Wired)
    (hwf : (Instr.push p).WellFormed) (hv : s.operand? p = some v)
    (h0 : s.map.acceptors (s.sp.toNat : Int) = []) :
    execPush p s = .next (pushedPointer s.failWrite) := by
  have hL : locateRoot stackHead s = .next (.unresolved, s) := by
    rw [locateRoot_of_address (p := stackHead) rfl rfl]
    exact congrArg _ (locateAt_of_absent h0 s)
  exact execPush_of_wr hw hwf hv hL rfl

/-! ## `pop` (R126) -/

/-- What a `pop` to a clean destination does after the issued `sub`. -/
theorem popCopy_clean {p : Param} {s : State} {v : Word} {d : Place}
    (hv : s.operand? stackHead = some v) (hd : s.place? p = some d) :
    popCopy p s = .next (s.store d v) := by
  obtain ⟨L, hL, hr⟩ := locateRoot_of_operand hv
  obtain ⟨D, hD, hw⟩ := locateRoot_of_place hd
  simp only [popCopy, hL, hD, hr, hw, andThen_next]

/-- A well-formed `pop` that writes no Constant passes its checks. -/
theorem execPop_eq_popBody {p1 : Option Param} (hwf : (Instr.pop p1).WellFormed)
    (hw : (Instr.pop p1).writable = true) (s : State) : execPop p1 s = popBody p1 s := by
  cases p1 with
  | none => exact checkShape_wf hwf _
  | some p =>
    have hc : p.isConst = false := by
      simpa [Instr.writable, Instr.kind, Kind.writesP1, Instr.p1?] using hw
    exact (checkShape_wf hwf _).trans (checkWritable_ok hc _)

theorem writable_of_place {s : State} {p : Param} {d : Place} (h : s.place? p = some d) :
    (Instr.pop (some p)).writable = true := by
  simp [Instr.writable, Instr.p1?, isConst_of_place h]

/-- What a `pop` to a clean destination does, with the wiring (R126). -/
theorem execPop_clean {p : Param} {s : State} {v : Word} {d : Place} (hw : s.Wired)
    (hsp : 2 ≤ s.sp.toNat) (hwf : (Instr.pop (some p)).WellFormed)
    (hv : (poppedPointer s).operand? stackHead = some v) (hd : (poppedPointer s).place? p = some d) :
    execPop (some p) s = .next ((poppedPointer s).store d v) := by
  rw [execPop_eq_popBody hwf (writable_of_place hd), popBody_wired hw, if_neg (by omega)]
  exact popCopy_clean hv hd

/-! ## `push` and then `pop` (R128) -/

/-- What `[sp]` reads as, when the route of `sp` reaches a word of a RAM. -/
theorem operand_stackHead {s : State} {u : Nat} {addr : Int} {w : Word}
    (hroute : s.map.route .read (s.sp.toNat : Int) = .hit u addr) (hw : s.ramWord? u addr = some w) :
    s.operand? stackHead = some w := by
  simp [State.operand?, stackHead, address, value, hroute, hw]

/-- The place that `[sp]` names, when the route of `sp` reaches a word of a RAM. -/
theorem place_stackHead {s : State} {u : Nat} {addr : Int}
    (hroute : s.map.route .write (s.sp.toNat : Int) = .hit u addr)
    (hw : (s.ramWord? u addr).isSome = true) : s.place? stackHead = some (.ram u addr.toNat) := by
  simp [State.place?, stackHead, address, value, hroute, hw]

end Sys2Proof.Machine

namespace Sys2Proof.Proofs

open Sys2Proof.Machine

/-- Settles O52: the two bytes of the word, the bytes outside it, and the word read back. -/
theorem memWriteStoresBothBytes : Obligations.MemWriteStoresBothBytes := by
  rintro s _ u size mem a v hu hwf ha rfl
  have hbytes : ∀ a', (s.memWrite u (a : Int) v).byteAt u a' =
      if a' < size then some ((mem.writeWord a v).read a') else none := fun a' => by
    rw [State.memWrite_ram hu ha, State.byteAt_ram (State.getElem?_setUnit hu)]
  refine ⟨?low, ?high, fun u' a' hne => ?others, ?readBack⟩
  case low => rw [hbytes, if_pos (by omega), Memory.read_writeWord_low hwf]
  case high => rw [hbytes, if_pos ha, Memory.read_writeWord_high hwf]
  case others =>
    refine (State.memWrite_effect s u a v).bytes u' a' ?_
    rintro ⟨_, _, ⟨⟩, rfl, h⟩
    exact hne ⟨rfl, h⟩
  case readBack => exact State.memRead_of_ramWord (State.ramWord_memWrite hu hwf ha v)

/-- Settles O24: the store through `[sp]`, which answers also when it is unmapped, and the issued `add`. -/
theorem pushStoresThenAdvances : Obligations.PushStoresThenAdvances := by
  intro s p v hw hwf hv
  refine ⟨fun d hd => ?place, fun h0 => ?absent⟩
  case place =>
    obtain ⟨u, a, rfl⟩ := exists_ram_of_place rfl hd
    have heffect : Effect _ s (s.store (.ram u a) v) := State.memWrite_effect s u a v
    have hpush := execPush_clean hw hwf hv hd
    rw [pushedPointer_eq heffect.sp heffect.ovfReg] at hpush
    exact hpush
  case absent =>
    have hpush := execPush_absent hw hwf hv h0
    rw [pushedPointer_eq (s := s) (s' := s.failWrite) rfl rfl] at hpush
    have hflags := fun w => State.setFlags_setFlags
      (({ s with sp := s.sp + 2 } : State).writeReg (.gpr s.ovfReg) w) fSeg
    refine hpush.trans (congrArg _ ?_)
    split
    · exact hflags 1 0x0001
    · exact hflags 0 0

/-- Settles O25: the check of `sp`, the issued `sub`, and the copy evaluated after it. -/
theorem popRetreatsThenCopies : Obligations.PopRetreatsThenCopies := by
  intro s
  refine ⟨fun p1 hwf hwr hsp => ?low, fun hw hsp => ?noDestination, fun p v d s1 hw hsp hwf hs1 hv hd =>
    ?destination⟩
  case low =>
    refine (execPop_eq_popBody hwf hwr s).trans ?_
    rw [popBody, if_pos hsp]
    rfl
  case noDestination =>
    refine (execPop_eq_popBody rfl rfl s).trans ?_
    rw [popBody_wired hw, if_neg (by omega), poppedPointer_eq]
  case destination =>
    rw [← poppedPointer_eq] at hs1
    subst hs1
    exact execPop_clean hw hsp hwf hv hd

/-- Settles O26: the `sub` undoes the `add`, and the word at the old `sp` is the one pushed. -/
theorem pushThenPopRestores : Obligations.PushThenPopRestores := by
  intro s p v g u addr hinv hw hwf hv hsp hwrite hread hram
  obtain ⟨size, mem, a, hu, rfl, ha⟩ := State.exists_of_ramWord hram
  have heffect := State.memWrite_effect s u a v
  have hread' := State.ramWord_memWrite hu (hinv.ram_wf hu) ha v
  have hpush : exec (.push p) s = .next (pushedPointer (s.memWrite u (a : Int) v)) :=
    execPush_clean hw hwf hv (place_stackHead hwrite hram)
  generalize s.memWrite u (a : Int) v = s' at heffect hread' hpush
  have hpushed : (pushedPointer s').sp = s.sp + 2 := congrArg (· + 2) heffect.sp
  have hpopped : (poppedPointer (pushedPointer s')).sp = s.sp := by
    calc (pushedPointer s').sp - 2
      _ = s.sp + 2 - 2 := by rw [hpushed]
      _ = s.sp := add_sub_cancel_right _ _
  have hhead : (poppedPointer (pushedPointer s')).operand? stackHead = some v := by
    refine operand_stackHead (u := u) (addr := (a : Int)) ?_ hread'
    rw [hpopped, ← hread]
    exact congrArg (·.route .read (s.sp.toNat : Int)) heffect.map
  have hpop := execPop_clean (p := .reg (.gpr g)) (d := .reg (.gpr g))
    (hw.congr (t := pushedPointer s') heffect.registry)
    (by rw [hpushed, BitVec.toNat_add]; simp; omega) rfl hhead rfl
  refine ⟨_, _, hpush, hpop, State.readReg_writeReg_same (poppedPointer _) (.gpr g) v, hpopped,
    fun g' hg hovf => ?_⟩
  have hovf' : g' ≠ s'.ovfReg := by rwa [heffect.ovfReg]
  calc ((poppedPointer (pushedPointer s')).writeReg (.gpr g) v).readReg (.gpr g')
    _ = (poppedPointer (pushedPointer s')).readReg (.gpr g') :=
      State.readReg_writeReg_ne _ (by simpa using hg) v
    _ = (pushedPointer s').readReg (.gpr g') := (Issued.trackedResult _ _ _ _).x g' hovf'
    _ = s'.readReg (.gpr g') := (Issued.trackedResult _ _ _ _).x g' hovf'
    _ = s.readReg (.gpr g') := State.readReg_congr rfl heffect.x heffect.sp

end Sys2Proof.Proofs
end

section
/-! PROOFS. Overflow-tracked arithmetic (R142 to R149): the two halves and the flags of each wide result, as
words, and what the instruction does with them on clean operands. -/

namespace Sys2Proof.Machine

/-! ## The shape on clean operands (R142) -/

/-- Storing a word leaves the number of the overflow register alone. -/
@[simp] theorem State.store_ovfReg (s : State) (d : Place) (v : Word) :
    (s.store d v).ovfReg = s.ovfReg := by
  cases d with
  | reg r => exact State.writeReg_ovfReg s r v
  | ram u a => exact (State.memWrite_effect s u a v).ovfReg

/-- The flags of a tracked result, by what makes the overflow word and both halves zero. -/
theorem trackedFlags_of_iff {lo hi : Word} {P Q : Prop} [Decidable P] [Decidable Q]
    (hP : hi ≠ 0 ↔ P) (hQ : lo = 0 ∧ hi = 0 ↔ Q) :
    trackedFlags lo hi = (if P then 0x0001 else 0) ||| (if Q then 0x0002 else 0) := by
  rw [trackedFlags, if_congr hP rfl rfl, if_congr hQ rfl rfl]
  rfl

/-- A tracked result in a place. -/
theorem trackedResult_store (s : State) (d : Place) (lo hi : Word) :
    trackedResult (s.store d lo) lo hi =
      ((s.store d lo).writeReg (.gpr s.ovfReg) hi).setFlags (trackedFlags lo hi) := by
  rw [trackedResult, State.writeOvf, State.store_ovfReg]

section
variable {W : Word → Word → Int} {p1 p2 : Param} {s : State} {a b lo hi fl : Word} {d : Place}
  (ha : s.operand? p1 = some a) (hb : s.operand? p2 = some b) (hd : s.place? p1 = some d)
  (hlo : lo16 (W a b) = lo) (hhi : hi16 (W a b) = hi) (hfl : trackedFlags lo hi = fl)
include ha hb hd hlo hhi hfl

/-- An overflow-tracked instruction on clean operands, by its halves and flags. -/
theorem trackedOp_of_halves : trackedOp W p1 p2 s =
    .next (((s.store d lo).writeReg (.gpr s.ovfReg) hi).setFlags fl) := by
  rw [trackedOp_clean ha hb hd, hlo, hhi, trackedResult_store, hfl]

/-- A division by a nonzero divisor on clean operands, by its halves and flags. -/
theorem divideOp_of_halves (hb0 : b ≠ 0) : divideOp W p1 p2 s =
    .next (((s.store d lo).writeReg (.gpr s.ovfReg) hi).setFlags fl) := by
  rw [divideOp_clean ha hb hb0 hd, hlo, hhi, trackedResult_store, hfl]

end

/-! ## The halves as words (R6) -/

theorem lo16_eq_ofInt (z : Int) : lo16 z = BitVec.ofInt 16 z := by
  apply word_ext
  rw [lo16_toNat, BitVec.toNat_ofInt]
  omega

theorem hi16_eq_ofInt (z : Int) : hi16 z = BitVec.ofInt 16 (z / 0x10000) := by
  apply word_ext
  rw [hi16_toNat, BitVec.toNat_ofInt]
  omega

theorem word_eq_zero_iff (v : Word) : v = 0 ↔ (v.toNat : Int) = 0 :=
  ⟨fun h => by rw [h]; rfl, fun h => word_ext h⟩

/-- Both halves are zero for the multiples of 2^32. -/
theorem halves_eq_zero_iff (z : Int) : lo16 z = 0 ∧ hi16 z = 0 ↔ z % 0x100000000 = 0 := by
  rw [word_eq_zero_iff, word_eq_zero_iff, lo16_toNat, hi16_toNat]
  omega

/-- Reading a word as signed is its two's-complement value (R6). -/
theorem sext16_eq_toInt (w : Word) : sext16 w = w.toInt := by
  rw [sext16, BitVec.toInt_eq_toNat_cond]
  split <;> split <;> omega

theorem toInt_bounds (w : Word) : -0x8000 ≤ w.toInt ∧ w.toInt < 0x8000 :=
  ⟨BitVec.le_toInt w, BitVec.toInt_lt⟩

theorem toInt_eq_zero_iff (w : Word) : w.toInt = 0 ↔ w = 0 :=
  ⟨fun h => BitVec.eq_of_toInt_eq h, fun h => by rw [h]; rfl⟩

theorem toNat_eq_zero_iff (w : Word) : w.toNat = 0 ↔ w = 0 :=
  ⟨fun h => BitVec.eq_of_toNat_eq h, fun h => by rw [h]; rfl⟩

/-! ## Sums and differences (R144, R145) -/

theorem trackedFlags_wideAdd (a b : Word) :
    trackedFlags (a + b) (if 0x10000 ≤ a.toNat + b.toNat then 1 else 0) =
      (if 0x10000 ≤ a.toNat + b.toNat then 0x0001 else 0) |||
        (if a = 0 ∧ b = 0 then 0x0002 else 0) := by
  refine trackedFlags_of_iff (by split <;> simp [*]) ?_
  rw [← hi16_wideAdd, ← lo16_wideAdd, halves_eq_zero_iff, wideAdd, ← toNat_eq_zero_iff a,
    ← toNat_eq_zero_iff b]
  omega

theorem trackedFlags_wideSub (a b : Word) :
    trackedFlags (a - b) (if a.toNat < b.toNat then 0xFFFF else 0) =
      (if a.toNat < b.toNat then 0x0001 else 0) ||| (if a = b then 0x0002 else 0) := by
  refine trackedFlags_of_iff (by split <;> simp [*]) ?_
  rw [← hi16_wideSub, ← lo16_wideSub, halves_eq_zero_iff, wideSub, ← BitVec.toNat_inj]
  omega

/-! ## Products (R146, R147) -/

/-- The product of two words is below 2^32. -/
theorem toNat_mul_toNat_lt (a b : Word) : a.toNat * b.toNat < 0x100000000 :=
  Nat.mul_lt_mul'' a.isLt b.isLt

theorem lo16_wideUmul (a b : Word) : lo16 (wideUmul a b) = a * b := by
  rw [lo16_eq_ofInt, wideUmul, BitVec.ofInt_mul, BitVec.ofInt_natCast, BitVec.ofInt_natCast,
    BitVec.ofNat_toNat, BitVec.ofNat_toNat, BitVec.setWidth_eq, BitVec.setWidth_eq]

theorem hi16_wideUmul (a b : Word) :
    hi16 (wideUmul a b) = BitVec.ofNat 16 (a.toNat * b.toNat / 0x10000) := by
  rw [hi16_eq_ofInt, wideUmul, ← BitVec.ofInt_natCast]
  push_cast
  rfl

theorem trackedFlags_wideUmul (a b : Word) :
    trackedFlags (a * b) (BitVec.ofNat 16 (a.toNat * b.toNat / 0x10000)) =
      (if 0x10000 ≤ a.toNat * b.toNat then 0x0001 else 0) |||
        (if a = 0 ∨ b = 0 then 0x0002 else 0) := by
  have hlt := toNat_mul_toNat_lt a b
  have hW : wideUmul a b = ((a.toNat * b.toNat : Nat) : Int) := by rw [wideUmul, Nat.cast_mul]
  rw [← hi16_wideUmul, ← lo16_wideUmul]
  refine trackedFlags_of_iff ?_ ?_
  · rw [ne_eq, word_eq_zero_iff, hi16_toNat, hW]
    omega
  · rw [halves_eq_zero_iff, hW, ← toNat_eq_zero_iff a, ← toNat_eq_zero_iff b, ← Nat.mul_eq_zero]
    omega

/-- The product of two signed words is at most 2^30 in size. -/
theorem toInt_mul_toInt_bounds (a b : Word) :
    -0x40000000 ≤ a.toInt * b.toInt ∧ a.toInt * b.toInt ≤ 0x40000000 := by
  have ha := toInt_bounds a
  have hb := toInt_bounds b
  have h : |a.toInt * b.toInt| ≤ 0x8000 * 0x8000 := by
    rw [abs_mul]
    exact mul_le_mul (abs_le.mpr ⟨ha.1, by omega⟩) (abs_le.mpr ⟨hb.1, by omega⟩) (abs_nonneg _)
      (by norm_num)
  exact abs_le.mp h

theorem wideSmul_eq (a b : Word) : wideSmul a b = a.toInt * b.toInt := by
  rw [wideSmul, sext16_eq_toInt, sext16_eq_toInt]

theorem lo16_wideSmul (a b : Word) : lo16 (wideSmul a b) = a * b := by
  rw [lo16_eq_ofInt, wideSmul_eq, BitVec.ofInt_mul, BitVec.ofInt_toInt, BitVec.ofInt_toInt]

theorem hi16_wideSmul (a b : Word) :
    hi16 (wideSmul a b) = BitVec.ofInt 16 (a.toInt * b.toInt / 0x10000) := by
  rw [hi16_eq_ofInt, wideSmul_eq]

theorem trackedFlags_wideSmul (a b : Word) :
    trackedFlags (a * b) (BitVec.ofInt 16 (a.toInt * b.toInt / 0x10000)) =
      (if a.toInt * b.toInt < 0 ∨ 0x10000 ≤ a.toInt * b.toInt then 0x0001 else 0) |||
        (if a = 0 ∨ b = 0 then 0x0002 else 0) := by
  have hbounds := toInt_mul_toInt_bounds a b
  rw [← hi16_wideSmul, ← lo16_wideSmul]
  refine trackedFlags_of_iff ?_ ?_
  · rw [ne_eq, word_eq_zero_iff, hi16_toNat, wideSmul_eq]
    omega
  · rw [halves_eq_zero_iff, wideSmul_eq, ← toInt_eq_zero_iff a, ← toInt_eq_zero_iff b,
      ← Int.mul_eq_zero]
    omega

/-! ## Quotients and remainders (R148, R149) -/

theorem lo16_wideUdiv (a b : Word) : lo16 (wideUdiv a b) = a / b := by
  rw [wideUdiv, lo16_packWide, u16, BitVec.ofInt_natCast, ← BitVec.toNat_udiv, BitVec.ofNat_toNat,
    BitVec.setWidth_eq]

theorem hi16_wideUdiv (a b : Word) : hi16 (wideUdiv a b) = a % b := by
  have hrem : (a.toNat : Int) - ((a.toNat / b.toNat : Nat) : Int) * (b.toNat : Int) =
      ((a.toNat % b.toNat : Nat) : Int) := by
    rw [Int.natCast_mod, Int.emod_def, Int.natCast_div, mul_comm]
  rw [wideUdiv, hi16_packWide, hrem, u16, BitVec.ofInt_natCast, ← BitVec.toNat_umod,
    BitVec.ofNat_toNat, BitVec.setWidth_eq]

theorem trackedFlags_wideUdiv (a b : Word) :
    trackedFlags (a / b) (a % b) =
      (if a % b ≠ 0 then 0x0001 else 0) ||| (if a = 0 then 0x0002 else 0) := by
  refine trackedFlags_of_iff Iff.rfl ⟨fun ⟨hq, hr⟩ => ?_, fun h => ?_⟩
  · rw [← toNat_eq_zero_iff, BitVec.toNat_udiv] at hq
    rw [← toNat_eq_zero_iff, BitVec.toNat_umod] at hr
    rw [← toNat_eq_zero_iff, ← Nat.div_add_mod a.toNat b.toNat, hq, hr, Nat.mul_zero]
  · subst h
    exact ⟨BitVec.zero_udiv, BitVec.zero_umod⟩

theorem lo16_wideSdiv (a b : Word) :
    lo16 (wideSdiv a b) = BitVec.ofInt 16 (a.toInt.tdiv b.toInt) := by
  rw [wideSdiv, lo16_packWide, sext16_eq_toInt, sext16_eq_toInt, u16]

theorem hi16_wideSdiv (a b : Word) :
    hi16 (wideSdiv a b) = BitVec.ofInt 16 (a.toInt.tmod b.toInt) := by
  rw [wideSdiv, hi16_packWide, sext16_eq_toInt, sext16_eq_toInt, u16, Int.tmod_def, mul_comm]

/-- An integer of less than 2^16 in size is zero as a word only if it is zero. -/
theorem ofInt_eq_zero_iff {z : Int} (h : z.natAbs < 0x10000) : BitVec.ofInt 16 z = 0 ↔ z = 0 := by
  rw [word_eq_zero_iff, BitVec.toNat_ofInt]
  omega

theorem trackedFlags_wideSdiv (a b : Word) :
    trackedFlags (BitVec.ofInt 16 (a.toInt.tdiv b.toInt)) (BitVec.ofInt 16 (a.toInt.tmod b.toInt)) =
      (if a.toInt.tmod b.toInt ≠ 0 then 0x0001 else 0) ||| (if a = 0 then 0x0002 else 0) := by
  have hbounds := toInt_bounds a
  have hq : (a.toInt.tdiv b.toInt).natAbs < 0x10000 := by
    rw [Int.natAbs_tdiv]
    exact lt_of_le_of_lt (Nat.div_le_self _ _) (by omega)
  have hr : (a.toInt.tmod b.toInt).natAbs < 0x10000 := by
    rw [Int.natAbs_tmod]
    exact lt_of_le_of_lt (Nat.mod_le _ _) (by omega)
  refine trackedFlags_of_iff (not_congr (ofInt_eq_zero_iff hr)) ?_
  rw [ofInt_eq_zero_iff hq, ofInt_eq_zero_iff hr, ← toInt_eq_zero_iff a]
  constructor
  · rintro ⟨hq, hr⟩
    rw [← Int.mul_tdiv_add_tmod a.toInt b.toInt, hq, hr, mul_zero, add_zero]
  · intro h
    rw [h]
    exact ⟨Int.zero_tdiv _, Int.zero_tmod _⟩

end Sys2Proof.Machine

namespace Sys2Proof.Proofs

open Sys2Proof.Machine

/-- Settles O27, by the halves of the sum. -/
theorem addGivesSumAndCarry : Obligations.AddGivesSumAndCarry :=
  fun _ _ _ a b _ hwf ha hb hd => (checkShape_wf hwf _).trans
    (trackedOp_of_halves ha hb hd (lo16_wideAdd a b) (hi16_wideAdd a b) (trackedFlags_wideAdd a b))

/-- Settles O28, by the halves of the difference. -/
theorem subGivesDifferenceAndBorrow : Obligations.SubGivesDifferenceAndBorrow :=
  fun _ _ _ a b _ hwf ha hb hd => (checkShape_wf hwf _).trans
    (trackedOp_of_halves ha hb hd (lo16_wideSub a b) (hi16_wideSub a b) (trackedFlags_wideSub a b))

/-- Settles O29, by the halves of the product of the unsigned words. -/
theorem umulGivesProductHalves : Obligations.UmulGivesProductHalves :=
  fun _ _ _ a b _ hwf ha hb hd => (checkShape_wf hwf _).trans
    (trackedOp_of_halves ha hb hd (lo16_wideUmul a b) (hi16_wideUmul a b) (trackedFlags_wideUmul a b))

/-- Settles O30, by the halves of the product of the signed words. -/
theorem smulGivesSignedProductHalves : Obligations.SmulGivesSignedProductHalves :=
  fun _ _ _ a b _ hwf ha hb hd => (checkShape_wf hwf _).trans
    (trackedOp_of_halves ha hb hd (lo16_wideSmul a b) (hi16_wideSmul a b) (trackedFlags_wideSmul a b))

/-- Settles O31, by the remainder packed above the quotient of the unsigned words. -/
theorem udivGivesQuotientAndRemainder : Obligations.UdivGivesQuotientAndRemainder :=
  fun _ _ _ a b _ hwf ha hb hb0 hd => (checkShape_wf hwf _).trans
    (divideOp_of_halves ha hb hd (lo16_wideUdiv a b) (hi16_wideUdiv a b) (trackedFlags_wideUdiv a b)
      hb0)

/-- Settles O32, by the remainder packed above the truncated quotient of the signed words. -/
theorem sdivTruncatesTowardZero : Obligations.SdivTruncatesTowardZero :=
  fun _ _ _ a b _ hwf ha hb hb0 hd => (checkShape_wf hwf _).trans
    (divideOp_of_halves ha hb hd (lo16_wideSdiv a b) (hi16_wideSdiv a b) (trackedFlags_wideSdiv a b)
      hb0)

/-- Settles O33: the divisor is tested after the reads, before anything is written. -/
theorem divisionByZeroSetsDivZeroOnly : Obligations.DivisionByZeroSetsDivZeroOnly :=
  fun _ _ _ _ hc ha hb => ⟨fun hwf => (checkShape_wf hwf _).trans (divideOp_zero hc ha hb),
    fun hwf => (checkShape_wf hwf _).trans (divideOp_zero hc ha hb)⟩

end Sys2Proof.Proofs
end

section
/-! PROOFS. Bitwise instructions, shifts, `not` and `cmp` (R163 to R169) on clean operands, the branches
after a `cmp`, and operands whose access goes nowhere (R206). -/

namespace Sys2Proof.Machine

/-! ## Non-overflow instructions (R162) -/

/-- The flag of a non-overflow result, by what makes it zero. -/
theorem plainFlags_of_iff {v : Word} {Q : Prop} [Decidable Q] (hQ : v = 0 ↔ Q) :
    plainFlags v = if Q then 0x0002 else 0 := by
  rw [plainFlags, if_congr hQ rfl rfl]
  rfl

/-- A non-overflow instruction on clean operands, by its result and flag. -/
theorem plainOp_of_result {f : Word → Word → Word} {p1 p2 : Param} {s : State} {a b v fl : Word}
    {d : Place} (ha : s.operand? p1 = some a) (hb : s.operand? p2 = some b)
    (hd : s.place? p1 = some d) (hv : f a b = v) (hfl : plainFlags v = fl) :
    plainOp f p1 p2 s = .next ((s.store d v).setFlags fl) := by
  rw [plainOp_clean ha hb hd, hv, hfl]

/-- `shl` multiplies by a power of two and keeps the low word (R166; log 15). -/
theorem shiftLeft_eq (a b : Word) : shiftLeft a b = BitVec.ofNat 16 (a.toNat * 2 ^ b.toNat) := by
  apply BitVec.eq_of_toNat_eq
  rw [shiftLeft, BitVec.toNat_ofNat]
  split
  · rw [BitVec.toNat_shiftLeft, Nat.shiftLeft_eq]
  · have hdvd : 2 ^ 16 ∣ a.toNat * 2 ^ b.toNat :=
      dvd_mul_of_dvd_right (pow_dvd_pow 2 (by omega)) _
    rw [Nat.mod_eq_zero_of_dvd hdvd]
    rfl

/-- `shr` divides by a power of two (R169; log 15). -/
theorem shiftRight_eq (a b : Word) : shiftRight a b = BitVec.ofNat 16 (a.toNat / 2 ^ b.toNat) := by
  have hlt : a.toNat < 2 ^ 16 := a.isLt
  apply BitVec.eq_of_toNat_eq
  rw [shiftRight, BitVec.toNat_ofNat, Nat.mod_eq_of_lt (lt_of_le_of_lt (Nat.div_le_self _ _) hlt)]
  split
  · rw [BitVec.toNat_ushiftRight, Nat.shiftRight_eq_div_pow]
  · rw [Nat.div_eq_of_lt (lt_of_lt_of_le hlt (Nat.pow_le_pow_right (by omega) (by omega)))]
    rfl

/-! ## `not` and `cmp` (R167, R168) -/

/-- What a `not` with one operand does on a clean one (R167). -/
theorem execNot_clean {p1 : Param} {s : State} {a : Word} {d : Place}
    (hwf : (Instr.not p1 none).WellFormed) (ha : s.operand? p1 = some a)
    (hd : s.place? p1 = some d) :
    execNot p1 none s = .next ((s.store d (a ^^^ 0xFFFF)).setFlags (plainFlags (a ^^^ 0xFFFF))) := by
  obtain ⟨A, hA, hr⟩ := locateRoot_of_operand ha
  obtain ⟨A', hA', hw⟩ := locateRoot_of_place hd
  rw [hA] at hA'
  cases hA'
  simp only [execNot, checkShape_wf hwf, checkWritable_ok (isConst_of_place hd), hA, locateIgnored, hr,
    nonOverflow, hw, andThen_next]

/-- The compare decides by the signed order (R168). -/
theorem compareFlags_eq (a b : Word) :
    compareFlags a b = if a = b then 0x0008 else if a.toInt < b.toInt then 0x0010 else 0 := by
  rw [compareFlags, sext16_eq_toInt, sext16_eq_toInt]
  rfl

/-- What a `cmp` does once its operands are read (R168). -/
theorem execCmp_of_readOperands {p1 p2 : Param} {s t : State} {A : Accessor} {a b : Word}
    (hwf : (Instr.cmp p1 p2).WellFormed) (ho : readOperands p1 p2 s = .next ⟨A, a, b, t⟩) :
    execCmp p1 p2 s = .next { t with flags := (t.flags &&& ~~~0x0018) |||
      (if a = b then 0x0008 else if a.toInt < b.toInt then 0x0010 else 0) } := by
  rw [execCmp, checkShape_wf hwf, ho, andThen_next, ← compareFlags_eq]
  rfl

theorem execCmp_clean {p1 p2 : Param} {s : State} {a b : Word} (hwf : (Instr.cmp p1 p2).WellFormed)
    (ha : s.operand? p1 = some a) (hb : s.operand? p2 = some b) :
    execCmp p1 p2 s = .next { s with flags := (s.flags &&& ~~~0x0018) |||
      (if a = b then 0x0008 else if a.toInt < b.toInt then 0x0010 else 0) } := by
  obtain ⟨A, ho, -⟩ := readOperands_clean ha hb
  exact execCmp_of_readOperands hwf ho

/-- EQUAL after a compare (R168). -/
theorem equal_of_compare (x a b : Word) :
    ((x &&& ~~~0x0018) ||| (if a = b then 0x0008 else if a.toInt < b.toInt then 0x0010 else 0)).getLsbD
      3 = decide (a = b) := by
  by_cases h : a = b
  · simp [h]
  · by_cases hlt : a.toInt < b.toInt <;> simp [h, hlt]

/-- LESS after a compare (R168). -/
theorem less_of_compare (x a b : Word) :
    ((x &&& ~~~0x0018) ||| (if a = b then 0x0008 else if a.toInt < b.toInt then 0x0010 else 0)).getLsbD
      4 = decide (a.toInt < b.toInt) := by
  by_cases h : a = b
  · simp [h]
  · by_cases hlt : a.toInt < b.toInt <;> simp [h, hlt]

/-- A branch to a constant, where EQUAL and LESS are those of a compare of `a` and `b` (R181). -/
theorem exec_branch_after_compare {i : Instr} {t : State} {a b c : Word} {P : Prop} [Decidable P]
    (hi : i.WellFormed) (hb : i.kind.isBranch = true) (hp : i.p1? = some (.const c))
    (hequal : t.flags.getLsbD 3 = decide (a = b))
    (hless : t.flags.getLsbD 4 = decide (a.toInt < b.toInt))
    (hP : branchTaken (decide (a = b)) (decide (a.toInt < b.toInt)) i.kind = true ↔ P) :
    exec i t = .next (if P then { t with pc := c - 1 } else t) := by
  rw [exec_branch_of_operand hi hb hp (w := c) rfl, hequal, hless, if_congr hP rfl rfl]

/-! ## An operand whose address no registrant accepts (R57, R206) -/

/-- The accessor of an admissible operand depends on the nameable registers and the map. -/
theorem locateRoot_fst_congr {p : Param} (hp : p.admissible = true) {s t : State} (hx : t.x = s.x)
    (hsp : t.sp = s.sp) (hmap : t.map = s.map) {A B : Accessor} {s' t' : State}
    (hs : locateRoot p s = .next (A, s')) (ht : locateRoot p t = .next (B, t')) : A = B := by
  by_cases hm : p.isMem = true
  · rw [locateRoot, locate_of_isMem hm, andThen_eq_next] at hs ht
    obtain ⟨a, ha, hs⟩ := hs
    obtain ⟨b, hb, ht⟩ := ht
    rw [address, value_congr hx hsp p hp, ← address, ha] at hb
    cases hb
    have hfst : (locateAt t.map a t).1 = (locateAt s.map a s).1 := by
      rw [hmap]
      unfold locateAt
      split <;> rfl
    rw [Host.Outcome.next.injEq] at hs ht
    rw [hs, ht] at hfst
    exact hfst.symm
  · cases p
    case const | reg | regRef =>
      cases hs
      cases ht
      rfl
    all_goals exact (hm rfl).elim

/-- An operand that reads clean reads so as well after a failed read of another one. -/
theorem readOperands_absent {p1 p2 : Param} {s : State} {a : Int} {b : Word} (hp : p1.isMem = true)
    (ha : address s p1 = .next a) (h0 : s.map.acceptors a = []) (hb : s.operand? p2 = some b)
    (h2 : p2.admissible = true) : readOperands p1 p2 s =
      .next ⟨.unresolved, Config.unresolvedReadValue s.draws, b, s.failRead.2⟩ := by
  have hA : locateRoot p1 s = .next (.unresolved, s) := by
    rw [locateRoot_of_address hp ha, locateAt_of_absent h0]
  obtain ⟨B, hB, -⟩ := locateRoot_of_operand hb
  have hb' : s.failRead.2.operand? p2 = some b :=
    (State.operand_congr (by rfl) (by rfl) (by rfl) (by rfl) h2).trans hb
  obtain ⟨B', hB', hr⟩ := locateRoot_of_operand hb'
  have hBB' : B = B' := locateRoot_fst_congr h2 (by rfl) (by rfl) (by rfl) hB hB'
  subst hBB'
  have hread : rd .unresolved s = .next s.failRead := rfl
  simp only [readOperands, hA, hB, hread, hr, andThen_next, State.failRead_word]

/-- A write that fails where a read has failed changes nothing more. -/
theorem wr_unresolved_failRead (v : Word) (s : State) :
    wr .unresolved v s.failRead.2 = .next s.failRead.2 := by
  have hflags : s.flags ||| fSeg ||| fSeg = s.flags ||| fSeg := by
    rw [BitVec.or_assoc, BitVec.or_self]
  rw [wr, State.failWrite, State.setFlags, State.failRead_flags, hflags]
  rfl

end Sys2Proof.Machine

namespace Sys2Proof.Proofs

open Sys2Proof.Machine

/-- Settles O35: what makes each bitwise result zero. -/
theorem bitwiseStoresBitsAndZero : Obligations.BitwiseStoresBitsAndZero := by
  intro s p1 p2 a b d ha hb hd
  refine ⟨fun hwf => (checkShape_wf hwf _).trans (plainOp_of_result ha hb hd rfl ?and),
    fun hwf => (checkShape_wf hwf _).trans (plainOp_of_result ha hb hd rfl ?or),
    fun hwf => (checkShape_wf hwf _).trans (plainOp_of_result ha hb hd rfl ?xor)⟩
  case and => exact plainFlags_of_iff Iff.rfl
  case or => exact plainFlags_of_iff BitVec.or_eq_zero_iff
  case xor => exact plainFlags_of_iff BitVec.xor_eq_zero_iff

/-- Settles O36: a count of 16 or more shifts everything out, as the power of two says. -/
theorem shiftsUseTheWholeCount : Obligations.ShiftsUseTheWholeCount := by
  rintro s p1 p2 a b _ _ d ha hb hd rfl rfl
  exact ⟨fun hwf => (checkShape_wf hwf _).trans
      (plainOp_of_result ha hb hd (shiftLeft_eq a b) (plainFlags_of_iff Iff.rfl)),
    fun hwf => (checkShape_wf hwf _).trans
      (plainOp_of_result ha hb hd (shiftRight_eq a b) (plainFlags_of_iff Iff.rfl))⟩

/-- Settles O37: the complement is the exclusive or with all ones. -/
theorem notStoresComplement : Obligations.NotStoresComplement := by
  intro s p1 a d hwf ha hd
  have hnot : a ^^^ 0xFFFF = ~~~a := by
    rw [show (0xFFFF : Word) = BitVec.allOnes 16 from rfl, BitVec.xor_allOnes]
  have hexec := execNot_clean hwf ha hd
  have hzero : a ^^^ 0xFFFF = 0 ↔ a = 0xFFFF := BitVec.xor_eq_zero_iff
  rw [plainFlags_of_iff hzero, hnot] at hexec
  exact hexec

/-- Settles O39: the signed reading of a word is its two's-complement value. -/
theorem cmpComparesSigned : Obligations.CmpComparesSigned :=
  fun _ _ _ _ _ hwf ha hb => execCmp_clean hwf ha hb

/-- Settles O40: the compare leaves EQUAL and LESS as the order decides, and each branch reads them by the
condition table. -/
theorem branchesDecideByTheCompare : Obligations.BranchesDecideByTheCompare := by
  intro s p1 p2 a b c hwf ha hb
  have hequal := equal_of_compare s.flags a b
  have hless := less_of_compare s.flags a b
  have horder : a = b ↔ a.toInt = b.toInt := BitVec.toInt_inj.symm
  refine ⟨_, execCmp_clean hwf ha hb, ?jeq, ?jne, ?jlt, ?jle, ?jgt, ?jge⟩
  case jeq | jne =>
    exact exec_branch_after_compare rfl rfl rfl hequal hless (by simp [branchTaken, Instr.kind])
  all_goals
    refine exec_branch_after_compare rfl rfl rfl hequal hless ?_
    simp only [branchTaken, Instr.kind, horder, Bool.and_eq_true, Bool.or_eq_true, Bool.not_eq_true',
      decide_eq_true_eq, decide_eq_false_iff_not]
    omega

/-- Settles O34: the failed read hands over the free value, and the failed write of the destination changes
nothing more. -/
theorem failedOperandsGoOn : Obligations.FailedOperandsGoOn := by
  rintro s _ p1 p2 a _ b hp ha h0 hb rfl rfl
  have hread := fun h2 => readOperands_absent hp ha h0 hb h2
  have hc := isConst_of_isMem hp
  refine ⟨fun hwf => ?add, fun hwf => ?and, fun hwf => ?cmp⟩
  case add =>
    refine (checkShape_wf hwf _).trans ?_
    rw [trackedOp, checkWritable_ok hc, hread (admissible_p2 hwf rfl), andThen_next, overflowTracked,
      wr_unresolved_failRead, andThen_next, lo16_wideAdd, hi16_wideAdd, trackedFlags_wideAdd]
    rfl
  case and =>
    refine (checkShape_wf hwf _).trans ?_
    rw [plainOp, checkWritable_ok hc, hread (admissible_p2 hwf rfl), andThen_next, nonOverflow,
      wr_unresolved_failRead, andThen_next, plainFlags_of_iff Iff.rfl]
    rfl
  case cmp => exact execCmp_of_readOperands hwf (hread (admissible_p2 hwf rfl))

end Sys2Proof.Proofs
end

section
/-! PROOFS. The second operand of `not` (R167): a flag set before the read of the first operand is set as
well after the instruction, which does not read it. -/

namespace Sys2Proof.Machine

/-! ## A flag set earlier (R14) -/

theorem State.setFlags_comm (s : State) (m m' : Word) :
    (s.setFlags m).setFlags m' = (s.setFlags m').setFlags m := by
  rw [State.setFlags_setFlags, State.setFlags_setFlags, BitVec.or_comm]

theorem State.failRead_setFlags (s : State) (m : Word) :
    (s.setFlags m).failRead = (s.failRead.1, s.failRead.2.setFlags m) :=
  congrArg (fun t : State => (s.failRead.1, { t with draws := s.draws + 1 })) (s.setFlags_comm m fSeg)

theorem State.noteAmbiguity_setFlags (s : State) (m : Word) (b : Bool) :
    (s.setFlags m).noteAmbiguity b = (s.noteAmbiguity b).setFlags m := by
  cases b with
  | false => rfl
  | true => exact s.setFlags_comm m fMultistate

theorem State.memRead_setFlags (s : State) (m : Word) (u : Nat) (addr : Int) :
    (s.setFlags m).memRead u addr = ((s.memRead u addr).1, (s.memRead u addr).2.setFlags m) := by
  unfold State.memRead
  rw [State.setFlags_units]
  split
  · exact s.failRead_setFlags m
  · split
    · split <;> rfl
    · exact s.failRead_setFlags m

theorem State.memWrite_setFlags (s : State) (m : Word) (u : Nat) (addr : Int) (v : Word) :
    (s.setFlags m).memWrite u addr v = (s.memWrite u addr v).setFlags m := by
  unfold State.memWrite
  rw [State.setFlags_units]
  split
  · exact s.setFlags_comm m fSeg
  · split
    · split <;> rfl
    · exact s.setFlags_comm m fSeg

theorem readRoute_setFlags (r : Route) (s : State) (m : Word) :
    readRoute r (s.setFlags m) = ((readRoute r s).1, (readRoute r s).2.setFlags m) := by
  cases r with
  | hit u addr => exact s.memRead_setFlags m u addr
  | miss b =>
    rw [readRoute, State.noteAmbiguity_setFlags, State.failRead_setFlags]
    rfl

theorem writeRoute_setFlags (r : Route) (v : Word) (s : State) (m : Word) :
    writeRoute r v (s.setFlags m) = (writeRoute r v s).setFlags m := by
  cases r with
  | hit u addr => exact s.memWrite_setFlags m u addr v
  | miss b =>
    rw [writeRoute, State.noteAmbiguity_setFlags]
    exact (s.noteAmbiguity b).setFlags_comm m fSeg

/-- A read does not see a flag, unless it reads FLAGS (R18). -/
theorem rd_setFlags {A : Accessor} (hA : A.Nameable) (s : State) (m : Word) :
    rd A (s.setFlags m) = andThen (rd A s) fun r => .next (r.1, r.2.setFlags m) := by
  cases A with
  | const c => rfl
  | reg r => rw [rd, State.readReg_setFlags s (hA r rfl)]; rfl
  | regRef n => rfl
  | resolved g a => exact congrArg _ (readRoute_setFlags _ s m)
  | unresolved => exact congrArg _ (s.failRead_setFlags m)

/-- A write does not see a flag, unless it writes FLAGS (R18). -/
theorem wr_setFlags {A : Accessor} (hA : A.Nameable) (v : Word) (s : State) (m : Word) :
    wr A v (s.setFlags m) = andThen (wr A v s) fun t => .next (t.setFlags m) := by
  cases A with
  | const c => rfl
  | reg r =>
    cases r with
    | gpr i => rfl
    | sp => rfl
    | pc => cases hA .pc rfl
    | flags => cases hA .flags rfl
  | regRef n => rfl
  | resolved g a => exact congrArg _ (writeRoute_setFlags _ v s m)
  | unresolved => exact congrArg _ (s.setFlags_comm m fSeg)

/-! ## `not` -/

/-- What `not` does after it has located its operands: it reads the first, complements, and writes. -/
def notBody (A : Accessor) (s : State) : Res State :=
  andThen (rd A s) fun a => nonOverflow A (a.1 ^^^ 0xFFFF) a.2

theorem execNot_eq {p1 : Param} {p2 : Option Param} (hwf : (Instr.not p1 p2).WellFormed) (s : State) :
    execNot p1 p2 s = checkWritable p1 (andThen (locateRoot p1 s) fun A =>
      andThen (locateIgnored p2 A.2) (notBody A.1)) := checkShape_wf hwf _

theorem notBody_setFlags {A : Accessor} (hA : A.Nameable) (s : State) (m : Word) :
    notBody A (s.setFlags m) = andThen (notBody A s) fun t => .next (t.setFlags m) := by
  rw [notBody, rd_setFlags hA, notBody, andThen_assoc, andThen_assoc]
  congr 1
  funext a
  rw [andThen_next, nonOverflow, wr_setFlags hA, nonOverflow, andThen_assoc, andThen_assoc]
  congr 1
  funext t
  rw [andThen_next, State.setFlags_comm]
  rfl

/-- Where `not` answers without a second operand, with one it answers what its body does after locating
that operand. -/
theorem execNot_some {p1 p2 : Param} {s t : State} (hwf : (Instr.not p1 (some p2)).WellFormed)
    (h : execNot p1 none s = .next t) : ∃ A s', Effect none s s' ∧ A.Nameable ∧
      notBody A s' = .next t ∧
      execNot p1 (some p2) s = andThen (locateIgnored (some p2) s') (notBody A) := by
  have hwf' := (execNot_cases h).1
  rw [execNot_eq hwf', checkWritable_eq_next, andThen_eq_next] at h
  obtain ⟨hc, ⟨A, s'⟩, hA, h⟩ := h
  have halike := (Alike.refl s).locateRoot (admissible_p1 hwf rfl)
  rw [hA] at halike
  refine ⟨A, s', Effect.locateRoot hA, halike.2, h, ?_⟩
  rw [execNot_eq hwf, checkWritable_ok hc, hA, andThen_next]

end Sys2Proof.Machine

namespace Sys2Proof.Proofs

open Sys2Proof.Machine

/-- Settles O38: locating the second operand sets at most MULTISTATE, which the body carries along. -/
theorem notLocatesItsSecondOperand : Obligations.NotLocatesItsSecondOperand := by
  intro s t p1 p2 hwf h
  obtain ⟨A, s', he, hA, hbody, hsome⟩ := execNot_some hwf h
  refine ⟨fun hm => ?direct, fun a hm ha => ?memory⟩
  case direct =>
    have hlocate : locateIgnored (some p2) s' = .next s' := by
      cases p2
      case const | reg | regRef => rfl
      all_goals cases hm
    refine hsome.trans ?_
    rw [hlocate, andThen_next, hbody]
  case memory =>
    have ha' : address s' p2 = .next a :=
      (value_congr he.x he.sp p2 (admissible_p2 hwf rfl)).trans ha
    have hlocate : locateIgnored (some p2) s' = .next (locateAt s'.map a s').2 := by
      rw [locateIgnored, locateRoot_of_address hm ha', andThen_next]
    refine hsome.trans ?_
    rw [hlocate, andThen_next, he.map]
    split
    · rename_i h2
      rw [locateAt_of_ambiguous h2, notBody_setFlags hA, hbody]
      rfl
    · rename_i h2
      have hsame : (locateAt s.map a s').2 = s' := by
        unfold locateAt
        match s.map.acceptors a, h2 with
        | [], _ => rfl
        | [_], _ => rfl
        | _ :: _ :: _, h2 => simp at h2
      rw [hsame, hbody]

end Sys2Proof.Proofs
end

section
/-! PROOFS. The locator: a well-formed map leads inside its units (R43, R67), a child node is located at the
access only (R53), and a wrapped location is located as its flattened form (R48, R83). -/

namespace Sys2Proof.Machine

/-- Under a well-formed map a descent ends inside a unit (R67). -/
theorem inBounds_of_descend {units : List HwUnit} {k : Access} {n : Node} {a addr : Int} {u : Nat}
    (hok : n.Ok units) (h : n.descend k a = .hit u addr) :
    ∃ unit, units[u]? = some unit ∧ unit.inBounds addr = true := by
  induction n generalizing a with
  | empty => cases h
  | unitReg o v c u' rest ih =>
    obtain ⟨⟨unit, hunit, hbounds⟩, hrest⟩ := hok
    unfold Node.descend at h
    split at h
    · rename_i hv
      split at h <;> cases h
      exact ⟨unit, hunit, hbounds a hv⟩
    · exact ih hrest h
  | childReg o v c ch rest ihch ih =>
    obtain ⟨hchild, hrest⟩ := hok
    unfold Node.descend at h
    split at h
    · split at h
      · split at h
        · cases h
        · exact ihch hchild h
        · cases h
      · cases h
    · exact ih hrest h

/-- A route that reaches a unit descends to it. -/
theorem descend_of_route_hit {n : Node} {k : Access} {a addr : Int} {u : Nat}
    (h : n.route k a = .hit u addr) : n.descend k a = .hit u addr := by
  unfold Node.route at h
  split at h
  · cases h
  · exact h
  · cases h

/-- The one registrant that accepts is located at once (R52 step 3). -/
theorem locateAt_of_single {n : Node} {a : Int} {g : Registrant} (h : n.acceptors a = [g])
    (s : State) : locateAt n a s = (.resolved g (a - (g.offset.toNat : Int)), s) := by
  rw [locateAt, h]

/-- Behind a registrant with a child node that permits the access, the child's route goes on (R53). -/
theorem Registrant.route_child {g : Registrant} {child : Node} {k : Access}
    (ht : g.target = .child child) (hk : g.cap.permits k = true) (a : Int) :
    g.route k a = child.route k a := by
  rw [Registrant.route, if_pos hk, ht]

theorem permits_read {c : Capability} (h : c ≠ .writeOnly) : c.permits .read = true := by
  cases c
  case writeOnly => exact (h rfl).elim
  all_goals rfl

theorem permits_write {c : Capability} (h : c ≠ .readOnly) : c.permits .write = true := by
  cases c
  case readOnly => exact (h rfl).elim
  all_goals rfl

/-- A constant address at any node is located as it is (R48). -/
theorem locate_memC (n : Node) (a : Int) (s : State) :
    locate n (.memC a) s = .next (locateAt n a s) := rfl

/-- A location wrapped in another one is located as the location itself (R48). -/
theorem locateRoot_memAbs_flattened (s : State) : ∀ q : Param,
    locateRoot (Param.memAbs q).flattened s = locateRoot (.memAbs q) s
  | .const _ => rfl
  | .reg _ => rfl
  | .regRef _ => rfl
  | .memC _ => rfl
  | .memAbs q => locateRoot_memAbs_flattened s q
  | .memRel _ _ => rfl

end Sys2Proof.Machine

namespace Sys2Proof.Proofs

open Sys2Proof.Machine

/-- Settles O53: what the last validator on the way accepts translates to a word of its unit. -/
theorem wellFormedMapNeverFailsBounds : Obligations.WellFormedMapNeverFailsBounds :=
  fun _ _ _ _ _ _ hok h => inBounds_of_descend hok (descend_of_route_hit h)

/-- Settles O55: the access at the registrant and the access located at the child follow one route. -/
theorem nestedDelegationIsLazy : Obligations.NestedDelegationIsLazy := by
  refine ⟨fun s n p a g hp ha hg => ?locate, fun s g child a v ht => ⟨fun hc => ?read, fun hc => ?write⟩⟩
  case locate => rw [locate_of_address hp ha, locateAt_of_single hg]
  case read =>
    rw [locate_memC, andThen_next, rd_locateAt, rd, Registrant.route_child ht (permits_read hc)]
  case write =>
    rw [locate_memC, andThen_next, wr_locateAt, wr, Registrant.route_child ht (permits_write hc)]

/-- Settles O56: only an absolute location is flattened. -/
theorem flattenedOperandsLocateAlike : Obligations.FlattenedOperandsLocateAlike := by
  intro p s
  cases p with
  | memAbs q => exact locateRoot_memAbs_flattened s q
  | const c | reg r | regRef n | memC a | memRel t rest => rfl

end Sys2Proof.Proofs
end

section
/-! PROOFS. Linking a program (R34): cell by cell it is the outcome of linking what the cell holds, so the
whole program links, or the first cell with an unmapped name is reported. -/

namespace Sys2Proof.Machine

/-- The names that a cell holds: a slot holds none. -/
def cellReferences : ProgCell → List String
  | .slot _ => []
  | .record r => recordReferences r

/-- A cell with each RegisterReference of a record replaced. -/
def cellWithRegisters (m : NameMap) : ProgCell → ProgCell
  | .slot S => .slot S
  | .record r => .record ⟨r.kind, r.p1.map (withRegisters m), r.p2.map (withRegisters m)⟩

/-- What linking a cell comes to. -/
theorem linkCell_eq (m : NameMap) (line : Nat) (cell : ProgCell) :
    linkCell m line cell = linkOutcome m line (cellReferences cell) (cellWithRegisters m cell) := by
  cases cell with
  | slot S => rfl
  | record r => exact linkCell_record m line r

/-- A program links exactly when the map holds every name in it, to the replaced cells. -/
theorem linkFrom_eq_next {m : NameMap} {line : Nat} {prog prog' : List ProgCell} :
    linkFrom m line prog = .next prog' ↔
      (∀ cell ∈ prog, ∀ name ∈ cellReferences cell, m.find name ≠ none) ∧
      prog.map (cellWithRegisters m) = prog' := by
  induction prog generalizing line prog' with
  | nil => simp [linkFrom]
  | cons cell rest ih =>
    simp only [linkFrom, andThen_eq_next, linkCell_eq, linkOutcome_eq_next, ih, List.forall_mem_cons,
      List.map_cons]
    constructor
    · rintro ⟨_, ⟨hcell, rfl⟩, _, ⟨hrest, rfl⟩, h⟩
      cases h
      exact ⟨⟨hcell, hrest⟩, rfl⟩
    · rintro ⟨⟨hcell, hrest⟩, rfl⟩
      exact ⟨_, ⟨hcell, rfl⟩, _, ⟨hrest, rfl⟩, rfl⟩

/-- A program that does not link is reported with an unmapped name and the index of its cell. -/
theorem linkFrom_fault {m : NameMap} {line : Nat} {prog : List ProgCell} {f : Fault}
    (h : linkFrom m line prog = .fault f) : ∃ (n : Nat) (cell : ProgCell), prog[n]? = some cell ∧
      ∃ name ∈ cellReferences cell, m.find name = none ∧
        f = .undefinedReference name (line + n) := by
  induction prog generalizing line with
  | nil => cases h
  | cons cell rest ih =>
    rw [linkFrom, andThen_eq_fault, linkCell_eq] at h
    obtain h | ⟨_, -, h⟩ := h
    · exact ⟨0, cell, rfl, linkOutcome_fault h⟩
    · rw [andThen_eq_fault] at h
      obtain h | ⟨_, -, h⟩ := h
      · obtain ⟨n, cell', hn, name, hname, hnone, rfl⟩ := ih h
        exact ⟨n + 1, cell', hn, name, hname, hnone, by rw [Nat.add_right_comm, Nat.add_assoc]⟩
      · cases h

theorem linkFrom_ne_refused (m : NameMap) (line : Nat) (prog : List ProgCell) (e : Refusal) :
    linkFrom m line prog ≠ .refused e := by
  induction prog generalizing line with
  | nil => exact nofun
  | cons cell rest ih =>
    intro h
    rw [linkFrom, andThen_eq_refused, linkCell_eq] at h
    obtain h | ⟨_, -, h⟩ := h
    · exact linkOutcome_ne_refused _ _ _ _ e h
    · rw [andThen_eq_refused] at h
      obtain h | ⟨_, -, h⟩ := h
      · exact ih _ h
      · cases h

/-- The map holds the names of every cell exactly when it holds those of every record at its index. -/
theorem forall_cellReferences_iff {prog : List ProgCell} {P : String → Prop} :
    (∀ cell ∈ prog, ∀ name ∈ cellReferences cell, P name) ↔
      ∀ (n : Nat) (r : Record), prog[n]? = some (.record r) → ∀ name ∈ recordReferences r, P name := by
  constructor
  · exact fun h n r hr => h _ (List.mem_of_getElem? hr)
  · intro h cell hcell
    obtain ⟨n, hn⟩ := List.mem_iff_getElem?.mp hcell
    cases cell with
    | slot S => exact nofun
    | record r => exact h n r hn

/-- A cell that holds a name is a record. -/
theorem exists_record_of_cellReferences {cell : ProgCell} {name : String}
    (h : name ∈ cellReferences cell) : ∃ r, cell = .record r ∧ name ∈ recordReferences r := by
  cases cell with
  | slot S => cases h
  | record r => exact ⟨r, rfl, h⟩

end Sys2Proof.Machine

namespace Sys2Proof.Proofs

open Sys2Proof.Machine

/-- Settles O60: linking never refuses, so what does not link faults, with a name of some cell. -/
theorem linkingRemovesEveryReference : Obligations.LinkingRemovesEveryReference := by
  intro prog names
  have hnext : (∃ prog', resolveReferences prog names = .next prog') ↔
      ∀ (n : Nat) (r : Record), prog[n]? = some (.record r) →
        ∀ name ∈ recordReferences r, names.find name ≠ none := by
    rw [← forall_cellReferences_iff]
    simp only [resolveReferences, linkFrom_eq_next, exists_and_left, exists_eq', and_true]
  have hfault : ∀ f, resolveReferences prog names = .fault f →
      ∃ (name : String) (line : Nat) (r : Record), f = .undefinedReference name line ∧
        prog[line]? = some (.record r) ∧ name ∈ recordReferences r ∧ names.find name = none := by
    intro f hf
    obtain ⟨n, cell, hn, name, hname, hnone, rfl⟩ := linkFrom_fault hf
    obtain ⟨r, rfl, hr⟩ := exists_record_of_cellReferences hname
    exact ⟨name, n, r, by rw [Nat.zero_add], hn, hr, hnone⟩
  refine ⟨hnext, fun prog' h => ?linked, ⟨fun ⟨f, hf⟩ => ?reported, fun ⟨n, r, name, hn, hr, hnone⟩ =>
    ?unmapped⟩, hfault⟩
  case linked =>
    have hall := hnext.mp ⟨prog', h⟩
    obtain ⟨-, rfl⟩ := linkFrom_eq_next.mp h
    refine ⟨List.length_map _, fun n S hn => ?_, fun n r hn => ⟨?_, fun p hp => ?_⟩⟩
    · rw [List.getElem?_map, hn]
      rfl
    · rw [List.getElem?_map, hn]
      rfl
    · exact withRegisters_linked names p fun name hname =>
        hall n r hn name (List.mem_flatMap.mpr ⟨p, hp, hname⟩)
  case reported =>
    obtain ⟨name, line, r, -, hline, hr, hnone⟩ := hfault f hf
    exact ⟨line, r, name, hline, hr, hnone⟩
  case unmapped =>
    cases hres : resolveReferences prog names with
    | next prog' => exact (hnext.mp ⟨prog', hres⟩ n r hn name hr hnone).elim
    | fault f => exact ⟨f, rfl⟩
    | refused e => exact (linkFrom_ne_refused _ _ _ e hres).elim

end Sys2Proof.Proofs
end

section
/-! PROOFS. The power-on state (R27, R60, R106, R230), the default no-op (R82, R103, R189), and the host's
register write (R11, R32). -/

namespace Sys2Proof.Machine

/-! ## Power-on reset -/

/-- The default map accepts the words inside its one RAM (R51, R60). -/
theorem defaultMap_accepts (a : Int) :
    (Validator.range memSize).accepts 0 a = true ↔ 0 ≤ a ∧ a ≤ 0xFFFE := by
  have hsize : (memSize : Int) = 0x10000 := rfl
  have hzero : ((0 : Word).toNat : Int) = 0 := rfl
  rw [Validator.accepts, decide_eq_true_eq, hsize, hzero]
  omega

/-- Where an access over the default map ends (R60). -/
theorem defaultMap_route (k : Access) (a : Int) :
    defaultMap.route k a = if 0 ≤ a ∧ a ≤ 0xFFFE then .hit 0 a else .miss false := by
  have hpermits : Capability.readWrite.permits k = true := by cases k <;> rfl
  have hzero : a - ((0 : Word).toNat : Int) = a := Int.sub_zero a
  rw [← if_congr (defaultMap_accepts a) rfl rfl]
  by_cases h : (Validator.range memSize).accepts 0 a = true
  · simp only [defaultMap, Node.route, Node.count, Node.descend, h, hpermits, hzero, if_true]
  · simp only [defaultMap, Node.route, Node.count, h, Bool.false_eq_true, if_false]

/-- The default map leads inside its RAM (R67). -/
theorem defaultMap_ok : defaultMap.Ok defaultUnits := by
  refine ⟨⟨.ram memSize [], rfl, fun a ha => ?_⟩, trivial⟩
  rw [defaultMap_accepts] at ha
  rw [HwUnit.inBounds_iff, HwUnit.size, memSize]
  simp
  omega

/-! ## The default no-op -/

/-- A tick that fetches the default no-op sets ILLEGAL and counts `pc` on: no unit runs it (R82, R189). -/
theorem step_of_nop {s : State} (hp : s.registry.Proper) (hf : fetch s = .next .nop) :
    step s = .next { s with flags := s.flags ||| 0x0080, pc := s.pc + 1 } := by
  have hill : noteIllegal .nop s = { s with flags := s.flags ||| 0x0080 } :=
    (noteIllegal_eq _ s).trans (if_pos rfl)
  rw [step_of_fetch hf, hill, dispatch, dispatchRun_nop (s := { s with flags := s.flags ||| 0x0080 }) hp,
    andThen_next, advancePc_eq]

/-- Past the end, the counter stays past the end unless it wraps (R104, D14). -/
theorem finished_past_end {s : State} (hend : s.prog.length ≤ s.pc.toNat) (hpc : s.pc ≠ 0xFFFF) :
    State.Finished { s with flags := s.flags ||| 0x0080, pc := s.pc + 1 } := by
  constructor
  · rw [show fIllegal = BitVec.twoPow 16 7 from rfl, State.isSet_twoPow _ 7 (by decide)]
    simp
  · have hne : s.pc.toNat ≠ 0xFFFF := fun h => hpc (BitVec.eq_of_toNat_eq h)
    have hlt := s.pc.isLt
    calc s.prog.length
      _ ≤ s.pc.toNat + 1 := by omega
      _ = (s.pc + 1).toNat := by
        rw [BitVec.toNat_add]
        simp
        omega

/-! ## The host's register write -/

/-- A value of 16 bits is the word written (R6, R11). -/
theorem toNat_u16 {v : Int} (h0 : 0 ≤ v) (h1 : v ≤ 0xFFFF) : ((u16 v).toNat : Int) = v := by
  rw [u16, BitVec.toNat_ofInt]
  omega

end Sys2Proof.Machine

namespace Sys2Proof.Proofs

open Sys2Proof.Machine

/-- Settles O6: the default map accepts exactly the words that lie inside its RAM. -/
theorem resetStateIsPowerOn : Obligations.ResetStateIsPowerOn := by
  refine ⟨fun r => ?registers, fun k a h0 h1 => ?mapped, fun k a h => ?unmapped, rfl, rfl, rfl⟩
  case registers =>
    cases r with
    | gpr i => exact Vector.getElem_replicate i.isLt
    | sp | pc | flags => rfl
  case mapped => exact (defaultMap_route k a).trans (if_pos ⟨h0, h1⟩)
  case unmapped => exact (defaultMap_route k a).trans (if_neg (by omega))

/-- Settles O7: the wiring routes each kind to the unit of its family. -/
theorem resetMeetsTheInvariants : Obligations.ResetMeetsTheInvariants :=
  ⟨⟨by decide, by decide⟩, by rw [State.CompareExclusive]; decide, defaultMap_ok, wiring_units⟩

/-- Settles O19: the fetch past the end answers the default no-op. -/
theorem tickPastTheEnd : Obligations.TickPastTheEnd :=
  fun _ hp hend => ⟨step_of_nop hp (fetch_of_past_end hend), finished_past_end hend⟩

/-- Settles O44: no unit accepts the default no-op, so only the ILLEGAL check and the increment act. -/
theorem nopOnlySetsIllegalAndCounts : Obligations.NopOnlySetsIllegalAndCounts :=
  fun _ => ⟨rfl, step_of_nop⟩

/-- Settles O59, by the range of the value. -/
theorem hostWriteIsRangeChecked : Obligations.HostWriteIsRangeChecked := by
  intro s r v
  refine ⟨fun h0 h1 => ⟨_, hostMove_writeReg_of_range ⟨h0, h1⟩ s r, ?value, fun r' hne => ?others⟩,
    fun h => hostMove_writeReg_of_not_range (by omega) s r⟩
  case value => rw [State.readReg_writeReg_same, toNat_u16 h0 h1]
  case others => exact State.readReg_writeReg_ne s hne _

end Sys2Proof.Proofs
end
